-- ==== Sys2Proof/Word.lean ====
section
/-! DEFINITION. The word types of the block: 32-bit registers, 8-bit payload bytes, and the bit patterns of IEEE 754
binary32 and binary64 values (00_scope.md R7). -/

namespace Sys2Proof

/-- A register or a bus word: every register is 32 bits wide (R7). -/
abbrev Word := BitVec 32

/-- A payload byte (R7). -/
abbrev Byte := BitVec 8

/-- The bit pattern of an IEEE 754 binary32 value: a sample or the volume (R7, R66). -/
abbrev F32 := BitVec 32

/-- The bit pattern of an IEEE 754 binary64 value: the Goertzel magnitude or the duration (R7). -/
abbrev F64 := BitVec 64

end Sys2Proof
end

