-- ==== Sys2Proof/Syntax.lean ====
section
/-! DEFINITION. The commands of the block: one constructor per row of spec/opcode_table.json (30_encoding.md R92). -/

namespace Sys2Proof

/-- A command. Only LOADMODE and ENCODE_BIT carry an immediate (R95); every other operand stands in a register. -/
inductive Instr where
  /-- LOADMODE, with IMM2 the mode (R120). -/
  | loadmode (mode : BitVec 2)
  /-- GEN_TONE (R132). -/
  | genTone
  /-- ENCODE_BIT, with bit 8 of the word the bit value (R133). -/
  | encodeBit (bit : Bool)
  /-- CRC16 (R151). -/
  | crc16
  /-- CRC_CHECK (R152). -/
  | crcCheck
  /-- ENCODE_FRAME (R172). -/
  | encodeFrame
  /-- DURATION (R173). -/
  | duration
  /-- GOERTZEL (R191). -/
  | goertzel
  /-- DECODE_BIT (R193). -/
  | decodeBit
  /-- FIND_PREAMBLE (R212). -/
  | findPreamble
  /-- DECODE_FRAME (R216). -/
  | decodeFrame
deriving DecidableEq, Repr

end Sys2Proof
end

