-- ==== Sys2Proof/WellFormed.lean ====
section
/-! DEFINITION. Which commands a word can stand for: the one operand value the encoding rules out is mode 3 of
LOADMODE (30_encoding.md R94). -/

namespace Sys2Proof

/-- A command some word decodes to (R94): LOADMODE has the modes 0, 1 and 2; every other operand value is encodable. -/
def WellFormed : Instr → Bool
  | .loadmode mode => mode != 3#2
  | .genTone | .encodeBit _ | .crc16 | .crcCheck | .encodeFrame | .duration
  | .goertzel | .decodeBit | .findPreamble | .decodeFrame => true

end Sys2Proof
end

