-- ==== Sys2Proof/Decode.lean ====
section
/-! DEFINITION. Decoding a command word (30_encoding.md R91 to R96), total over all 2^32 words and rejecting by name, and
after it the encoder written from the same tables. -/

namespace Sys2Proof

/-- Why a word is illegal, one name for each line of R96's list. -/
inductive Illegal where
  /-- RSV is not 0. -/
  | reservedBits
  /-- OP is 0x00 or 0x0C to 0xFF. -/
  | unknownOpcode
  /-- LOADMODE with IMM2 = 3. -/
  | modeThree
  /-- ENCODE_BIT with bit 9 = 1. -/
  | bitNine
  /-- any other command with IMM2 not 0. -/
  | immediate
deriving DecidableEq, Repr

/-- OP = w[7:0] (R91). -/
def opField (w : Word) : BitVec 8 := w.extractLsb' 0 8

/-- IMM2 = w[9:8] (R91). -/
def immField (w : Word) : BitVec 2 := w.extractLsb' 8 2

/-- RSV = w[31:10] (R91). -/
def rsvField (w : Word) : BitVec 22 := w.extractLsb' 10 22

/-- A command whose IMM2 must be 0 (R94). -/
def plainCommand (imm : BitVec 2) (i : Instr) : Except Illegal Instr :=
  if imm = 0#2 then .ok i else .error .immediate

/-- The decoder of R94. -/
def decode (w : Word) : Except Illegal Instr :=
  if rsvField w ≠ 0#22 then .error .reservedBits
  else match (opField w).toNat with
    | 0x01 => if immField w = 3#2 then .error .modeThree else .ok (.loadmode (immField w))
    | 0x02 => plainCommand (immField w) .genTone
    | 0x03 => if w.getLsbD 9 then .error .bitNine else .ok (.encodeBit (w.getLsbD 8))
    | 0x04 => plainCommand (immField w) .crc16
    | 0x05 => plainCommand (immField w) .crcCheck
    | 0x06 => plainCommand (immField w) .encodeFrame
    | 0x07 => plainCommand (immField w) .duration
    | 0x08 => plainCommand (immField w) .goertzel
    | 0x09 => plainCommand (immField w) .decodeBit
    | 0x0A => plainCommand (immField w) .findPreamble
    | 0x0B => plainCommand (immField w) .decodeFrame
    | _ => .error .unknownOpcode

/-- The opcode of a command (R92). -/
def opcode : Instr → BitVec 8
  | .loadmode _ => 0x01
  | .genTone => 0x02
  | .encodeBit _ => 0x03
  | .crc16 => 0x04
  | .crcCheck => 0x05
  | .encodeFrame => 0x06
  | .duration => 0x07
  | .goertzel => 0x08
  | .decodeBit => 0x09
  | .findPreamble => 0x0A
  | .decodeFrame => 0x0B

/-- IMM2 of a command (R91, R92). -/
def immediate : Instr → BitVec 2
  | .loadmode mode => mode
  | .encodeBit bit => if bit then 1 else 0
  | .genTone | .crc16 | .crcCheck | .encodeFrame | .duration
  | .goertzel | .decodeBit | .findPreamble | .decodeFrame => 0

/-- The word of a command: RSV = 0, IMM2, OP, from the most significant end (R91). -/
def encode (i : Instr) : Word := (0#22 ++ immediate i) ++ opcode i

/-- The command the decoder reads from a word whose bits the opcode table numbers (a command is one 32-bit word). -/
def decodeTableWord (nbits w : Nat) : Option Instr :=
  match decode (BitVec.ofNat 32 (w % 2 ^ nbits)) with
  | .ok i => some i
  | .error _ => none

end Sys2Proof
end

