-- ==== Sys2Proof/Machine/Cells.lean ====
section
/-! DEFINITION. Memories as lists of (index, value) pairs with strictly rising indices, listing exactly the cells that hold a
value (20_memory.md R68). The same operations serve the byte RAM, the sample RAM and the host variables. -/

namespace Sys2Proof.Machine

variable {α : Type}

/-- The value of cell `a`, if it is listed. -/
def cellGet? : List (Nat × α) → Nat → Option α
  | [], _ => none
  | (k, v) :: m, a => if k = a then some v else cellGet? m a

/-- The cells that hold `vals` from index `a` on. -/
def cellRun : Nat → List α → List (Nat × α)
  | _, [] => []
  | a, v :: vals => (a, v) :: cellRun (a + 1) vals

/-- Write `vals` to the cells from `a` on. -/
def cellsPut (m : List (Nat × α)) (a : Nat) (vals : List α) : List (Nat × α) :=
  m.filter (fun c => c.1 < a) ++ (cellRun a vals ++ m.filter (fun c => a + vals.length ≤ c.1))

/-- Take the `n` cells from `a` on off the list: they hold no value afterwards. -/
def cellsErase (m : List (Nat × α)) (a n : Nat) : List (Nat × α) :=
  m.filter (fun c => c.1 < a || a + n ≤ c.1)

/-- The indices are strictly rising from `lo` on and below `size`. -/
def Memory.rising (size : Nat) : Nat → List (Nat × α) → Bool
  | _, [] => true
  | lo, (k, _) :: m => lo ≤ k && k < size && Memory.rising size (k + 1) m

/-- The canonical form of a memory of `size` cells: strictly rising indices, all inside it. No unlisted cell reads as a value, so
nothing more is asked. -/
def Memory.wf (size : Nat) (m : List (Nat × α)) : Bool := Memory.rising size 0 m

/-- What the `n` cells from `a` on hold. -/
def cellsGet (m : List (Nat × α)) (a n : Nat) : List (Option α) := (List.range n).map (fun j => cellGet? m (a + j))

/-- The values of cells read from index `a` on, with `free` for the cells that hold none. -/
def fillFrom (free : Nat → α) : Nat → List (Option α) → List α
  | _, [] => []
  | a, o :: os => o.getD (free a) :: fillFrom free (a + 1) os

/-- The indices of the cells read from index `a` on that hold no value. -/
def missingFrom : Nat → List (Option α) → List Nat
  | _, [] => []
  | a, none :: os => a :: missingFrom (a + 1) os
  | a, some _ :: os => missingFrom (a + 1) os

/-- The cells from `a` on of a sorted memory, read in one pass. -/
def cellsScan : List (Nat × α) → Nat → Nat → List (Option α)
  | _, _, 0 => []
  | [], a, n + 1 => none :: cellsScan [] (a + 1) n
  | (k, v) :: m, a, n + 1 =>
    if k = a then some v :: cellsScan m (a + 1) n else none :: cellsScan ((k, v) :: m) (a + 1) n

/-- `cellsGet` for the compiler: one pass where the memory is sorted. -/
def cellsGetFast (m : List (Nat × α)) (a n : Nat) : List (Option α) :=
  if Memory.rising (m.foldl (fun x c => max x (c.1 + 1)) 0) 0 m then cellsScan (m.dropWhile (fun c => c.1 < a)) a n
  else (List.range n).map (fun j => cellGet? m (a + j))

/-- A cell below every listed index holds no value. -/
theorem cellGet?_of_rising {size : Nat} : ∀ {m : List (Nat × α)} {lo a : Nat}, Memory.rising size lo m = true → a < lo →
    cellGet? m a = none
  | [], _, _, _, _ => rfl
  | (k, v) :: m, lo, a, h, ha => by
    simp only [Memory.rising, Bool.and_eq_true, decide_eq_true_eq] at h
    have hk : k ≠ a := by omega
    simpa [cellGet?, hk] using cellGet?_of_rising h.2 (by omega)

/-- In a sorted memory the cells below `a` may be passed over. -/
theorem cellGet?_dropWhile {size : Nat} : ∀ {m : List (Nat × α)} {lo a x : Nat}, Memory.rising size lo m = true → a ≤ x →
    cellGet? (m.dropWhile (fun c => c.1 < a)) x = cellGet? m x
  | [], _, _, _, _, _ => rfl
  | (k, v) :: m, lo, a, x, h, hx => by
    simp only [Memory.rising, Bool.and_eq_true, decide_eq_true_eq] at h
    by_cases hk : k < a
    · have hne : k ≠ x := by omega
      simpa [List.dropWhile, hk, cellGet?, hne] using cellGet?_dropWhile h.2 hx
    · simp [List.dropWhile, hk]

/-- Passing over cells keeps a memory sorted, now from `a` on. -/
theorem rising_dropWhile {size : Nat} : ∀ {m : List (Nat × α)} {lo a : Nat}, Memory.rising size lo m = true →
    Memory.rising size a (m.dropWhile (fun c => c.1 < a)) = true
  | [], _, _, _ => rfl
  | (k, v) :: m, lo, a, h => by
    simp only [Memory.rising, Bool.and_eq_true, decide_eq_true_eq] at h
    by_cases hk : k < a
    · simpa [List.dropWhile, hk] using rising_dropWhile h.2
    · simp only [List.dropWhile, hk, decide_false, Memory.rising, Bool.and_eq_true, decide_eq_true_eq]
      exact ⟨⟨by omega, h.1.2⟩, h.2⟩

/-- One pass over a sorted memory finds what each lookup finds. -/
theorem cellsScan_eq {size : Nat} : ∀ (n : Nat) {m : List (Nat × α)} {a : Nat}, Memory.rising size a m = true →
    cellsScan m a n = (List.range n).map (fun j => cellGet? m (a + j))
  | 0, m, a, _ => by cases m <;> rfl
  | n + 1, [], a, _ => by
    rw [cellsScan, cellsScan_eq n (size := size) rfl, List.range_succ_eq_map, List.map_cons, List.map_map]
    rfl
  | n + 1, (k, v) :: m, a, h => by
    have h' := h
    simp only [Memory.rising, Bool.and_eq_true, decide_eq_true_eq] at h
    rw [List.range_succ_eq_map, List.map_cons, List.map_map]
    by_cases hk : k = a
    · subst hk
      rw [cellsScan, if_pos rfl, cellsScan_eq n h.2]
      simp only [cellGet?, Nat.add_zero, if_pos, List.cons.injEq, true_and]
      refine List.map_congr_left fun j _ => ?_
      simp [Nat.add_comm, Nat.add_left_comm]
    · rw [cellsScan, if_neg hk, cellsScan_eq n (size := size)]
      · simp only [cellGet?, Nat.add_zero, hk, if_false, List.cons.injEq]
        refine ⟨(cellGet?_of_rising h.2 (by omega)).symm, List.map_congr_left fun j _ => ?_⟩
        simp [Nat.add_comm, Nat.add_left_comm]
      · simp only [Memory.rising, Bool.and_eq_true, decide_eq_true_eq]
        exact ⟨⟨by omega, h.1.2⟩, h.2⟩

/-- The two readings agree, sorted memory or not, so compiled code may take the fast one. -/
@[csimp] theorem cellsGet_eq_fast : @cellsGet = @cellsGetFast := by
  funext α m a n
  unfold cellsGet cellsGetFast
  split
  · rename_i h
    rw [cellsScan_eq n (rising_dropWhile h)]
    exact List.map_congr_left fun j _ => (cellGet?_dropWhile h (by omega)).symm
  · rfl

end Sys2Proof.Machine
end

