-- ==== Sys2Proof/Config.lean ====
section
/-! DEFINITION. What an implementation fixes (the parameters of 00_scope.md R6) and the free values: constants without
a body for every value the spec leaves open (93_implementation_defined.md section 1). -/

namespace Sys2Proof

/-- The parameters BASE, BYTE_RAM_BYTES and SAMPLE_RAM_WORDS of R6. `State.params` holds them and no step changes them (log 11). -/
structure Params where
  /-- BASE: the host-bus byte address of offset 0x0000_0000 of the block. -/
  base : Nat
  /-- BYTE_RAM_BYTES: size of the byte RAM in bytes. -/
  byteRamBytes : Nat
  /-- SAMPLE_RAM_WORDS: size of the sample RAM in binary32 words. -/
  sampleRamWords : Nat
deriving DecidableEq, Repr

/-- The values R6 takes for revision FSK1. R6 leaves BASE open: 0 is the model's value (DESIGN CHOICE, log 11). -/
def Params.fsk1 : Params := { base := 0, byteRamBytes := 65536, sampleRamWords := 262144 }

/-- What R6 and R60 require of the sizes (they require nothing of BASE): whole words, at least one of each, and windows that end below
0x0010_0000 and below 2^32. -/
abbrev Params.wf (p : Params) : Prop :=
  4 ≤ p.byteRamBytes ∧ p.byteRamBytes % 4 = 0 ∧ p.byteRamBytes ≤ 0x000F0000 ∧
    1 ≤ p.sampleRamWords ∧ p.sampleRamWords ≤ 0x3FFC0000

/-- TONE_SIN (R6, R12): the binary64 sine of the tone synthesizer, a total function of its one argument and nothing
more (log 7). -/
opaque Config.toneSin : F64 → F64

/-- GOERTZEL_COS (R6, R12): the binary64 cosine of the Goertzel detector, likewise (log 7). -/
opaque Config.goertzelCos : F64 → F64

/-- The word an unspecified busy read returns (R40, R67), applied to the draw counter (log 2). -/
opaque Config.freeWord : Nat → Word

/-- What a command finds in a sample RAM word that is not written (R68), from the draw counter and the index (log 3). -/
opaque Config.unwrittenSample : Nat → Nat → F32

/-- What a command finds in a byte RAM byte that is not written (R68), from the draw counter and the index (log 3). -/
opaque Config.unwrittenByte : Nat → Nat → Byte

/-- Sign and payload of the NaN that TONE(f, i) is at sample rate SR when the sine is a NaN (93), applied to f, i and
SR, the three things R130 lets TONE depend on (log 8). -/
opaque Config.toneNaN : Nat → Nat → Nat → F32

/-- Sign and payload of the NaN that SCALE(x, v) is (R131, 93), applied to x and v (log 8). -/
opaque Config.scaleNaN : F32 → F32 → F32

end Sys2Proof
end

