-- ==== Sys2Proof/Machine/State.lean ====
section
/-! DEFINITION. The state of the machine as plain data (10_state.md R20 to R42, 20_memory.md R61 and R68, 60_exceptions.md
R246, 30_encoding.md R100), its faults and refusals, and the state after power-on reset (70_reset_and_hazards.md R270). -/

namespace Sys2Proof.Machine

/-- The three modes of the source, in the order of their numbers (R26, R121). -/
inductive Mode where
  | audible
  | ultrasonic
  | minimal
deriving DecidableEq, Repr

/-- The values STATUS.ERRCODE takes (R240). -/
inductive ErrCode where
  | none
  | illegalCmd
  | cfgInvalid
  | lengthTooLarge
  | sampleRange
  | byteRange
  | noPreamble
  | tooFewBits
  | truncated
  | crcMismatch
deriving DecidableEq, Repr

/-- The fields of STATUS (R23). BUSY is also the in-flight flag (R38). -/
structure Status where
  busy    : Bool
  done    : Bool
  ok      : Bool
  rej     : Bool
  errcode : ErrCode
  lastop  : BitVec 8
deriving DecidableEq, Repr

/-- The fields of MODE (R26). -/
structure ModeReg where
  preset   : Mode
  modified : Bool
deriving DecidableEq, Repr

/-- The seven configuration registers, the source's FSKConfig (R27 to R33). -/
structure FskConfig where
  sampleRate    : Word
  bitRate       : Word
  markFreq      : Word
  spaceFreq     : Word
  volume        : F32
  preambleBits  : BitVec 16
  postambleBits : BitVec 16
deriving DecidableEq, Repr

/-- The operand registers (R35, R36). -/
structure OperandRegs where
  arg      : Word
  srcAddr  : Word
  srcLen   : Word
  dstAddr  : Word
  count    : Word
  byteAddr : Word
  byteLen  : Word
deriving DecidableEq, Repr

/-- The result registers (R37). -/
structure Results where
  result0   : Word
  result1   : Word
  result2   : Word
  fresultLo : Word
  fresultHi : Word
deriving DecidableEq, Repr

/-- What a command can change of the registers the host reads, as it was at the CMD write (20_memory.md R72). -/
structure Before where
  cfg  : FskConfig
  mode : ModeReg
deriving DecidableEq, Repr

/-- The two internal RAMs (R61). -/
inductive Region where
  | byteRam
  | sampleRam
deriving DecidableEq, Repr

/-- The two events R246 records in the model's fault set. -/
inductive ModelFault where
  /-- A host access to an unmapped offset, or of a wrong width or alignment (R65). -/
  | busError (offset : Nat)
  /-- A read of a RAM cell whose written mark is clear (R68). -/
  | uninitRead (region : Region) (index : Nat)
deriving DecidableEq, Repr

/-- One step of a host program (R100). A label is the position of its line in the program; a host variable is a number. -/
inductive HostStep where
  /-- WR: a bus write of `width` bytes. The notation has width 4 alone; another width is the access R63 forbids. -/
  | wr (width : Nat) (offset : Word) (value : Word)
  /-- RD: a bus read into a host variable. -/
  | rd (width : Nat) (offset : Word) (var : Nat)
  /-- BNZ: go to the line if the variable and the mask have a common bit. -/
  | bnz (var : Nat) (mask : Word) (line : Nat)
  /-- HALT: the end of the host program. -/
  | halt
deriving DecidableEq, Repr

/-- The host agent (R14, R100, R102): its program, where it is in it, its variables (sorted by number, one entry for each that
holds a value) and whether it has executed HALT. -/
structure HostAgent where
  program : List HostStep
  pos     : Nat
  vars    : List (Nat × Word)
  halted  : Bool
deriving DecidableEq, Repr

/-- Who takes a step (R14). -/
inductive Agent where
  | host
  | block
deriving DecidableEq, Repr

/-- The whole state. The RAMs are lists sorted by index that list exactly the cells whose written mark is set (R68). ID,
SPB and IRQ are computed from the rest (R22, R25, R250). -/
structure State where
  /-- BASE and the sizes, which no step changes (R6) -/
  params  : Params
  /-- STATUS (R23) -/
  status  : Status
  /-- CTRL.IRQ_EN (R24) -/
  irqEn   : Bool
  /-- MODE (R26) -/
  mode    : ModeReg
  /-- the configuration registers (R27 to R33) -/
  cfg     : FskConfig
  /-- CMD, and while BUSY = 1 the word of the command in flight (R34, R38) -/
  cmd     : Word
  /-- the operand registers (R35, R36) -/
  ops     : OperandRegs
  /-- the result registers (R37) -/
  results : Results
  /-- the sample RAM S (R61) -/
  sram    : List (Nat × F32)
  /-- the byte RAM B (R61) -/
  bram    : List Host.Cell
  /-- from the CMD write to the STATUS read that shows the command completed, what the host is shown in place of the configuration and
  MODE; none outside that time (20_memory.md R72, log 26) -/
  before  : Option Before
  /-- the fault set (R246), without repeats, in the order of first occurrence -/
  faults  : List ModelFault
  /-- how many free draws have been taken (log 2) -/
  draws   : Nat
  /-- the host agent (R14) -/
  host    : HostAgent
  /-- the schedule: who moves at the coming steps at which the block is busy; when it is empty the block moves (log 1) -/
  sched   : List Agent
deriving DecidableEq, Repr

/-- Why a step can stop. -/
inductive Fault where
  /-- Raised by the host step BNZ on a variable that holds no value, for want of a value to branch on (log 6). Safe: the model
  stops where R100 gives the branch no meaning. -/
  | hostNoValue (var : Nat)
deriving DecidableEq, Repr

/-- Why a command has no meaning. -/
inductive Refusal where
  /-- Raised by an arm of `exec` for a command that has no meaning yet. Safe: no behaviour is claimed. -/
  | notModelled (mnemonic : String)
deriving DecidableEq, Repr

/-- STATUS after reset (R23). -/
def Status.reset : Status :=
  { busy := false, done := false, ok := false, rej := false, errcode := .none, lastop := 0 }

/-- MODE after reset (R26). -/
def ModeReg.reset : ModeReg := { preset := .audible, modified := false }

/-- The configuration registers after reset (R27 to R33). -/
def FskConfig.reset : FskConfig :=
  { sampleRate := 48000, bitRate := 100, markFreq := 1200, spaceFreq := 2200, volume := 0x3F800000,
    preambleBits := 16, postambleBits := 8 }

/-- The operand registers after reset (R35, R36). -/
def OperandRegs.reset : OperandRegs :=
  { arg := 0, srcAddr := 0, srcLen := 0, dstAddr := 0, count := 0, byteAddr := 0, byteLen := 0 }

/-- The result registers after reset, and after every failed command (R37, R242). -/
def Results.zero : Results := { result0 := 0, result1 := 0, result2 := 0, fresultLo := 0, fresultHi := 0 }

/-- The host agent before a program is given to it (DESIGN CHOICE, log 12). -/
def HostAgent.reset : HostAgent := { program := [], pos := 0, vars := [], halted := false }

/-- The machine right after power-on reset (R270), with the FSK1 sizes of R6. -/
def State.reset : State :=
  { params := Params.fsk1, status := Status.reset, irqEn := false, mode := ModeReg.reset, cfg := FskConfig.reset,
    cmd := 0, ops := OperandRegs.reset, results := Results.zero, sram := [], bram := [], before := none, faults := [], draws := 0,
    host := HostAgent.reset, sched := [] }

end Sys2Proof.Machine
end

