-- ==== Sys2Proof/Machine/Flags.lean ====
section
/-! DEFINITION. The status bits: the codes of ERRCODE (60_exceptions.md R240), how STATUS, MODE and CTRL read (10_state.md R23,
R24, R26), what sets and clears each STATUS field, and the interrupt output (R250). -/

namespace Sys2Proof.Machine

/-- The value of ERRCODE for each outcome (R240). -/
def ErrCode.code : ErrCode → BitVec 8
  | .none => 0x00
  | .illegalCmd => 0x01
  | .cfgInvalid => 0x02
  | .lengthTooLarge => 0x03
  | .sampleRange => 0x04
  | .byteRange => 0x05
  | .noPreamble => 0x10
  | .tooFewBits => 0x11
  | .truncated => 0x12
  | .crcMismatch => 0x13

/-- STATUS as read (R23): from bit 31 down reserved, LASTOP, ERRCODE, reserved, REJ, OK, DONE, BUSY. -/
def Status.word (st : Status) : Word :=
  0#8 ++ st.lastop ++ st.errcode.code ++ 0#4 ++ BitVec.ofBool st.rej ++ BitVec.ofBool st.ok ++
    BitVec.ofBool st.done ++ BitVec.ofBool st.busy

/-- STATUS when a command is accepted (R111): REJ and LASTOP stay. -/
def Status.accept (st : Status) : Status :=
  { st with busy := true, done := false, ok := false, errcode := .none }

/-- STATUS when a command completes with an outcome (R114, R242): REJ stays, OK says whether there was no error. -/
def Status.finish (st : Status) (code : ErrCode) (op : BitVec 8) : Status :=
  { st with busy := false, done := true, ok := code == .none, errcode := code, lastop := op }

/-- STATUS after a host write to it (R23): DONE and REJ are cleared where the written bit is 1. -/
def Status.writeOneToClear (st : Status) (v : Word) : Status :=
  { st with done := st.done && !v.getLsbD 1, rej := st.rej && !v.getLsbD 3 }

/-- STATUS after a dropped write (R39). -/
def Status.reject (st : Status) : Status := { st with rej := true }

/-- The number of a mode (R26). -/
def Mode.number : Mode → BitVec 2
  | .audible => 0
  | .ultrasonic => 1
  | .minimal => 2

/-- The mode of a number; 3 is none (R92, R94). -/
def Mode.ofNumber (m : BitVec 2) : Option Mode :=
  match m.toNat with
  | 0 => some .audible
  | 1 => some .ultrasonic
  | 2 => some .minimal
  | _ => none

/-- MODE as read (R26): MODIFIED in bit 2, PRESET in bits 1:0. -/
def ModeReg.word (m : ModeReg) : Word := 0#29 ++ BitVec.ofBool m.modified ++ m.preset.number

/-- CTRL as read (R24): IRQ_EN in bit 1; SRST and the reserved bits read 0. -/
def ctrlWord (irqEn : Bool) : Word := 0#30 ++ BitVec.ofBool irqEn ++ 0#1

/-- The interrupt output (R250): level-sensitive, active high. -/
def State.irq (s : State) : Bool := s.status.done && s.irqEn

end Sys2Proof.Machine
end

