-- ==== Sys2Proof/Machine/Float.lean ====
section
/-! DEFINITION. The IEEE 754 operations of 00_scope.md R10 on bit patterns: exact integers inside, one rounding
(roundTiesToEven) at the end, subnormals kept, no flags. The meaning of the operations is general knowledge (R10, log 15).

The magnitude of a finite value is a natural number of UNITS, one unit being the least subnormal of the format
(2^-149 for binary32, 2^-1074 for binary64). So every finite value is an exact natural, addition is exact, and
each operation rounds one quotient of naturals. -/

namespace Sys2Proof.Machine

/-- A binary interchange format: its precision (hidden bit included) and its exponent width. -/
structure FpFormat where
  prec : Nat
  expw : Nat
deriving DecidableEq, Repr

/-- binary32. -/
def binary32 : FpFormat := { prec := 24, expw := 8 }

/-- binary64. -/
def binary64 : FpFormat := { prec := 53, expw := 11 }

/-- A decoded value. `units` counts least subnormals of the format it was read from. -/
inductive Fp where
  | nan
  | inf (neg : Bool)
  | fin (neg : Bool) (units : Nat)
deriving DecidableEq, Repr

/-- One is 2^unitExp units: 149 for binary32, 1074 for binary64. -/
def FpFormat.unitExp (f : FpFormat) : Nat := 2 ^ (f.expw - 1) + f.prec - 3

/-- The magnitude bits of infinity; greater magnitudes are NaNs. -/
def FpFormat.infMag (f : FpFormat) : Nat := (2 ^ f.expw - 1) * 2 ^ (f.prec - 1)

/-- The place of the sign bit. -/
def FpFormat.signBit (f : FpFormat) : Nat := 2 ^ (f.expw + f.prec - 1)

/-- The units of a finite magnitude pattern: fraction and exponent field taken apart. -/
def FpFormat.unitsOf (f : FpFormat) (mag : Nat) : Nat :=
  let frac := mag % 2 ^ (f.prec - 1)
  match mag / 2 ^ (f.prec - 1) with
  | 0 => frac
  | e + 1 => (2 ^ (f.prec - 1) + frac) * 2 ^ e

/-- The value of a bit pattern. -/
def FpFormat.unpack (f : FpFormat) (x : Nat) : Fp :=
  let mag := x % f.signBit
  let neg := f.signBit ≤ x
  if f.infMag < mag then .nan else if mag = f.infMag then .inf neg else .fin neg (f.unitsOf mag)

/-- The quotient a / b rounded to the nearest natural, ties to the even one. -/
def roundHalfEven (a b : Nat) : Nat :=
  let q := a / b
  let r := a % b
  if b < 2 * r ∨ (2 * r = b ∧ q % 2 = 1) then q + 1 else q

/-- The magnitude pattern nearest to num / den units, ties to even, infinity on overflow. The quotient keeps `prec` significant
bits, so `drop` low bits go; the exponent field and the fraction follow by addition, a carry included. -/
def FpFormat.roundMag (f : FpFormat) (num den : Nat) : Nat :=
  let drop := (num / den).log2 + 1 - f.prec
  min (drop * 2 ^ (f.prec - 1) + roundHalfEven num (den * 2 ^ drop)) f.infMag

/-- A pattern from its sign and its magnitude bits. -/
def FpFormat.signed (f : FpFormat) (neg : Bool) (mag : Nat) : Nat := if neg then f.signBit + mag else mag

/-- A quiet NaN with no payload. Which NaN the binary64 operations make is not observable (log 9). -/
def FpFormat.quietNaN (f : FpFormat) : Nat := f.infMag + 2 ^ (f.prec - 2)

/-- The pattern of ±num / den units, rounded once. -/
def FpFormat.round (f : FpFormat) (neg : Bool) (num den : Nat) : Nat := f.signed neg (f.roundMag num den)

/-- A finite value as an integer of units. -/
def fpInt (neg : Bool) (units : Nat) : Int := if neg then -(units : Int) else units

/-- The opposite value. -/
def Fp.neg : Fp → Fp
  | .nan => .nan
  | .inf s => .inf (!s)
  | .fin s u => .fin (!s) u

/-- Addition. An exact zero sum is +0 unless both operands are negative. -/
def FpFormat.add (f : FpFormat) : Fp → Fp → Nat
  | .nan, _ => f.quietNaN
  | _, .nan => f.quietNaN
  | .inf s, .inf t => if s = t then f.signed s f.infMag else f.quietNaN
  | .inf s, .fin _ _ => f.signed s f.infMag
  | .fin _ _, .inf t => f.signed t f.infMag
  | .fin s u, .fin t v =>
    let sum := fpInt s u + fpInt t v
    if sum = 0 then f.signed (s && t) 0 else f.round (sum < 0) sum.natAbs 1

/-- Multiplication. -/
def FpFormat.mul (f : FpFormat) : Fp → Fp → Nat
  | .nan, _ => f.quietNaN
  | _, .nan => f.quietNaN
  | .inf s, .inf t => f.signed (s != t) f.infMag
  | .inf s, .fin t v => if v = 0 then f.quietNaN else f.signed (s != t) f.infMag
  | .fin s u, .inf t => if u = 0 then f.quietNaN else f.signed (s != t) f.infMag
  | .fin s u, .fin t v => f.round (s != t) (u * v) (2 ^ f.unitExp)

/-- Division. -/
def FpFormat.div (f : FpFormat) : Fp → Fp → Nat
  | .nan, _ => f.quietNaN
  | _, .nan => f.quietNaN
  | .inf _, .inf _ => f.quietNaN
  | .inf s, .fin t _ => f.signed (s != t) f.infMag
  | .fin s _, .inf t => f.signed (s != t) 0
  | .fin s u, .fin t v =>
    if v = 0 then (if u = 0 then f.quietNaN else f.signed (s != t) f.infMag)
    else f.round (s != t) (u * 2 ^ f.unitExp) v

/-- The integer square root of n, one bit a step from bit `k - 1` down: the greatest r with r² ≤ n that has the bits of
`acc` above and is below acc + 2^k. -/
def isqrtFrom (n : Nat) : Nat → Nat → Nat
  | 0, acc => acc
  | k + 1, acc => isqrtFrom n k (if (acc + 2 ^ k) * (acc + 2 ^ k) ≤ n then acc + 2 ^ k else acc)

/-- The integer square root of n. -/
def isqrt (n : Nat) : Nat := isqrtFrom n (n.log2 / 2 + 1) 0

/-- Square root. The root in units is the root of units times 2^unitExp; half a unit is added where it is not exact, which is
far below the last kept bit and so decides no tie wrongly. -/
def FpFormat.sqrt (f : FpFormat) : Fp → Nat
  | .nan => f.quietNaN
  | .inf s => if s then f.quietNaN else f.infMag
  | .fin s u =>
    if u = 0 then f.signed s 0
    else if s then f.quietNaN
    else
      let n := u * 2 ^ f.unitExp
      let r := isqrt n
      f.round false (2 * r + (if r * r = n then 0 else 1)) 2

/-- The quiet comparison x < y: false with a NaN (R10). -/
def Fp.lt : Fp → Fp → Bool
  | .nan, _ => false
  | _, .nan => false
  | .inf s, .inf t => s && !t
  | .inf s, .fin _ _ => s
  | .fin _ _, .inf t => !t
  | .fin s u, .fin t v => fpInt s u < fpInt t v

/-- The quiet comparison x ≤ y: false with a NaN (R10). -/
def Fp.le : Fp → Fp → Bool
  | .nan, _ => false
  | _, .nan => false
  | .inf s, .inf t => s || !t
  | .inf s, .fin _ _ => s
  | .fin _ _, .inf t => !t
  | .fin s u, .fin t v => fpInt s u ≤ fpInt t v

/-- The value of a binary32 pattern. -/
def unpack32 (x : F32) : Fp := binary32.unpack x.toNat

/-- The value of a binary64 pattern. -/
def unpack64 (x : F64) : Fp := binary64.unpack x.toNat

/-- isNaN on binary32. -/
def isNaN32 (x : F32) : Bool := unpack32 x == .nan

/-- isNaN on binary64. -/
def isNaN64 (x : F64) : Bool := unpack64 x == .nan

/-- `+64` (R10). -/
def add64 (x y : F64) : F64 := BitVec.ofNat 64 (binary64.add (unpack64 x) (unpack64 y))

/-- `-64` (R10). -/
def sub64 (x y : F64) : F64 := BitVec.ofNat 64 (binary64.add (unpack64 x) (unpack64 y).neg)

/-- `*64` (R10). -/
def mul64 (x y : F64) : F64 := BitVec.ofNat 64 (binary64.mul (unpack64 x) (unpack64 y))

/-- `/64` (R10). -/
def div64 (x y : F64) : F64 := BitVec.ofNat 64 (binary64.div (unpack64 x) (unpack64 y))

/-- `sqrt64` (R10). -/
def sqrt64 (x : F64) : F64 := BitVec.ofNat 64 (binary64.sqrt (unpack64 x))

/-- The binary64 comparison x > y (R10). -/
def gt64 (x y : F64) : Bool := (unpack64 y).lt (unpack64 x)

/-- The binary64 comparison x ≤ y (R10). -/
def le64 (x y : F64) : Bool := (unpack64 x).le (unpack64 y)

/-- A NaN with the quiet bit set, its sign and the rest of its payload taken from a free pattern (93). -/
def quietNaN32 (payload : F32) : F32 := payload ||| 0x7FC00000#32

/-- `*32` (R10), with the NaN it makes given (R131 leaves its payload open). -/
def mul32 (nan x y : F32) : F32 :=
  match unpack32 x, unpack32 y with
  | .nan, _ => nan
  | _, .nan => nan
  | .inf s, .fin t v => if v = 0 then nan else BitVec.ofNat 32 (binary32.mul (.inf s) (.fin t v))
  | .fin s u, .inf t => if u = 0 then nan else BitVec.ofNat 32 (binary32.mul (.fin s u) (.inf t))
  | a, b => BitVec.ofNat 32 (binary32.mul a b)

/-- `to64` of a natural below 2^53 (R10): exact. -/
def natTo64 (n : Nat) : F64 := BitVec.ofNat 64 (binary64.roundMag (n * 2 ^ binary64.unitExp) 1)

/-- `to64` of a binary32 value (R10): exact, for binary64 units are 2^925 times finer. -/
def f32To64 (x : F32) : F64 :=
  match unpack32 x with
  | .nan => BitVec.ofNat 64 binary64.quietNaN
  | .inf s => BitVec.ofNat 64 (binary64.signed s binary64.infMag)
  | .fin s u => BitVec.ofNat 64 (binary64.round s (u * 2 ^ (binary64.unitExp - binary32.unitExp)) 1)

/-- `rnd32` (R10), with the NaN a NaN becomes given (93 leaves its payload open). -/
def rnd32 (nan : F32) (x : F64) : F32 :=
  match unpack64 x with
  | .nan => nan
  | .inf s => BitVec.ofNat 32 (binary32.signed s binary32.infMag)
  | .fin s u => BitVec.ofNat 32 (binary32.round s u (2 ^ (binary64.unitExp - binary32.unitExp)))

/-- PI64 (R11). -/
def pi64 : F64 := 0x400921FB54442D18

/-- TWO_PI64 (R11). -/
def twoPi64 : F64 := 0x401921FB54442D18

/-- The binary64 value +0.0. -/
def zero64 : F64 := 0

/-- The binary64 value 2.0. -/
def two64 : F64 := 0x4000000000000000

/-- The canonical NaN64 of R190. -/
def nan64 : F64 := 0x7FF8000000000000

end Sys2Proof.Machine
end

