-- ==== Sys2Proof/Machine/Operands.lean ====
section
/-! DEFINITION. What a command reads before it acts: the configuration and its validity (10_state.md R25, 40_control.md R115,
R121), the frame sizes (43_encoder.md R171), the ranges of its operands (20_memory.md R70), and the RAM cells it takes as input
(R68). -/

namespace Sys2Proof.Machine

/-- SPB (R25): floor(SR / BR), and 0 where BIT_RATE is 0. -/
def FskConfig.spb (c : FskConfig) : Nat :=
  if 1 ≤ c.bitRate.toNat then c.sampleRate.toNat / c.bitRate.toNat else 0

/-- The volume is not a NaN and 0.0 ≤ v ≤ 1.0 (R115). -/
def volumeValid (v : F32) : Bool :=
  !isNaN32 v && (unpack32 0x00000000).le (unpack32 v) && (unpack32 v).le (unpack32 0x3F800000)

/-- VALID(cfg) (R115). -/
def FskConfig.valid (c : FskConfig) : Bool :=
  1 ≤ c.sampleRate.toNat && 1 ≤ c.bitRate.toNat && c.markFreq != c.spaceFreq && 1 ≤ c.spb && volumeValid c.volume

/-- The tone of a bit: mark for 1, space for 0 (R133). -/
def FskConfig.bitFreq (c : FskConfig) (bit : Bool) : Nat :=
  if bit then c.markFreq.toNat else c.spaceFreq.toNat

/-- nbits(L) (R171). -/
def FskConfig.nbits (c : FskConfig) (len : Nat) : Nat :=
  c.preambleBits.toNat + 16 + 8 * len + 16 + c.postambleBits.toNat

/-- nsamples(L) (R171). -/
def FskConfig.nsamples (c : FskConfig) (len : Nat) : Nat := c.nbits len * c.spb

/-- The preset of a mode (R121). -/
def Mode.config : Mode → FskConfig
  | .audible =>
    { sampleRate := 48000, bitRate := 100, markFreq := 1200, spaceFreq := 2200, volume := 0x3F800000,
      preambleBits := 16, postambleBits := 8 }
  | .ultrasonic =>
    { sampleRate := 48000, bitRate := 600, markFreq := 19000, spaceFreq := 18000, volume := 0x3F800000,
      preambleBits := 16, postambleBits := 8 }
  | .minimal =>
    { sampleRate := 48000, bitRate := 100, markFreq := 1200, spaceFreq := 2200, volume := 0x3F800000,
      preambleBits := 16, postambleBits := 8 }

/-- S[a .. a+n) is inside the sample RAM, the sum in unbounded naturals (R70). -/
def State.sampleRangeOk (s : State) (a n : Nat) : Bool := a + n ≤ s.params.sampleRamWords

/-- B[a .. a+n) is inside the byte RAM, the sum in unbounded naturals (R70). -/
def State.byteRangeOk (s : State) (a n : Nat) : Bool := a + n ≤ s.params.byteRamBytes

/-- The list S[a .. a+n) as a command finds it (R9): the words written last, and a free value where nothing is written (R68,
log 3). -/
def State.samples (s : State) (a n : Nat) : List F32 :=
  fillFrom (Config.unwrittenSample s.draws) a (cellsGet s.sram a n)

/-- The list B[a .. a+n) as a command finds it, likewise (R9, R68). -/
def State.bytes (s : State) (a n : Nat) : List Byte :=
  fillFrom (Config.unwrittenByte s.draws) a (cellsGet s.bram a n)

/-- The UNINIT_READ faults of reading S[a .. a+n): one for each word whose written mark is clear (R68, log 4). -/
def State.unwrittenSamples (s : State) (a n : Nat) : List ModelFault :=
  (missingFrom a (cellsGet s.sram a n)).map (ModelFault.uninitRead .sampleRam)

/-- The UNINIT_READ faults of reading B[a .. a+n) (R68, log 4). -/
def State.unwrittenBytes (s : State) (a n : Nat) : List ModelFault :=
  (missingFrom a (cellsGet s.bram a n)).map (ModelFault.uninitRead .byteRam)

end Sys2Proof.Machine
end

