-- ==== Sys2Proof/Machine/Ops.lean ====
section
/-! DEFINITION. The shared operations on State: acceptance (40_control.md R111), the two completions, success (R114) and failure
(60_exceptions.md R242, the spec's one trap entry) with the acknowledge beside it (R247), the RAM writes, the fault set (R246), the
soft reset (70_reset_and_hazards.md R271) and the turn of the two agents (R112). -/

namespace Sys2Proof.Machine

/-- Acceptance of a command word (R111). Until a STATUS read shows the command completed the host is shown the configuration and MODE
as they are now (20_memory.md R72); this holds of the last command accepted (DEDUCED, log 26). -/
def State.accept (s : State) (w : Word) : State :=
  { s with cmd := w, status := s.status.accept, before := some { cfg := s.cfg, mode := s.mode } }

/-- The result registers from r0, r1, r2 and a binary64 value (R114, R37). -/
def Results.of (r0 r1 r2 : Nat) (f : F64) : Results :=
  { result0 := BitVec.ofNat 32 r0, result1 := BitVec.ofNat 32 r1, result2 := BitVec.ofNat 32 r2,
    fresultLo := f.extractLsb' 0 32, fresultHi := f.extractLsb' 32 32 }

/-- Successful completion `complete(r0, r1, r2, f)` (R114). -/
def State.complete (s : State) (r0 r1 r2 : Nat) (f : F64) : State :=
  { s with results := Results.of r0 r1 r2 f, status := s.status.finish .none (opField s.cmd) }

/-- Failure completion `raise Fail(c)` (R242): nothing is saved but CMD itself and LASTOP, and there is no vector. -/
def State.fail (s : State) (c : ErrCode) : State :=
  { s with results := Results.zero, status := s.status.finish c (opField s.cmd) }

/-- The acknowledge, a STATUS write (R247, R23): it clears DONE, and so IRQ, where bit 1 is written 1. Nothing is restored. -/
def State.acknowledge (s : State) (v : Word) : State := { s with status := s.status.writeOneToClear v }

/-- A command's outcome. -/
abbrev Result := Host.Outcome State Fault Refusal

/-- `require c else raise Fail(code)`: the rest of the command follows only if the check holds (R9, R116). -/
def require (c : Bool) (code : ErrCode) (s : State) (rest : Unit → Result) : Result :=
  if c then rest () else .next (s.fail code)

/-- What the block does with an illegal word (R96). -/
def completeIllegal (s : State) : Result := .next (s.fail .illegalCmd)

/-- Write samples to S from index `a` on, which sets their marks (R68). -/
def State.writeSamples (s : State) (a : Nat) (xs : List F32) : State := { s with sram := cellsPut s.sram a xs }

/-- Write bytes to B from index `a` on, which sets their marks (R68). -/
def State.writeBytes (s : State) (a : Nat) (bs : List Byte) : State := { s with bram := cellsPut s.bram a bs }

/-- The seven configuration registers and MODE as LOADMODE leaves them (R120). -/
def State.loadPreset (s : State) (m : Mode) : State :=
  { s with cfg := m.config, mode := { preset := m, modified := false } }

/-- A fault set with one more fault. -/
def addFault (fs : List ModelFault) (f : ModelFault) : List ModelFault := if f ∈ fs then fs else fs ++ [f]

/-- Record faults in the fault set (R246). -/
def State.recordFaults (s : State) (fs : List ModelFault) : State := { s with faults := fs.foldl addFault s.faults }

/-- The state after a command has read cells of which `fs` are the faults: with none nothing changes; else they are recorded and
the free values they stand for are used up (R68, log 3). -/
def State.afterRead (s : State) (fs : List ModelFault) : State :=
  if fs = [] then s else { s.recordFaults fs with draws := s.draws + 1 }

/-- The state after a command has read S[a .. a+n). -/
def State.afterSamples (s : State) (a n : Nat) : State := s.afterRead (s.unwrittenSamples a n)

/-- The state after a command has read B[a .. a+n). -/
def State.afterBytes (s : State) (a n : Nat) : State := s.afterRead (s.unwrittenBytes a n)

/-- The words of S a command could have written, as first index and count (R271). -/
def couldWriteSamples (s : State) : Instr → Nat × Nat
  | .genTone => (s.ops.dstAddr.toNat, s.ops.count.toNat)
  | .encodeBit _ => (s.ops.dstAddr.toNat, s.cfg.spb)
  | .encodeFrame => (s.ops.dstAddr.toNat, s.cfg.nsamples s.ops.byteLen.toNat)
  | .loadmode _ | .crc16 | .crcCheck | .duration | .goertzel | .decodeBit | .findPreamble | .decodeFrame => (0, 0)

/-- The bytes of B a command could have written (R271). -/
def couldWriteBytes (s : State) : Instr → Nat × Nat
  | .decodeFrame =>
    (s.ops.byteAddr.toNat, min (s.ops.byteAddr.toNat + 65535) s.params.byteRamBytes - s.ops.byteAddr.toNat)
  | .loadmode _ | .genTone | .encodeBit _ | .crc16 | .crcCheck | .encodeFrame | .duration | .goertzel | .decodeBit
  | .findPreamble => (0, 0)

/-- The RAMs without the cells an aborted command could have written: their contents are unspecified and their marks clear (R271,
log 16). A cell outside the RAM is never listed. -/
def State.abort (s : State) : State :=
  match s.status.busy, decode s.cmd with
  | true, .ok i =>
    let w := couldWriteSamples s i
    let b := couldWriteBytes s i
    { s with sram := cellsErase s.sram w.1 w.2, bram := cellsErase s.bram b.1 b.2 }
  | _, _ => s

/-- Every register at its power-on value (R270), and shown to the host so (DEDUCED, log 26); the RAMs, the fault set and the model's
own fields stay. -/
def State.resetRegisters (s : State) : State :=
  { s with status := Status.reset, irqEn := false, mode := ModeReg.reset, cfg := FskConfig.reset, cmd := 0,
           ops := OperandRegs.reset, results := Results.zero, before := none }

/-- The soft reset (R271). -/
def State.softReset (s : State) : State := s.abort.resetRegisters

/-- Whose turn it is: while BUSY = 1 the schedule's choice, and the block's once the schedule is used up, so that every accepted
command is performed after finitely many steps (R112, COMPLETION of R6, log 1). With no command in flight only the host moves. -/
def State.turn (s : State) : Agent :=
  if s.status.busy then s.sched.headD .block else .host

/-- The state with the choice of this step used up. -/
def State.takeTurn (s : State) : State :=
  if s.status.busy then { s with sched := s.sched.tail } else s

end Sys2Proof.Machine
end

