-- ==== Sys2Proof/Machine/Control.lean ====
section
/-! DEFINITION. LOADMODE (40_control.md R120, R121). -/

namespace Sys2Proof.Machine

/-- LOADMODE (R120). It does not check the old configuration. Mode 3 is no mode and completes with ILLEGAL_CMD (R94, R96), which
the decoder also answers before this is reached. -/
def execLoadMode (m : BitVec 2) (s : State) : Result :=
  match Mode.ofNumber m with
  | some mode => .next ((s.loadPreset mode).complete m.toNat 0 0 zero64)
  | none => completeIllegal s

end Sys2Proof.Machine
end

