-- ==== Sys2Proof/Machine/Crc.lean ====
section
/-! DEFINITION. The CRC-16 checker: CRC (42_crc.md R150, R153), CRC16 (R151) and CRC_CHECK (R152). -/

namespace Sys2Proof.Machine

/-- One bit of the CRC: shift left, and the polynomial 0x1021 where bit 15 was 1 (R150). -/
def crcShift (c : BitVec 16) : BitVec 16 := if c.getLsbD 15 then (c <<< 1) ^^^ 0x1021#16 else c <<< 1

/-- One byte of the CRC, most significant bit first (R150). -/
def crcByte (c : BitVec 16) (b : Byte) : BitVec 16 := Nat.repeat crcShift 8 (c ^^^ (b.setWidth 16 <<< 8))

/-- CRC(data) (R150): initial value 0xFFFF, no reflection, no final XOR. -/
def crc (data : List Byte) : BitVec 16 := data.foldl crcByte 0xFFFF#16

/-- CRC16 (R151). The configuration is not checked. -/
def execCrc16 (s : State) : Result :=
  let a := s.ops.byteAddr.toNat
  let n := s.ops.byteLen.toNat
  require (s.byteRangeOk a n) .byteRange s fun _ =>
  .next ((s.afterBytes a n).complete (crc (s.bytes a n)).toNat 0 0 zero64)

/-- CRC_CHECK (R152). ARG[31:16] is ignored. -/
def execCrcCheck (s : State) : Result :=
  let a := s.ops.byteAddr.toNat
  let n := s.ops.byteLen.toNat
  require (s.byteRangeOk a n) .byteRange s fun _ =>
  require (crc (s.bytes a n) == s.ops.arg.extractLsb' 0 16) .crcMismatch (s.afterBytes a n) fun _ =>
  .next ((s.afterBytes a n).complete (crc (s.bytes a n)).toNat 0 0 zero64)

end Sys2Proof.Machine
end

