-- ==== Sys2Proof/Machine/Tone.lean ====
section
/-! DEFINITION. The tone synthesizer: TONE and SCALE (41_tone.md R130, R131), GEN_TONE (R132) and ENCODE_BIT (R133). -/

namespace Sys2Proof.Machine

/-- The phase of sample i of a tone of f hertz at sample rate sr: 2π·f·i/sr, left to right, one rounding an operation (R130). -/
def tonePhase (sr f i : Nat) : F64 := div64 (mul64 (mul64 twoPi64 (natTo64 f)) (natTo64 i)) (natTo64 sr)

/-- TONE(f, i) (R130). -/
def tone (sr f i : Nat) : F32 :=
  rnd32 (quietNaN32 (Config.toneNaN f i sr)) (Config.toneSin (tonePhase sr f i))

/-- n samples of a tone from phase 0 (R130, R134). -/
def toneRun (sr f n : Nat) : List F32 := (List.range n).map (tone sr f)

/-- SCALE(x, v) (R131). Where x is no finite number, v = 0.0 gives a NaN, against the corner case of R172 that VOL = 0.0 writes only zeros
(DEDUCED, log 27, safe). -/
def scale (x v : F32) : F32 := mul32 (quietNaN32 (Config.scaleNaN x v)) x v

/-- GEN_TONE (R132). -/
def execGenTone (s : State) : Result :=
  let d := s.ops.dstAddr.toNat
  let n := s.ops.count.toNat
  require s.cfg.valid .cfgInvalid s fun _ =>
  require (s.sampleRangeOk d n) .sampleRange s fun _ =>
  .next ((s.writeSamples d (toneRun s.cfg.sampleRate.toNat s.ops.arg.toNat n)).complete n 0 0 zero64)

/-- ENCODE_BIT (R133). -/
def execEncodeBit (bit : Bool) (s : State) : Result :=
  let d := s.ops.dstAddr.toNat
  let n := s.cfg.spb
  require s.cfg.valid .cfgInvalid s fun _ =>
  require (s.sampleRangeOk d n) .sampleRange s fun _ =>
  .next ((s.writeSamples d (toneRun s.cfg.sampleRate.toNat (s.cfg.bitFreq bit) n)).complete n bit.toNat 0 zero64)

end Sys2Proof.Machine
end

