-- ==== Sys2Proof/Machine/Encoder.lean ====
section
/-! DEFINITION. The FSK frame encoder: FB (43_encoder.md R170), ENCODE_FRAME (R172) and DURATION (R173). -/

namespace Sys2Proof.Machine

/-- The low `w` bits of v, most significant first (R62). -/
def bitsMsbFirst (w v : Nat) : List Bool := (List.range w).map (fun k => v.testBit (w - 1 - k))

/-- The preamble 0,1,0,1,… (R170, C1). -/
def preamble (pre : Nat) : List Bool := (List.range pre).map (fun k => k % 2 == 1)

/-- The frame bits after the preamble: length, payload, CRC, postamble (R170). -/
def frameBody (post : Nat) (data : List Byte) : List Bool :=
  bitsMsbFirst 16 data.length ++ data.flatMap (fun b => bitsMsbFirst 8 b.toNat) ++
    bitsMsbFirst 16 (crc data).toNat ++ List.replicate post true

/-- FB(data) (R170). -/
def frameBits (pre post : Nat) (data : List Byte) : List Bool := preamble pre ++ frameBody post data

/-- One bit window of a frame: the tone of the bit from phase 0, scaled by the volume (R172, R134); at volume 0.0 all zeros where the
tone is finite (DEDUCED, log 27). -/
def bitWindow (c : FskConfig) (bit : Bool) : List F32 :=
  (toneRun c.sampleRate.toNat (c.bitFreq bit) c.spb).map (fun x => scale x c.volume)

/-- The samples of a frame (R172). -/
def frameSamples (c : FskConfig) (data : List Byte) : List F32 :=
  (frameBits c.preambleBits.toNat c.postambleBits.toNat data).flatMap (bitWindow c)

/-- ENCODE_FRAME (R172). -/
def execEncodeFrame (s : State) : Result :=
  let a := s.ops.byteAddr.toNat
  let len := s.ops.byteLen.toNat
  let d := s.ops.dstAddr.toNat
  require s.cfg.valid .cfgInvalid s fun _ =>
  require (len ≤ 65535) .lengthTooLarge s fun _ =>
  require (s.byteRangeOk a len) .byteRange s fun _ =>
  require (s.sampleRangeOk d (s.cfg.nsamples len)) .sampleRange s fun _ =>
  .next (((s.afterBytes a len).writeSamples d (frameSamples s.cfg (s.bytes a len))).complete
    (s.cfg.nsamples len) (s.cfg.nbits len) (crc (s.bytes a len)).toNat zero64)

/-- DURATION (R173). BYTE_ADDR is not read and no range is checked. -/
def execDuration (s : State) : Result :=
  let n := s.cfg.nbits s.ops.byteLen.toNat
  require s.cfg.valid .cfgInvalid s fun _ =>
  require (s.ops.byteLen.toNat ≤ 65535) .lengthTooLarge s fun _ =>
  .next (s.complete n 0 0 (div64 (natTo64 n) (natTo64 s.cfg.bitRate.toNat)))

end Sys2Proof.Machine
end

