-- ==== Sys2Proof/Machine/Goertzel.lean ====
section
/-! DEFINITION. The Goertzel magnitude detector: G (44_goertzel.md R190), DBIT (R192), GOERTZEL (R191) and DECODE_BIT (R193). -/

namespace Sys2Proof.Machine

/-- coeff = 2·cos(2π·f/sr) (R190), the bin not rounded. -/
def goertzelCoeff (sr f : Nat) : F64 :=
  mul64 two64 (Config.goertzelCos (div64 (mul64 twoPi64 (natTo64 f)) (natTo64 sr)))

/-- One sample of the recurrence on (s1, s2) (R190). -/
def goertzelStep (coeff : F64) (s : F64 × F64) (x : F32) : F64 × F64 :=
  (sub64 (add64 (f32To64 x) (mul64 coeff s.1)) s.2, s.1)

/-- The power term of the last two states (R190). -/
def goertzelPower (coeff s1 s2 : F64) : F64 :=
  sub64 (add64 (mul64 s1 s1) (mul64 s2 s2)) (mul64 (mul64 coeff s1) s2)

/-- The magnitude of a power: NaN64 for a NaN, +0.0 where it is not above 0.0, else its square root (R190). -/
def goertzelMagnitude (p : F64) : F64 :=
  if isNaN64 p then nan64 else if le64 p zero64 then zero64 else sqrt64 p

/-- G for a given coefficient (R190). -/
def goertzelWith (coeff : F64) (xs : List F32) : F64 :=
  let s := xs.foldl (goertzelStep coeff) (zero64, zero64)
  goertzelMagnitude (goertzelPower coeff s.1 s.2)

/-- G(xs, f) at sample rate sr (R190). -/
def goertzel (sr : Nat) (xs : List F32) (f : Nat) : F64 := goertzelWith (goertzelCoeff sr f) xs

/-- DBIT(xs) (R192): mark only where it is strictly greater. -/
def decideBit (c : FskConfig) (xs : List F32) : Bool :=
  gt64 (goertzel c.sampleRate.toNat xs c.markFreq.toNat) (goertzel c.sampleRate.toNat xs c.spaceFreq.toNat)

/-- GOERTZEL (R191). -/
def execGoertzel (s : State) : Result :=
  let a := s.ops.srcAddr.toNat
  let n := s.ops.srcLen.toNat
  require s.cfg.valid .cfgInvalid s fun _ =>
  require (s.sampleRangeOk a n) .sampleRange s fun _ =>
  .next ((s.afterSamples a n).complete n 0 0 (goertzel s.cfg.sampleRate.toNat (s.samples a n) s.ops.arg.toNat))

/-- DECODE_BIT (R193). -/
def execDecodeBit (s : State) : Result :=
  let a := s.ops.srcAddr.toNat
  let n := s.ops.srcLen.toNat
  require s.cfg.valid .cfgInvalid s fun _ =>
  require (s.sampleRangeOk a n) .sampleRange s fun _ =>
  .next ((s.afterSamples a n).complete (decideBit s.cfg (s.samples a n)).toNat n 0 zero64)

end Sys2Proof.Machine
end

