-- ==== Sys2Proof/Machine/Decoder.lean ====
section
/-! DEFINITION. The bit synchronizer and frame decoder: FIND (45_decoder.md R210, R211), BITS (R213), PARSE (R214), FIND_PREAMBLE
(R212) and DECODE_FRAME (R216). -/

namespace Sys2Proof.Machine

/-- The half step h (R210). -/
def FskConfig.halfStep (c : FskConfig) : Nat := max 1 (c.spb / 2)

/-- The bit decided on the window of spb samples from index p on (R211, R213). -/
def windowBit (c : FskConfig) (xs : List F32) (p : Nat) : Bool := decideBit c ((xs.drop p).take c.spb)

/-- The four bits of the correlator's window at p (R211). -/
def windowBits (c : FskConfig) (xs : List F32) (p : Nat) : List Bool :=
  (List.range 4).map (fun j => windowBit c xs (p + j * c.spb))

/-- A whole window at p lies in xs and shows an alternating pattern (R211). -/
def preambleAt (c : FskConfig) (xs : List F32) (p : Nat) : Bool :=
  p + 4 * c.spb ≤ xs.length &&
    (windowBits c xs p == [true, false, true, false] || windowBits c xs p == [false, true, false, true])

/-- FIND(xs) (R211): the first position 0, h, 2h, … that matches, with the index just past the preamble. The positions up to the
length of xs are all listed, and one whose window does not fit never matches (log 18). -/
def findPreamble (c : FskConfig) (xs : List F32) : Option (Nat × Nat) :=
  (((List.range (xs.length / c.halfStep + 1)).map (fun k => k * c.halfStep)).find? (preambleAt c xs)).map
    (fun m => (m, m + c.preambleBits.toNat * c.spb))

/-- BITS(xs, st) (R213): one bit a whole window from st on. -/
def bodyBits (c : FskConfig) (xs : List F32) (st : Nat) : List Bool :=
  (List.range ((xs.length - st) / c.spb)).map (fun k => windowBit c xs (st + k * c.spb))

/-- The number of a list of bits, most significant first (R214). -/
def bitsToNat (bits : List Bool) : Nat := bits.foldl (fun n b => 2 * n + b.toNat) 0

/-- The `w` bits from position p as a number (R214). -/
def fieldAt (bits : List Bool) (p w : Nat) : Nat := bitsToNat ((bits.drop p).take w)

/-- PARSE(bits) (R214): the payload, or the code of the first step that fails. -/
def parseFrame (post : Nat) (bits : List Bool) : Except ErrCode (List Byte) :=
  let len := fieldAt bits 0 16
  let payload := (List.range len).map (fun j => BitVec.ofNat 8 (fieldAt bits (16 + 8 * j) 8))
  if bits.length < 32 then .error .tooFewBits
  else if bits.length < 16 + 8 * len + 16 + post then .error .truncated
  else if (crc payload).toNat ≠ fieldAt bits (16 + 8 * len) 16 then .error .crcMismatch
  else .ok payload

/-- FIND_PREAMBLE (R212). RESULT0 is st mod 2^32. -/
def execFindPreamble (s : State) : Result :=
  let a := s.ops.srcAddr.toNat
  let n := s.ops.srcLen.toNat
  require s.cfg.valid .cfgInvalid s fun _ =>
  require (s.sampleRangeOk a n) .sampleRange s fun _ =>
  match findPreamble s.cfg (s.samples a n) with
  | none => .next ((s.afterSamples a n).fail .noPreamble)
  | some (m, st) => .next ((s.afterSamples a n).complete st m 0 zero64)

/-- Steps 2 to 7 of DECODE_FRAME on the samples xs, once the body is known to start at st, from the state s in which the samples
have been read (R216). RESULT2 is st mod 2^32. -/
def decodeBody (s : State) (xs : List F32) (st : Nat) : Result :=
  let bits := bodyBits s.cfg xs st
  match parseFrame s.cfg.postambleBits.toNat bits with
  | .error c => .next (s.fail c)
  | .ok payload =>
    require (s.byteRangeOk s.ops.byteAddr.toNat payload.length) .byteRange s fun _ =>
    .next ((s.writeBytes s.ops.byteAddr.toNat payload).complete payload.length bits.length st zero64)

/-- DECODE_FRAME (R216). -/
def execDecodeFrame (s : State) : Result :=
  let a := s.ops.srcAddr.toNat
  let n := s.ops.srcLen.toNat
  require s.cfg.valid .cfgInvalid s fun _ =>
  require (s.sampleRangeOk a n) .sampleRange s fun _ =>
  match findPreamble s.cfg (s.samples a n) with
  | none => .next ((s.afterSamples a n).fail .noPreamble)
  | some (_, st) => decodeBody (s.afterSamples a n) (s.samples a n) st

end Sys2Proof.Machine
end

