-- ==== Sys2Proof/Machine/Dispatch.lean ====
section
/-! DEFINITION. `perform` of 40_control.md R112: one arm per command, each one call of its meaning. -/

namespace Sys2Proof.Machine

def exec (i : Instr) (s : State) : Host.Outcome State Fault Refusal :=
  match i with
  | .loadmode m => Sys2Proof.Machine.execLoadMode m s
  | .genTone => Sys2Proof.Machine.execGenTone s
  | .encodeBit b => Sys2Proof.Machine.execEncodeBit b s
  | .crc16 => Sys2Proof.Machine.execCrc16 s
  | .crcCheck => Sys2Proof.Machine.execCrcCheck s
  | .encodeFrame => Sys2Proof.Machine.execEncodeFrame s
  | .duration => Sys2Proof.Machine.execDuration s
  | .goertzel => Sys2Proof.Machine.execGoertzel s
  | .decodeBit => Sys2Proof.Machine.execDecodeBit s
  | .findPreamble => Sys2Proof.Machine.execFindPreamble s
  | .decodeFrame => Sys2Proof.Machine.execDecodeFrame s

end Sys2Proof.Machine
end

