-- ==== Sys2Proof/Machine/HostBus.lean ====
section
/-! DEFINITION. The host's side: the register map (10_state.md R21), the address space (20_memory.md R60 to R68), bus reads and writes
with their side effects (R69), and one step of a host program (30_encoding.md R100). -/

namespace Sys2Proof.Machine

/-- The registers of the map (R21). -/
inductive HostReg where
  | id | ctrl | status | spb | mode
  | sampleRate | bitRate | markFreq | spaceFreq | volume | preambleBits | postambleBits
  | cmd | arg | srcAddr | srcLen | dstAddr | count | byteAddr | byteLen
  | result0 | result1 | result2 | fresultLo | fresultHi
deriving DecidableEq, Repr

/-- The offset of a register (R21). -/
def HostReg.offset : HostReg → Nat
  | .id => 0x000
  | .ctrl => 0x004
  | .status => 0x008
  | .spb => 0x00C
  | .mode => 0x010
  | .sampleRate => 0x020
  | .bitRate => 0x024
  | .markFreq => 0x028
  | .spaceFreq => 0x02C
  | .volume => 0x030
  | .preambleBits => 0x034
  | .postambleBits => 0x038
  | .cmd => 0x040
  | .arg => 0x044
  | .srcAddr => 0x048
  | .srcLen => 0x04C
  | .dstAddr => 0x050
  | .count => 0x054
  | .byteAddr => 0x058
  | .byteLen => 0x05C
  | .result0 => 0x060
  | .result1 => 0x064
  | .result2 => 0x068
  | .fresultLo => 0x070
  | .fresultHi => 0x074

/-- The registers in the order of the map. -/
def HostReg.all : List HostReg :=
  [.id, .ctrl, .status, .spb, .mode,
   .sampleRate, .bitRate, .markFreq, .spaceFreq, .volume, .preambleBits, .postambleBits,
   .cmd, .arg, .srcAddr, .srcLen, .dstAddr, .count, .byteAddr, .byteLen,
   .result0, .result1, .result2, .fresultLo, .fresultHi]

/-- The register at an offset of the register block, if the map lists one. -/
def HostReg.atOffset (off : Nat) : Option HostReg := HostReg.all.find? (fun r => r.offset == off)

/-- ID reads the ASCII codes of FSK1 (R22). -/
def idValue : Word := 0x46534B31

/-- The current value of a register (R40), assembled from its fields with reserved bits 0. -/
def State.readReg (s : State) : HostReg → Word
  | .id => idValue
  | .ctrl => ctrlWord s.irqEn
  | .status => s.status.word
  | .spb => BitVec.ofNat 32 s.cfg.spb
  | .mode => s.mode.word
  | .sampleRate => s.cfg.sampleRate
  | .bitRate => s.cfg.bitRate
  | .markFreq => s.cfg.markFreq
  | .spaceFreq => s.cfg.spaceFreq
  | .volume => s.cfg.volume
  | .preambleBits => 0#16 ++ s.cfg.preambleBits
  | .postambleBits => 0#16 ++ s.cfg.postambleBits
  | .cmd => s.cmd
  | .arg => s.ops.arg
  | .srcAddr => s.ops.srcAddr
  | .srcLen => s.ops.srcLen
  | .dstAddr => s.ops.dstAddr
  | .count => s.ops.count
  | .byteAddr => s.ops.byteAddr
  | .byteLen => s.ops.byteLen
  | .result0 => s.results.result0
  | .result1 => s.results.result1
  | .result2 => s.results.result2
  | .fresultLo => s.results.fresultLo
  | .fresultHi => s.results.fresultHi

/-- The registers as the host is shown them: with the configuration and MODE of before the command until a STATUS read shows it
completed (20_memory.md R72), with their current values otherwise (R40). -/
def State.shown (s : State) : State :=
  match s.before with
  | some b => { s with cfg := b.cfg, mode := b.mode }
  | none => s

/-- The result registers and the RAM windows are draws: while BUSY = 1 (R40, R67), and until a STATUS read shows the command completed
(20_memory.md R72, 70_reset_and_hazards.md R280). -/
def State.veiled (s : State) : Bool := s.status.busy || s.before.isSome

/-- A host read of STATUS: one that returns BUSY = 0 or DONE = 1 shows every effect of the command to the accesses after it
(20_memory.md R72). Nothing of the block changes (R69). -/
def State.statusRead (s : State) : State :=
  if !s.status.busy || s.status.done then { s with before := none } else s

/-- The registers whose value is unspecified while the results are veiled (R40, R72). -/
def HostReg.isResult : HostReg → Bool
  | .result0 | .result1 | .result2 | .fresultLo | .fresultHi => true
  | .id | .ctrl | .status | .spb | .mode | .sampleRate | .bitRate | .markFreq | .spaceFreq | .volume
  | .preambleBits | .postambleBits | .cmd | .arg | .srcAddr | .srcLen | .dstAddr | .count | .byteAddr
  | .byteLen => false

/-- What the host is shown after its own write to a configuration register: that write too (70_reset_and_hazards.md R280 f, log 26). -/
def Before.write (b : Before) (f : FskConfig → FskConfig) : Before :=
  { cfg := f b.cfg, mode := { b.mode with modified := true } }

/-- An accepted write to a configuration register, which sets MODE.MODIFIED (R26). -/
def State.writeCfg (s : State) (f : FskConfig → FskConfig) : State :=
  { s with cfg := f s.cfg, mode := { s.mode with modified := true }, before := s.before.map (·.write f) }

/-- A write to CTRL (R24): with SRST the soft reset, and the IRQ_EN bit of the same write is discarded. -/
def State.writeCtrl (s : State) (v : Word) : State :=
  if v.getLsbD 0 then s.softReset else { s with irqEn := v.getLsbD 1 }

/-- A write to a register while BUSY = 0. Read-only registers take no write and set no REJ (R39). -/
def State.writeRegIdle (s : State) (v : Word) : HostReg → State
  | .ctrl => s.writeCtrl v
  | .status => s.acknowledge v
  | .cmd => s.accept v
  | .sampleRate => s.writeCfg (fun c => { c with sampleRate := v })
  | .bitRate => s.writeCfg (fun c => { c with bitRate := v })
  | .markFreq => s.writeCfg (fun c => { c with markFreq := v })
  | .spaceFreq => s.writeCfg (fun c => { c with spaceFreq := v })
  | .volume => s.writeCfg (fun c => { c with volume := v })
  | .preambleBits => s.writeCfg (fun c => { c with preambleBits := v.extractLsb' 0 16 })
  | .postambleBits => s.writeCfg (fun c => { c with postambleBits := v.extractLsb' 0 16 })
  | .arg => { s with ops := { s.ops with arg := v } }
  | .srcAddr => { s with ops := { s.ops with srcAddr := v } }
  | .srcLen => { s with ops := { s.ops with srcLen := v } }
  | .dstAddr => { s with ops := { s.ops with dstAddr := v } }
  | .count => { s with ops := { s.ops with count := v } }
  | .byteAddr => { s with ops := { s.ops with byteAddr := v } }
  | .byteLen => { s with ops := { s.ops with byteLen := v } }
  | .id | .spb | .mode | .result0 | .result1 | .result2 | .fresultLo | .fresultHi => s

/-- A dropped write (R39). -/
def State.reject (s : State) : State := { s with status := s.status.reject }

/-- A write to a register: while BUSY = 1 only CTRL and STATUS are taken, every other is dropped and sets REJ (R39, R113). -/
def State.writeReg (s : State) (r : HostReg) (v : Word) : State :=
  if s.status.busy && r != .ctrl && r != .status then s.reject else s.writeRegIdle v r

/-- What an access reaches (R60). -/
inductive Target where
  | reg (r : HostReg)
  /-- the word of B[k] to B[k+3] -/
  | byteWord (k : Nat)
  /-- the word S[i] -/
  | sampleWord (i : Nat)
  /-- an unmapped offset, a wrong width or a wrong alignment -/
  | busError
deriving DecidableEq, Repr

/-- Where the byte RAM window begins (R60). -/
def byteWindow : Nat := 0x00010000

/-- Where the sample RAM window begins (R60). -/
def sampleWindow : Nat := 0x00100000

/-- What an aligned 32-bit access at an offset reaches (R60, R64, R66). -/
def alignedTarget (p : Params) (off : Nat) : Target :=
  if off < 0x100 then
    match HostReg.atOffset off with
    | some r => .reg r
    | none => .busError
  else if byteWindow ≤ off ∧ off < byteWindow + p.byteRamBytes then .byteWord (off - byteWindow)
  else if sampleWindow ≤ off ∧ off < sampleWindow + 4 * p.sampleRamWords then .sampleWord ((off - sampleWindow) / 4)
  else .busError

/-- What an access of `width` bytes at an offset reaches: only aligned 32-bit accesses reach anything (R63). -/
def busTarget (p : Params) (width : Nat) (offset : Word) : Target :=
  if width = 4 ∧ offset.toNat % 4 = 0 then alignedTarget p offset.toNat else .busError

/-- The four bytes of a bus word, the least significant first (R64). -/
def unpackBytes (v : Word) : List Byte :=
  [v.extractLsb' 0 8, v.extractLsb' 8 8, v.extractLsb' 16 8, v.extractLsb' 24 8]

/-- The bus word of four bytes, the first in bits 7:0 (R64). -/
def packBytes (b0 b1 b2 b3 : Byte) : Word := b3 ++ b2 ++ b1 ++ b0

/-- The word of B[k] to B[k+3], if all four are written (R64, R68). -/
def State.byteWordAt (s : State) (k : Nat) : Option Word :=
  match cellGet? s.bram k, cellGet? s.bram (k + 1), cellGet? s.bram (k + 2), cellGet? s.bram (k + 3) with
  | some b0, some b1, some b2, some b3 => some (packBytes b0 b1 b2 b3)
  | _, _, _, _ => none

/-- A bus write (R63 to R69): a bus error is recorded and changes nothing else (R65), REJ included (log 19); while BUSY = 1 a write to
a RAM window is dropped (R67); otherwise all four bytes, or the sample word, are set at once. -/
def State.busWrite (s : State) (width : Nat) (offset v : Word) : State :=
  match busTarget s.params width offset with
  | .busError => s.recordFaults [.busError offset.toNat]
  | .reg r => s.writeReg r v
  | .byteWord k => if s.status.busy then s.reject else s.writeBytes k (unpackBytes v)
  | .sampleWord i => if s.status.busy then s.reject else s.writeSamples i [v]

/-- A free draw of a word (R40, R67, log 2). -/
def State.freeDraw (s : State) : State × Option Word := ({ s with draws := s.draws + 1 }, some (Config.freeWord s.draws))

/-- A bus read: the state after it and the value, none where the read has no value (R65, R68). Reads have no side effect on the
block (R69): what moves is the model's, the fault set, the draw counter and what the host has been shown. From the CMD write to the STATUS
read that shows the command completed, whether or not the block has performed it, the host reads the configuration and MODE of
before the command, and results and RAMs are draws (R40, R67, R72), which record no UNINIT_READ, unwritten cells included
(DEDUCED, log 25, unsafe). -/
def State.busRead (s : State) (width : Nat) (offset : Word) : State × Option Word :=
  match busTarget s.params width offset with
  | .busError => (s.recordFaults [.busError offset.toNat], none)
  | .reg r =>
    if s.veiled && r.isResult then s.freeDraw
    else (if r = .status then s.statusRead else s, some (s.shown.readReg r))
  | .byteWord k => if s.veiled then s.freeDraw else (s.recordFaults (s.unwrittenBytes k 4), s.byteWordAt k)
  | .sampleWord i => if s.veiled then s.freeDraw else (s.recordFaults (s.unwrittenSamples i 1), cellGet? s.sram i)

/-- The host-bus byte address of an offset (R6, R60). -/
def busAddress (p : Params) (offset : Word) : Nat := p.base + offset.toNat

/-- The offset a host-bus byte address stands for, if it is one of the block's 2^32 (R60). -/
def offsetAt (p : Params) (address : Nat) : Option Word :=
  if p.base ≤ address ∧ address < p.base + 2 ^ 32 then some (BitVec.ofNat 32 (address - p.base)) else none

/-- A host write at a bus address: the block's bus write at the offset from BASE, and nothing to the block elsewhere (R60). -/
def State.hostWrite (s : State) (width address : Nat) (v : Word) : State :=
  match offsetAt s.params address with
  | some offset => s.busWrite width offset v
  | none => s

/-- A host read at a bus address, likewise; the block answers no value elsewhere (R60). -/
def State.hostRead (s : State) (width address : Nat) : State × Option Word :=
  match offsetAt s.params address with
  | some offset => s.busRead width offset
  | none => (s, none)

/-- A host variable takes the value of a read, or holds none after a read without a value (log 6). -/
def State.setVar (s : State) (var : Nat) : Option Word → State
  | some v => { s with host := { s.host with vars := cellsPut s.host.vars var [v] } }
  | none => { s with host := { s.host with vars := cellsErase s.host.vars var 1 } }

/-- The host goes to a line of its program. -/
def State.goto (s : State) (line : Nat) : State := { s with host := { s.host with pos := line } }

/-- The host executes HALT (R102). -/
def State.halt (s : State) : State := { s with host := { s.host with halted := true } }

/-- One step of the host program (R100). A line names an offset, and its access is made at that offset from BASE (R9). -/
def runHostStep (s : State) : HostStep → Result
  | .wr width offset v => .next ((s.hostWrite width (busAddress s.params offset) v).goto (s.host.pos + 1))
  | .rd width offset var =>
    let r := s.hostRead width (busAddress s.params offset)
    .next ((r.1.setVar var r.2).goto (s.host.pos + 1))
  | .bnz var mask line =>
    match cellGet? s.host.vars var with
    | some t => .next (s.goto (if t &&& mask = 0#32 then s.host.pos + 1 else line))
    | none => .fault (.hostNoValue var)
  | .halt => .next s.halt

/-- The host's turn: its next line, or nothing once it has halted or its program is at an end; the block keeps all its state (R260,
log 13). -/
def hostTurn (s : State) : Result :=
  if s.host.halted then .next s
  else match s.host.program[s.host.pos]? with
    | some h => runHostStep s h
    | none => .next s

end Sys2Proof.Machine
end

