-- ==== Sys2Proof/Machine/Step.lean ====
section
/-! DEFINITION. One step of the machine (00_scope.md R14, 40_control.md R112): the agent whose turn it is takes one transition. -/

namespace Sys2Proof.Machine

/-- The block's transition: it decodes the word in flight and performs the command (R112), an illegal word included (R96). -/
def blockTurn (s : State) : Host.Outcome State Fault Refusal :=
  match decode s.cmd with
  | .ok i => exec i s
  | .error _ => completeIllegal s

/-- One step: the agent whose turn it is moves, from the state with this step's choice used up. -/
def step (s : State) : Host.Outcome State Fault Refusal :=
  match s.turn with
  | .block => blockTurn s.takeTurn
  | .host => hostTurn s.takeTurn

/-- `s` with a command word accepted and the block's turn next, so that the very next step performs exactly it (log 12). -/
def State.withFetchWord (s : State) (nbits w : Nat) : State :=
  { s.accept (BitVec.ofNat 32 (w % 2 ^ nbits)) with sched := .block :: s.sched }

end Sys2Proof.Machine
end

