-- ==== Sys2Proof/Safety.lean ====
section
/-! DEFINITION. What counts as a good run, the invariant of the machine that every step keeps, and what it means for a RAM to hold a
list of values, in the terms claims use. -/

namespace Sys2Proof.Machine

/-- No model fault is recorded: a state with one is never a good final state (60_exceptions.md R246). -/
def State.faultFree (s : State) : Prop := s.faults = []

/-- The run of a host program, at most `k` steps of it: the state right after the step that executes HALT, which is the end of the run
and so its end state (30_encoding.md R102); none where HALT is not executed in those steps. The machine may go on after it. -/
def runToHalt : Nat → State → Option State
  | 0, _ => none
  | k + 1, s =>
    match step s with
    | .next t => if !s.host.halted && t.host.halted then some t else runToHalt k t
    | .fault _ => none
    | .refused _ => none

/-- `t` is the end state of the run from `s`, one that a claim about results may rest on: at the HALT step no command is in flight
(30_encoding.md R102) and no fault is recorded (R246). -/
def State.goodFinal (s t : State) : Prop := (∃ k, runToHalt k s = some t) ∧ t.status.busy = false ∧ t.faultFree

/-- STATUS as the lifecycle leaves it (10_state.md R23, 40_control.md R111, R114): while BUSY no report stands, OK stands with no
error code, and an error code stands with OK = 0. -/
def Status.coherent (st : Status) : Prop :=
  (st.busy = true → st.done = false ∧ st.ok = false ∧ st.errcode = .none) ∧ (st.ok = true → st.errcode = .none)

/-- The reports agree with the last command (10_state.md R23, R34, R37; 60_exceptions.md R242): with no command in flight LASTOP
is the opcode byte of CMD, and if the last command did not succeed the result registers are 0. -/
def State.reportsLast (s : State) : Prop :=
  s.status.busy = false → s.status.lastop = opField s.cmd ∧ (s.status.ok = false → s.results = Results.zero)

/-- Unless MODE.MODIFIED says otherwise, the configuration is the preset MODE.PRESET names (10_state.md R26). -/
def State.presetHolds (s : State) : Prop := s.mode.modified = false → s.cfg = s.mode.preset.config

/-- What the host is shown in place of the configuration and MODE (20_memory.md R72): with a command in flight they are as they were at
its acceptance (10_state.md R41), and they agree as `presetHolds` says. -/
def State.beforeHolds (s : State) : Prop :=
  (s.status.busy = true → s.before = some { cfg := s.cfg, mode := s.mode }) ∧
    ∀ b, s.before = some b → b.mode.modified = false → b.cfg = b.mode.preset.config

/-- Both RAMs are in canonical form and list only cells that exist (20_memory.md R61, R68). -/
def State.ramsWf (s : State) : Prop :=
  Memory.wf s.params.sampleRamWords s.sram = true ∧ Memory.wf s.params.byteRamBytes s.bram = true

/-- The invariant of the machine. -/
structure State.Inv (s : State) : Prop where
  params  : s.params.wf
  rams    : s.ramsWf
  status  : s.status.coherent
  reports : s.reportsLast
  preset  : s.presetHolds
  before  : s.beforeHolds
  faults  : s.faults.Nodup

/-- The sample RAM holds the list xs from index a on, each word written (20_memory.md R61, R68). -/
def State.holdsSamples (s : State) (a : Nat) (xs : List F32) : Prop :=
  ∀ (j : Nat) (h : j < xs.length), cellGet? s.sram (a + j) = some xs[j]

/-- The byte RAM holds the list bs from index a on, each byte written (20_memory.md R61, R68). -/
def State.holdsBytes (s : State) (a : Nat) (bs : List Byte) : Prop :=
  ∀ (j : Nat) (h : j < bs.length), cellGet? s.bram (a + j) = some bs[j]

/-- `t` reports success of the command performed in `s`, with these results (40_control.md R114). -/
def State.reportsSuccess (s t : State) (r0 r1 r2 : Word) (f : F64) : Prop :=
  t.status = { busy := false, done := true, ok := true, rej := s.status.rej, errcode := .none, lastop := opField s.cmd } ∧
    t.results.result0 = r0 ∧ t.results.result1 = r1 ∧ t.results.result2 = r2 ∧
    t.results.fresultHi ++ t.results.fresultLo = f

/-- `t` reports failure of the command performed in `s` with a code, all five result registers 0 (60_exceptions.md R242). -/
def State.reportsFailure (s t : State) (c : ErrCode) : Prop :=
  t.status = { busy := false, done := true, ok := false, rej := s.status.rej, errcode := c, lastop := opField s.cmd } ∧
    t.results = { result0 := 0, result1 := 0, result2 := 0, fresultLo := 0, fresultHi := 0 }

/-- Nothing but STATUS and the result registers differs. -/
def State.onlyReport (s t : State) : Prop := t = { s with status := t.status, results := t.results }

/-- Nothing but STATUS, the result registers and the words S[d .. d+n) differs. -/
def State.onlyReportAndSamples (s t : State) (d n : Nat) : Prop :=
  t = { s with status := t.status, results := t.results, sram := t.sram } ∧
    ∀ x, x < d ∨ d + n ≤ x → cellGet? t.sram x = cellGet? s.sram x

/-- Nothing but STATUS, the result registers and the bytes B[d .. d+n) differs. -/
def State.onlyReportAndBytes (s t : State) (d n : Nat) : Prop :=
  t = { s with status := t.status, results := t.results, bram := t.bram } ∧
    ∀ x, x < d ∨ d + n ≤ x → cellGet? t.bram x = cellGet? s.bram x

/-- A command that checks the configuration first (30_encoding.md R93). -/
def checksConfig : Instr → Bool
  | .loadmode _ | .crc16 | .crcCheck => false
  | .genTone | .encodeBit _ | .encodeFrame | .duration | .goertzel | .decodeBit | .findPreamble | .decodeFrame => true

/-- The codes a command can complete with when it fails (60_exceptions.md R241). -/
def commandCodes : Instr → List ErrCode
  | .loadmode _ => [.illegalCmd]
  | .genTone | .encodeBit _ | .goertzel | .decodeBit => [.illegalCmd, .cfgInvalid, .sampleRange]
  | .crc16 => [.illegalCmd, .byteRange]
  | .crcCheck => [.illegalCmd, .byteRange, .crcMismatch]
  | .encodeFrame => [.illegalCmd, .cfgInvalid, .lengthTooLarge, .byteRange, .sampleRange]
  | .duration => [.illegalCmd, .cfgInvalid, .lengthTooLarge]
  | .findPreamble => [.illegalCmd, .cfgInvalid, .sampleRange, .noPreamble]
  | .decodeFrame =>
    [.illegalCmd, .cfgInvalid, .sampleRange, .noPreamble, .tooFewBits, .truncated, .crcMismatch, .byteRange]

/-- Two operand files agree on the operands a command reads (30_encoding.md R93). -/
def sameOperands (o o' : OperandRegs) : Instr → Prop
  | .loadmode _ => True
  | .genTone => o.arg = o'.arg ∧ o.dstAddr = o'.dstAddr ∧ o.count = o'.count
  | .encodeBit _ => o.dstAddr = o'.dstAddr
  | .crc16 => o.byteAddr = o'.byteAddr ∧ o.byteLen = o'.byteLen
  | .crcCheck =>
    o.byteAddr = o'.byteAddr ∧ o.byteLen = o'.byteLen ∧ o.arg.extractLsb' 0 16 = o'.arg.extractLsb' 0 16
  | .encodeFrame => o.dstAddr = o'.dstAddr ∧ o.byteAddr = o'.byteAddr ∧ o.byteLen = o'.byteLen
  | .duration => o.byteLen = o'.byteLen
  | .goertzel => o.arg = o'.arg ∧ o.srcAddr = o'.srcAddr ∧ o.srcLen = o'.srcLen
  | .decodeBit | .findPreamble => o.srcAddr = o'.srcAddr ∧ o.srcLen = o'.srcLen
  | .decodeFrame => o.srcAddr = o'.srcAddr ∧ o.srcLen = o'.srcLen ∧ o.byteAddr = o'.byteAddr

/-- A command that writes the sample RAM (20_memory.md R71). -/
def writesSamples : Instr → Bool
  | .genTone | .encodeBit _ | .encodeFrame => true
  | .loadmode _ | .crc16 | .crcCheck | .duration | .goertzel | .decodeBit | .findPreamble | .decodeFrame => false

/-- A command that writes the byte RAM (20_memory.md R71). -/
def writesBytes : Instr → Bool
  | .decodeFrame => true
  | .loadmode _ | .genTone | .encodeBit _ | .crc16 | .crcCheck | .encodeFrame | .duration | .goertzel | .decodeBit
  | .findPreamble => false

/-- A command that reads the sample RAM (20_memory.md R71). -/
def readsSamples : Instr → Bool
  | .goertzel | .decodeBit | .findPreamble | .decodeFrame => true
  | .loadmode _ | .genTone | .encodeBit _ | .crc16 | .crcCheck | .encodeFrame | .duration => false

/-- A command that reads the byte RAM (20_memory.md R71). -/
def readsBytes : Instr → Bool
  | .crc16 | .crcCheck | .encodeFrame => true
  | .loadmode _ | .genTone | .encodeBit _ | .duration | .goertzel | .decodeBit | .findPreamble | .decodeFrame => false

/-- The whole window at p lies in xs and its four bits alternate (45_decoder.md R211). -/
def matchesAt (c : FskConfig) (xs : List F32) (p : Nat) : Prop :=
  p + 4 * c.spb ≤ xs.length ∧
    ∃ b : Bool, windowBit c xs p = b ∧ windowBit c xs (p + c.spb) = !b ∧ windowBit c xs (p + 2 * c.spb) = b ∧
      windowBit c xs (p + 3 * c.spb) = !b

/-- The number the bits p to p+w-1 of a list spell, most significant first: the sums of 45_decoder.md R214. -/
def msbValue (bits : List Bool) (p w : Nat) : Nat :=
  ((List.range w).map (fun k => (bits.getD (p + k) false).toNat * 2 ^ (w - 1 - k))).sum

/-- The offsets the register map lists (10_state.md R21). -/
def mappedRegisters : List Nat :=
  [0x000, 0x004, 0x008, 0x00C, 0x010, 0x020, 0x024, 0x028, 0x02C, 0x030, 0x034, 0x038] ++
  [0x040, 0x044, 0x048, 0x04C, 0x050, 0x054, 0x058, 0x05C, 0x060, 0x064, 0x068, 0x070, 0x074]

/-- An access the block answers: aligned, 32 bits wide, at an offset of one of the three regions (20_memory.md R60, R63). -/
def mappedAccess (p : Params) (width : Nat) (offset : Word) : Prop :=
  width = 4 ∧ offset.toNat % 4 = 0 ∧
    (offset.toNat ∈ mappedRegisters ∨
      (0x00010000 ≤ offset.toNat ∧ offset.toNat < 0x00010000 + p.byteRamBytes) ∨
      (0x00100000 ≤ offset.toNat ∧ offset.toNat < 0x00100000 + 4 * p.sampleRamWords))

end Sys2Proof.Machine
end

