-- ==== Sys2Proof/Certificates/Slice0/Obligations.lean ====
section
/-! DEFINITION. The statements about the model for the provers. Each follows the rules of spec/ its docstring names. -/

open Sys2Proof Sys2Proof.Machine

/-- 30_encoding.md R92, R100: the words the spec writes out decode to the commands they stand for. -/
def Obligations.SpecWordsDecode : Prop :=
  decode 0x00000001 = .ok (.loadmode 0) ∧ decode 0x00000101 = .ok (.loadmode 1) ∧
  decode 0x00000201 = .ok (.loadmode 2) ∧ decode 0x00000002 = .ok .genTone ∧
  decode 0x00000003 = .ok (.encodeBit false) ∧ decode 0x00000103 = .ok (.encodeBit true) ∧
  decode 0x00000004 = .ok .crc16 ∧ decode 0x00000005 = .ok .crcCheck ∧ decode 0x00000006 = .ok .encodeFrame ∧
  decode 0x00000007 = .ok .duration ∧ decode 0x00000008 = .ok .goertzel ∧ decode 0x00000009 = .ok .decodeBit ∧
  decode 0x0000000A = .ok .findPreamble ∧ decode 0x0000000B = .ok .decodeFrame

/-- 30_encoding.md R91, R92, R94: decoding the word of a well-formed command gives the command back; and a legal word is the word of the
command it decodes to, and of no other, and that command is well formed. -/
def Obligations.DecodeAndEncodeAreInverse : Prop :=
  (∀ i : Instr, WellFormed i = true → decode (encode i) = .ok i) ∧
  (∀ (w : Word) (i : Instr), decode w = .ok i → encode i = w ∧ WellFormed i = true)

/-- 30_encoding.md R94, R96: the illegal words are exactly those of R96's list. -/
def Obligations.IllegalWordsAreTheListedOnes : Prop :=
  ∀ w : Word, (∃ e, decode w = .error e) ↔
    (w.toNat % 256 = 0 ∨ 0x0C ≤ w.toNat % 256 ∨ w.toNat / 1024 ≠ 0 ∨
      (w.toNat % 256 = 0x01 ∧ w.toNat / 256 % 4 = 3) ∨ (w.toNat % 256 = 0x03 ∧ w.toNat / 512 % 2 = 1) ∨
      (w.toNat % 256 ≠ 0x01 ∧ w.toNat % 256 ≠ 0x03 ∧ w.toNat / 256 % 4 ≠ 0))

/-- 30_encoding.md R96 with R94's list above: an illegal word is accepted while BUSY = 0 as any word is, and then completes with
ILLEGAL_CMD, changing nothing but STATUS and the result registers (and the schedule, which is the model's own, log 1). -/
def Obligations.IllegalWordIsAcceptedAndFails : Prop :=
  ∀ (s : State) (w : Word) (sched : List Agent), s.status.busy = false → (∃ e, decode w = .error e) →
    sched.head? ≠ some .host →
    (s.busWrite 4 0x040 w).cmd = w ∧ (s.busWrite 4 0x040 w).status.busy = true ∧
    ∃ t, step { s.busWrite 4 0x040 w with sched := sched } = .next t ∧
      (s.busWrite 4 0x040 w).reportsFailure t .illegalCmd ∧
      State.onlyReport { s.busWrite 4 0x040 w with sched := sched.tail } t

/-- 40_control.md R112 with the schedule of log 1: when a command is in flight and the schedule lets the block move, a step is `exec` of
the decoded word, from the state with that choice used up. -/
def Obligations.StepPerformsDecodedCommand : Prop :=
  ∀ (s : State) (i : Instr), s.status.busy = true → s.sched.head? ≠ some .host → decode s.cmd = .ok i →
    step s = exec i { s with sched := s.sched.tail }

/-- 40_control.md R111: what acceptance writes, for every word, and what it leaves. (What the host is shown from then on is R72's:
CommandAndHostSeeTheStateBefore.) -/
def Obligations.AcceptanceOfACommand : Prop :=
  ∀ (s : State) (w : Word), s.status.busy = false →
    s.busWrite 4 0x040 w =
      { s with cmd := w, before := (s.busWrite 4 0x040 w).before, status :=
        { busy := true, done := false, ok := false, rej := s.status.rej, errcode := .none, lastop := s.status.lastop } } ∧
    (s.busWrite 4 0x040 w).irq = false

/-- 40_control.md R113 for CMD, 10_state.md R39 for every other mapped offset but CTRL and STATUS: while BUSY = 1 a write is dropped and
sets REJ (a write that gets a bus error sets no REJ, log 19, which UnmappedAccessIsABusError states); while BUSY = 0 a write to a
read-only register has no effect and does not set REJ. -/
def Obligations.WritesWhileBusyAreDropped : Prop :=
  (∀ (s : State) (off v : Word), s.status.busy = true → mappedAccess s.params 4 off → off ≠ 0x004 → off ≠ 0x008 →
    s.busWrite 4 off v = { s with status := { s.status with rej := true } }) ∧
  (∀ (s : State) (off v : Word), s.status.busy = false →
    off.toNat ∈ [0x000, 0x00C, 0x010, 0x060, 0x064, 0x068, 0x070, 0x074] → s.busWrite 4 off v = s)

/-- 10_state.md R38, R41; 20_memory.md R72; 70_reset_and_hazards.md R280(a): the command and the host each see the state before. While a
command is in flight no step of the host changes what the command will read, or ends the command, but a soft reset. From the CMD write to
the STATUS read that returns BUSY = 0 or DONE = 1, whether or not the block has performed the command, the host reads the configuration,
SPB and MODE of before it, and a read of a result register or of a RAM window is a free draw; no step ends that time but such a STATUS
read or a soft reset, and the block's performance of the command does not change what the host is shown. (What the host's own accepted
writes and a further CMD write do to it, and the soft reset, is the model's reading: log 26; the draws record no fault: log 25; whose turn
it is: log 1.) -/
def Obligations.CommandAndHostSeeTheStateBefore : Prop :=
  (∀ s t : State, s.status.busy = true → s.sched.head? = some .host → step s = .next t →
    (t.status.busy = true ∧ t.cmd = s.cmd ∧ t.cfg = s.cfg ∧ t.mode = s.mode ∧ t.ops = s.ops ∧ t.results = s.results ∧
      (∀ x, cellGet? t.sram x = cellGet? s.sram x) ∧ (∀ x, cellGet? t.bram x = cellGet? s.bram x)) ∨
    (∃ v : Word, s.host.program[s.host.pos]? = some (.wr 4 0x004 v) ∧ v.getLsbD 0 = true ∧ t.status.busy = false)) ∧
  (∀ (s : State) (w : Word), s.status.busy = false →
    (s.busWrite 4 0x040 w).before = some { cfg := s.cfg, mode := s.mode }) ∧
  (∀ (s : State) (b : Before), s.before = some b →
    (∀ p ∈ [(0x00C#32, BitVec.ofNat 32 (if 1 ≤ b.cfg.bitRate.toNat then b.cfg.sampleRate.toNat / b.cfg.bitRate.toNat else 0)),
        (0x010, b.mode.word), (0x020, b.cfg.sampleRate), (0x024, b.cfg.bitRate), (0x028, b.cfg.markFreq),
        (0x02C, b.cfg.spaceFreq), (0x030, b.cfg.volume), (0x034, b.cfg.preambleBits.setWidth 32),
        (0x038, b.cfg.postambleBits.setWidth 32)],
      s.busRead 4 p.1 = (s, some p.2)) ∧
    (∀ off : Word, off.toNat % 4 = 0 → (off.toNat ∈ [0x060, 0x064, 0x068, 0x070, 0x074] ∨
        (0x00010000 ≤ off.toNat ∧ off.toNat < 0x00010000 + s.params.byteRamBytes) ∨
        (0x00100000 ≤ off.toNat ∧ off.toNat < 0x00100000 + 4 * s.params.sampleRamWords)) →
      s.busRead 4 off = ({ s with draws := s.draws + 1 }, some (Config.freeWord s.draws)))) ∧
  (∀ (s t : State) (b : Before), s.before = some b → step s = .next t →
    t.before = some b ∨
    (t.before = none ∧
      ((∃ x, s.host.program[s.host.pos]? = some (.rd 4 0x008 x) ∧ (s.status.busy = false ∨ s.status.done = true)) ∨
        (∃ v : Word, s.host.program[s.host.pos]? = some (.wr 4 0x004 v) ∧ v.getLsbD 0 = true))) ∨
    (s.status.busy = false ∧ ∃ (off v : Word), s.host.program[s.host.pos]? = some (.wr 4 off v) ∧
      ((off = 0x040 ∧ t.before = some { cfg := s.cfg, mode := s.mode }) ∨
        (off.toNat ∈ [0x020, 0x024, 0x028, 0x02C, 0x030, 0x034, 0x038] ∧ t.before.isSome = true))))

/-- 40_control.md R112, R116 and 60_exceptions.md R243: every command, performed in any state, completes in one step, without a stop: BUSY
falls, DONE rises, LASTOP is the opcode byte of CMD, REJ stays, and OK = 1 just where ERRCODE is 0x00. -/
def Obligations.EveryCommandCompletes : Prop :=
  ∀ (i : Instr) (s : State), ∃ t, exec i s = .next t ∧
    t.status.busy = false ∧ t.status.done = true ∧ t.status.rej = s.status.rej ∧ t.status.lastop = opField s.cmd ∧
    (t.status.ok = true ↔ t.status.errcode.code = 0x00)

/-- 00_scope.md R6 (COMPLETION), 40_control.md R112, with the schedule of log 1: from every state with a command in flight, after at most
one step more than the schedule is long no command is in flight, unless the host program itself stopped on a branch without a value (log
6). -/
def Obligations.EveryAcceptedCommandEnds : Prop :=
  ∀ s : State, s.status.busy = true → ∃ k, k ≤ s.sched.length + 1 ∧
    ((∃ t, Sys2Proof.core.run k s = .next t ∧ t.status.busy = false) ∨
      ∃ v, Sys2Proof.core.run k s = .fault (.hostNoValue v))

/-- 60_exceptions.md R248, R260; 40_control.md R111: BUSY rises only by a host write to CMD, and the command in flight is then the word
written. -/
def Obligations.OnlyACmdWriteStartsACommand : Prop :=
  ∀ s t : State, step s = .next t → s.status.busy = false → t.status.busy = true →
    s.host.halted = false ∧ s.host.program[s.host.pos]? = some (.wr 4 0x040 t.cmd)

/-- 60_exceptions.md R242: a command that fails writes 0 to the five result registers and its code to STATUS, and changes nothing else of
the block: no RAM, no configuration, no operand. The fault set keeps what it held and gains at most the reads of unwritten cells of the
command's input; where all its input is written, the fault set and the draw counter stay. (That the command goes on after such a read, and
which cells it reads, is the model's: log 3, log 4.) -/
def Obligations.FailedCommandIsPrecise : Prop :=
  ∀ (i : Instr) (s t : State), exec i s = .next t → t.status.ok = false →
    s.reportsFailure t t.status.errcode ∧ t.status.errcode ≠ .none ∧
    t = { s with status := t.status, results := t.results, faults := t.faults, draws := t.draws } ∧
    (∀ f ∈ s.faults, f ∈ t.faults) ∧
    (∀ f ∈ t.faults, f ∈ s.faults ∨
      (∃ x, f = .uninitRead .sampleRam x ∧ readsSamples i = true ∧ s.ops.srcAddr.toNat ≤ x ∧
        x < s.ops.srcAddr.toNat + s.ops.srcLen.toNat ∧ cellGet? s.sram x = none) ∨
      (∃ x, f = .uninitRead .byteRam x ∧ readsBytes i = true ∧ s.ops.byteAddr.toNat ≤ x ∧
        x < s.ops.byteAddr.toNat + s.ops.byteLen.toNat ∧ cellGet? s.bram x = none)) ∧
    ((readsSamples i = true → ∀ x, s.ops.srcAddr.toNat ≤ x → x < s.ops.srcAddr.toNat + s.ops.srcLen.toNat →
        cellGet? s.sram x ≠ none) →
      (readsBytes i = true → ∀ x, s.ops.byteAddr.toNat ≤ x → x < s.ops.byteAddr.toNat + s.ops.byteLen.toNat →
        cellGet? s.bram x ≠ none) →
      t.faults = s.faults ∧ t.draws = s.draws)

/-- 60_exceptions.md R241: the codes each command can complete with, and the one an illegal word completes with. -/
def Obligations.CodesOfEachCommand : Prop :=
  (∀ (i : Instr) (s t : State), exec i s = .next t → t.status.ok = false → t.status.errcode ∈ commandCodes i) ∧
  (∀ s t : State, s.status.busy = true → s.sched.head? ≠ some .host → (∃ e, decode s.cmd = .error e) →
    step s = .next t → t.status.ok = false ∧ t.status.errcode = .illegalCmd)

/-- 10_state.md R23, 60_exceptions.md R240: STATUS as the host reads it, bit by bit, with the values ERRCODE takes; and what a host write
to it does, whether or not BUSY = 1. -/
def Obligations.StatusReadAndWriteOneToClear : Prop :=
  (∀ s : State, let w := s.readReg .status
    w.getLsbD 0 = s.status.busy ∧ w.getLsbD 1 = s.status.done ∧ w.getLsbD 2 = s.status.ok ∧ w.getLsbD 3 = s.status.rej ∧
    w.extractLsb' 4 4 = 0 ∧ w.extractLsb' 16 8 = s.status.lastop ∧ w.extractLsb' 24 8 = 0 ∧
    w.extractLsb' 8 8 = (match s.status.errcode with
      | .none => 0x00 | .illegalCmd => 0x01 | .cfgInvalid => 0x02 | .lengthTooLarge => 0x03 | .sampleRange => 0x04
      | .byteRange => 0x05 | .noPreamble => 0x10 | .tooFewBits => 0x11 | .truncated => 0x12 | .crcMismatch => 0x13)) ∧
  (∀ (s : State) (v : Word), s.busWrite 4 0x008 v =
    { s with status := { s.status with
        done := if v.getLsbD 1 then false else s.status.done, rej := if v.getLsbD 3 then false else s.status.rej } })

/-- 40_control.md R115: a configuration is valid just where SR and BR are at least 1, the two frequencies differ, floor(SR / BR) is at
least 1, and the volume is +0.0 to 1.0 or -0.0, here by its patterns; a checked command fails with CFG_INVALID wherever it is not,
whatever its operands; CRC16 and CRC_CHECK, which do not check it (30_encoding.md R93), do the same whatever the configuration. -/
def Obligations.ConfigurationIsCheckedFirst : Prop :=
  (∀ c : FskConfig, c.valid = true ↔
    (1 ≤ c.sampleRate.toNat ∧ 1 ≤ c.bitRate.toNat ∧ c.markFreq ≠ c.spaceFreq ∧
      1 ≤ c.sampleRate.toNat / c.bitRate.toNat ∧ (c.volume.toNat ≤ 0x3F800000 ∨ c.volume = 0x80000000#32))) ∧
  (∀ (i : Instr) (s : State), checksConfig i = true → s.cfg.valid = false →
    ∃ t, exec i s = .next t ∧ s.reportsFailure t .cfgInvalid ∧ s.onlyReport t) ∧
  (∀ (s : State) (c : FskConfig), ∀ i ∈ [Instr.crc16, Instr.crcCheck],
    ∃ t, exec i s = .next t ∧ exec i { s with cfg := c } = .next { t with cfg := c })

/-- 20_memory.md R70, 60_exceptions.md R244: a command whose range leaves its RAM, the sum taken in unbounded naturals, fails with
SAMPLE_RANGE or BYTE_RANGE and writes nothing. (ENCODE_FRAME, and the output range of DECODE_FRAME, have statements of their own.) -/
def Obligations.RangeOutsideTheRamFails : Prop :=
  (∀ (i : Instr) (s : State), i ∈ [Instr.goertzel, .decodeBit, .findPreamble, .decodeFrame] → s.cfg.valid = true →
    s.params.sampleRamWords < s.ops.srcAddr.toNat + s.ops.srcLen.toNat →
    ∃ t, exec i s = .next t ∧ s.reportsFailure t .sampleRange ∧ s.onlyReport t) ∧
  (∀ s : State, s.cfg.valid = true → s.params.sampleRamWords < s.ops.dstAddr.toNat + s.ops.count.toNat →
    ∃ t, exec .genTone s = .next t ∧ s.reportsFailure t .sampleRange ∧ s.onlyReport t) ∧
  (∀ (b : Bool) (s : State), s.cfg.valid = true → s.params.sampleRamWords < s.ops.dstAddr.toNat + s.cfg.spb →
    ∃ t, exec (.encodeBit b) s = .next t ∧ s.reportsFailure t .sampleRange ∧ s.onlyReport t) ∧
  (∀ (i : Instr) (s : State), i ∈ [Instr.crc16, .crcCheck] →
    s.params.byteRamBytes < s.ops.byteAddr.toNat + s.ops.byteLen.toNat →
    ∃ t, exec i s = .next t ∧ s.reportsFailure t .byteRange ∧ s.onlyReport t)

/-- 40_control.md R120, R121: LOADMODE m writes the preset of mode m to the seven configuration registers and to MODE, whatever the old
configuration; RESULT0 = m; the preset is valid; mode 3 is ILLEGAL_CMD. -/
def Obligations.LoadModeLoadsThePreset : Prop :=
  (∀ (m : BitVec 2) (s : State), m ≠ 3 → ∃ t, exec (.loadmode m) s = .next t ∧
    s.reportsSuccess t (m.setWidth 32) 0 0 0 ∧
    t = { s with status := t.status, results := t.results, cfg := t.cfg, mode := t.mode } ∧
    t.cfg = { sampleRate := 48000, bitRate := if m = 1 then 600 else 100, markFreq := if m = 1 then 19000 else 1200,
              spaceFreq := if m = 1 then 18000 else 2200, volume := 0x3F800000, preambleBits := 16, postambleBits := 8 } ∧
    t.readReg .mode = m.setWidth 32 ∧ t.readReg .spb = (if m = 1 then 80 else 480) ∧ t.cfg.valid = true) ∧
  (∀ s : State, ∃ t, exec (.loadmode 3) s = .next t ∧ s.reportsFailure t .illegalCmd ∧ s.onlyReport t)

/-- 41_tone.md R132: GEN_TONE writes COUNT samples TONE(ARG, i) from S[DST_ADDR] on, and nothing else; RESULT0 = COUNT. -/
def Obligations.GenToneWritesTheTone : Prop :=
  ∀ s : State, s.cfg.valid = true → s.ops.dstAddr.toNat + s.ops.count.toNat ≤ s.params.sampleRamWords →
    ∃ t, exec .genTone s = .next t ∧ s.reportsSuccess t s.ops.count 0 0 0 ∧
      (∀ i, i < s.ops.count.toNat → cellGet? t.sram (s.ops.dstAddr.toNat + i) =
        some (tone s.cfg.sampleRate.toNat s.ops.arg.toNat i)) ∧
      s.onlyReportAndSamples t s.ops.dstAddr.toNat s.ops.count.toNat

/-- 41_tone.md R133, R134: ENCODE_BIT writes spb samples of the mark tone for 1 or the space tone for 0, from phase 0 and unscaled, and
nothing else; RESULT0 = spb and RESULT1 the bit. -/
def Obligations.EncodeBitWritesItsWindow : Prop :=
  ∀ (b : Bool) (s : State), s.cfg.valid = true → s.ops.dstAddr.toNat + s.cfg.spb ≤ s.params.sampleRamWords →
    ∃ t, exec (.encodeBit b) s = .next t ∧ s.reportsSuccess t (BitVec.ofNat 32 s.cfg.spb) (if b then 1 else 0) 0 0 ∧
      (∀ i, i < s.cfg.spb → cellGet? t.sram (s.ops.dstAddr.toNat + i) =
        some (tone s.cfg.sampleRate.toNat (if b then s.cfg.markFreq.toNat else s.cfg.spaceFreq.toNat) i)) ∧
      s.onlyReportAndSamples t s.ops.dstAddr.toNat s.cfg.spb

/-- 42_crc.md R151: CRC16 over a written payload gives its CRC in RESULT0 and changes nothing else; the configuration is not checked. -/
def Obligations.Crc16GivesTheCrc : Prop :=
  ∀ (s : State) (bs : List Byte), s.ops.byteLen.toNat = bs.length → s.holdsBytes s.ops.byteAddr.toNat bs →
    s.ops.byteAddr.toNat + bs.length ≤ s.params.byteRamBytes →
    ∃ t, exec .crc16 s = .next t ∧ s.reportsSuccess t (0#16 ++ crc bs) 0 0 0 ∧ s.onlyReport t

/-- 42_crc.md R152: CRC_CHECK over a written payload succeeds just where its CRC is ARG[15:0], and else fails with CRC_MISMATCH; it
changes nothing else. -/
def Obligations.CrcCheckCompares : Prop :=
  ∀ (s : State) (bs : List Byte), s.ops.byteLen.toNat = bs.length → s.holdsBytes s.ops.byteAddr.toNat bs →
    s.ops.byteAddr.toNat + bs.length ≤ s.params.byteRamBytes →
    ∃ t, exec .crcCheck s = .next t ∧ s.onlyReport t ∧
      (if (crc bs).toNat = s.ops.arg.toNat % 2 ^ 16 then s.reportsSuccess t (0#16 ++ crc bs) 0 0 0
       else s.reportsFailure t .crcMismatch)

/-- 42_crc.md R150, R153: the CRC of no bytes is 0xFFFF; each further byte enters at the top and is followed by eight shifts, here in
naturals; and so a message followed by its own CRC, high byte first, has CRC 0. -/
def Obligations.CrcFollowsTheRecurrence : Prop :=
  (crc []).toNat = 0xFFFF ∧
  (∀ (data : List Byte) (b : Byte), (crc (data ++ [b])).toNat =
    Nat.repeat (fun c => if 2 ^ 15 ≤ c then (2 * c % 2 ^ 16) ^^^ 0x1021 else 2 * c % 2 ^ 16) 8
      ((crc data).toNat ^^^ (b.toNat * 2 ^ 8))) ∧
  (∀ data : List Byte, crc (data ++ [(crc data).extractLsb' 8 8, (crc data).extractLsb' 0 8]) = 0)

/-- 43_encoder.md R172: ENCODE_FRAME over a written payload renders the frame bits, each as spb scaled samples of its tone from phase 0,
and writes nothing else. -/
def Obligations.EncodeFrameRendersTheFrame : Prop :=
  ∀ (s : State) (bs : List Byte), s.cfg.valid = true → s.ops.byteLen.toNat = bs.length → bs.length ≤ 65535 →
    s.holdsBytes s.ops.byteAddr.toNat bs → s.ops.byteAddr.toNat + bs.length ≤ s.params.byteRamBytes →
    s.ops.dstAddr.toNat + s.cfg.nsamples bs.length ≤ s.params.sampleRamWords →
    ∃ t, exec .encodeFrame s = .next t ∧
      s.reportsSuccess t (BitVec.ofNat 32 (s.cfg.nsamples bs.length)) (BitVec.ofNat 32 (s.cfg.nbits bs.length))
        (0#16 ++ crc bs) 0 ∧
      (∀ m b i, (frameBits s.cfg.preambleBits.toNat s.cfg.postambleBits.toNat bs)[m]? = some b → i < s.cfg.spb →
        cellGet? t.sram (s.ops.dstAddr.toNat + m * s.cfg.spb + i) =
          some (scale (tone s.cfg.sampleRate.toNat (if b then s.cfg.markFreq.toNat else s.cfg.spaceFreq.toNat) i)
            s.cfg.volume)) ∧
      s.onlyReportAndSamples t s.ops.dstAddr.toNat (s.cfg.nsamples bs.length)

/-- 43_encoder.md R172, 60_exceptions.md R244: the order of ENCODE_FRAME's failures after the configuration check: LENGTH_TOO_LARGE,
BYTE_RANGE, SAMPLE_RANGE. None writes a sample. -/
def Obligations.EncodeFrameFailuresInOrder : Prop :=
  ∀ s : State, s.cfg.valid = true →
    (65535 < s.ops.byteLen.toNat →
      ∃ t, exec .encodeFrame s = .next t ∧ s.reportsFailure t .lengthTooLarge ∧ s.onlyReport t) ∧
    (s.ops.byteLen.toNat ≤ 65535 → s.params.byteRamBytes < s.ops.byteAddr.toNat + s.ops.byteLen.toNat →
      ∃ t, exec .encodeFrame s = .next t ∧ s.reportsFailure t .byteRange ∧ s.onlyReport t) ∧
    (s.ops.byteLen.toNat ≤ 65535 → s.ops.byteAddr.toNat + s.ops.byteLen.toNat ≤ s.params.byteRamBytes →
      s.params.sampleRamWords < s.ops.dstAddr.toNat + s.cfg.nsamples s.ops.byteLen.toNat →
      ∃ t, exec .encodeFrame s = .next t ∧ s.reportsFailure t .sampleRange ∧ s.onlyReport t)

/-- 43_encoder.md R173: DURATION gives nbits(L) in RESULT0 and nbits(L) / BR as one binary64 division in FRESULT, reads no RAM and changes
nothing else; over 65535 bytes it fails with LENGTH_TOO_LARGE. -/
def Obligations.DurationDividesBitsByRate : Prop :=
  ∀ s : State, s.cfg.valid = true →
    (s.ops.byteLen.toNat ≤ 65535 →
      ∃ t, exec .duration s = .next t ∧ s.onlyReport t ∧
        s.reportsSuccess t
          (BitVec.ofNat 32 (s.cfg.preambleBits.toNat + 16 + 8 * s.ops.byteLen.toNat + 16 + s.cfg.postambleBits.toNat)) 0 0
          (div64 (natTo64 (s.cfg.preambleBits.toNat + 16 + 8 * s.ops.byteLen.toNat + 16 + s.cfg.postambleBits.toNat))
            (natTo64 s.cfg.bitRate.toNat))) ∧
    (65535 < s.ops.byteLen.toNat →
      ∃ t, exec .duration s = .next t ∧ s.onlyReport t ∧ s.reportsFailure t .lengthTooLarge)

/-- 44_goertzel.md R191: GOERTZEL over written samples gives G at frequency ARG in FRESULT and the count in RESULT0, a NaN or an infinity
included, and changes nothing else. -/
def Obligations.GoertzelGivesTheMagnitude : Prop :=
  ∀ (s : State) (xs : List F32), s.cfg.valid = true → s.ops.srcLen.toNat = xs.length →
    s.holdsSamples s.ops.srcAddr.toNat xs → s.ops.srcAddr.toNat + xs.length ≤ s.params.sampleRamWords →
    ∃ t, exec .goertzel s = .next t ∧ s.onlyReport t ∧
      s.reportsSuccess t s.ops.srcLen 0 0 (goertzel s.cfg.sampleRate.toNat xs s.ops.arg.toNat)

/-- 44_goertzel.md R192, R193: DECODE_BIT over written samples gives 1 in RESULT0 just where the mark magnitude is greater than the space
magnitude, and the count in RESULT1, and changes nothing else. -/
def Obligations.DecodeBitDecides : Prop :=
  ∀ (s : State) (xs : List F32), s.cfg.valid = true → s.ops.srcLen.toNat = xs.length →
    s.holdsSamples s.ops.srcAddr.toNat xs → s.ops.srcAddr.toNat + xs.length ≤ s.params.sampleRamWords →
    ∃ t, exec .decodeBit s = .next t ∧ s.onlyReport t ∧
      s.reportsSuccess t
        (if gt64 (goertzel s.cfg.sampleRate.toNat xs s.cfg.markFreq.toNat)
              (goertzel s.cfg.sampleRate.toNat xs s.cfg.spaceFreq.toNat) then 1 else 0)
        s.ops.srcLen 0 0

/-- 45_decoder.md R212: FIND_PREAMBLE over written samples reports st mod 2^32 and m of FIND, both relative to SRC_ADDR, or NO_PREAMBLE,
and changes nothing else. -/
def Obligations.FindPreambleReportsTheMatch : Prop :=
  ∀ (s : State) (xs : List F32), s.cfg.valid = true → s.ops.srcLen.toNat = xs.length →
    s.holdsSamples s.ops.srcAddr.toNat xs → s.ops.srcAddr.toNat + xs.length ≤ s.params.sampleRamWords →
    ∃ t, exec .findPreamble s = .next t ∧ s.onlyReport t ∧
      (match findPreamble s.cfg xs with
        | some (m, st) => s.reportsSuccess t (BitVec.ofNat 32 st) (BitVec.ofNat 32 m) 0 0
        | none => s.reportsFailure t .noPreamble)

/-- 45_decoder.md R216: DECODE_FRAME over written samples. Without a preamble it fails with NO_PREAMBLE; with a frame that PARSE refuses
it fails with PARSE's code; with a payload that does not fit it fails with BYTE_RANGE; else it writes the payload, and nothing but the
payload, and reports its length, the number of bits decoded and st. -/
def Obligations.DecodeFrameWritesThePayload : Prop :=
  ∀ (s : State) (xs : List F32), s.cfg.valid = true → s.ops.srcLen.toNat = xs.length →
    s.holdsSamples s.ops.srcAddr.toNat xs → s.ops.srcAddr.toNat + xs.length ≤ s.params.sampleRamWords →
    ∃ t, exec .decodeFrame s = .next t ∧
      (match findPreamble s.cfg xs with
        | none => s.reportsFailure t .noPreamble ∧ s.onlyReport t
        | some (_, st) =>
          match parseFrame s.cfg.postambleBits.toNat (bodyBits s.cfg xs st) with
          | .error c => s.reportsFailure t c ∧ s.onlyReport t
          | .ok payload =>
            if s.ops.byteAddr.toNat + payload.length ≤ s.params.byteRamBytes then
              s.reportsSuccess t (BitVec.ofNat 32 payload.length) (BitVec.ofNat 32 (bodyBits s.cfg xs st).length)
                (BitVec.ofNat 32 st) 0 ∧
              t.holdsBytes s.ops.byteAddr.toNat payload ∧
              s.onlyReportAndBytes t s.ops.byteAddr.toNat payload.length
            else s.reportsFailure t .byteRange ∧ s.onlyReport t)

/-- 43_encoder.md R170, R171: the frame bits, field by field at the offsets of the layout, and their number. -/
def Obligations.FrameBitsLayout : Prop :=
  ∀ (pre post : Nat) (data : List Byte),
    (frameBits pre post data).length = pre + 16 + 8 * data.length + 16 + post ∧
    (∀ k, k < pre → (frameBits pre post data)[k]? = some (k % 2 == 1)) ∧
    (∀ k, k < 16 → (frameBits pre post data)[pre + k]? = some (data.length.testBit (15 - k))) ∧
    (∀ j k b, data[j]? = some b → k < 8 → (frameBits pre post data)[pre + 16 + 8 * j + k]? = some (b.getLsbD (7 - k))) ∧
    (∀ k, k < 16 → (frameBits pre post data)[pre + 16 + 8 * data.length + k]? = some ((crc data).getLsbD (15 - k))) ∧
    (∀ k, k < post → (frameBits pre post data)[pre + 32 + 8 * data.length + k]? = some true)

/-- 45_decoder.md R210, R211: FIND returns the first of the positions 0, h, 2h, … at which a whole window lies in the samples and its four
bits alternate, with st the preamble length past it, whether or not that is inside the samples; and nothing where there is no such
position. -/
def Obligations.FindReturnsTheFirstMatch : Prop :=
  ∀ (c : FskConfig) (xs : List F32),
    (∀ m st, findPreamble c xs = some (m, st) ↔
      ((∃ k, m = k * max 1 (c.spb / 2)) ∧ matchesAt c xs m ∧
        (∀ k, k * max 1 (c.spb / 2) < m → ¬ matchesAt c xs (k * max 1 (c.spb / 2))) ∧
        st = m + c.preambleBits.toNat * c.spb)) ∧
    (findPreamble c xs = none ↔ ∀ k, ¬ matchesAt c xs (k * max 1 (c.spb / 2)))

/-- 45_decoder.md R213: one bit for each whole window from st on, and none for a trailing part of a window. -/
def Obligations.BodyBitsOfWholeWindows : Prop :=
  ∀ (c : FskConfig) (xs : List F32) (st k : Nat), 1 ≤ c.spb →
    (st + (k + 1) * c.spb ≤ xs.length →
      (bodyBits c xs st)[k]? = some (decideBit c ((xs.drop (st + k * c.spb)).take c.spb))) ∧
    (xs.length < st + (k + 1) * c.spb → (bodyBits c xs st)[k]? = none)

/-- 45_decoder.md R214: PARSE's steps in order, with its sums written out. -/
def Obligations.ParseStepsInOrder : Prop :=
  ∀ (post : Nat) (bits : List Bool), let len := msbValue bits 0 16
    (bits.length < 32 → parseFrame post bits = .error .tooFewBits) ∧
    (32 ≤ bits.length → bits.length < 16 + 8 * len + 16 + post → parseFrame post bits = .error .truncated) ∧
    (32 ≤ bits.length → 16 + 8 * len + 16 + post ≤ bits.length →
      let payload := (List.range len).map (fun j => BitVec.ofNat 8 (msbValue bits (16 + 8 * j) 8))
      parseFrame post bits =
        if (crc payload).toNat = msbValue bits (16 + 8 * len) 16 then .ok payload else .error .crcMismatch)

/-- 45_decoder.md R215: PARSE reads back what FB writes, for every payload of at most 65535 bytes, preamble and postamble length. -/
def Obligations.ParseInvertsFrameBits : Prop :=
  ∀ (pre post : Nat) (data : List Byte), data.length ≤ 65535 →
    parseFrame post ((frameBits pre post data).drop pre) = .ok data

/-- 45_decoder.md R211, R216 and 44_goertzel.md R192: in silence, samples that are all +0.0, no preamble is found, whatever the
configuration and the cosine; FIND_PREAMBLE and DECODE_FRAME fail with NO_PREAMBLE. -/
def Obligations.SilenceHasNoPreamble : Prop :=
  ∀ (i : Instr) (s : State), i ∈ [Instr.findPreamble, .decodeFrame] → s.cfg.valid = true →
    s.ops.srcAddr.toNat + s.ops.srcLen.toNat ≤ s.params.sampleRamWords →
    s.holdsSamples s.ops.srcAddr.toNat (List.replicate s.ops.srcLen.toNat 0) →
    ∃ t, exec i s = .next t ∧ s.reportsFailure t .noPreamble ∧ s.onlyReport t

/-- 41_tone.md R130, R132: TONE(f, i) is its formula, left to right with one rounding an operation, for all f and i; and at sample 0 of
every tone, as at every sample of the tone of 0 hertz, the phase is +0.0 and the sample rnd32(TONE_SIN(+0.0)). (What a NaN of TONE_SIN
becomes is a free quiet NaN of the same three arguments: log 8.) -/
def Obligations.ToneFollowsTheFormula : Prop :=
  (∀ sr f i : Nat, tone sr f i = rnd32 (quietNaN32 (Config.toneNaN f i sr))
    (Config.toneSin (div64 (mul64 (mul64 0x401921FB54442D18 (natTo64 f)) (natTo64 i)) (natTo64 sr)))) ∧
  (∀ sr f i : Nat, 1 ≤ sr → sr < 2 ^ 32 → f < 2 ^ 32 → i < 2 ^ 32 → (f = 0 ∨ i = 0) →
    tonePhase sr f i = 0 ∧ tone sr f i = rnd32 (quietNaN32 (Config.toneNaN f i sr)) (Config.toneSin 0))

/-- 41_tone.md R131: SCALE by 1.0 keeps every sample that is not a NaN; by +0.0 it gives a zero whose sign follows a finite sample; a NaN
sample gives a quiet NaN. -/
def Obligations.ScaleAtTheEndsOfTheRange : Prop :=
  (∀ x : F32, isNaN32 x = false → scale x 0x3F800000 = x) ∧
  (∀ x : F32, x.toNat % 2 ^ 31 < 0x7F800000 → scale x 0 = x &&& 0x80000000#32) ∧
  (∀ x v : F32, isNaN32 x = true → isNaN32 (scale x v) = true ∧ (scale x v).getLsbD 22 = true)

/-- 44_goertzel.md R190: G is the canonical NaN64, or a magnitude with sign 0: +0.0, positive or +∞. -/
def Obligations.MagnitudeIsCanonicalNaNOrNotNegative : Prop :=
  ∀ (coeff : F64) (xs : List F32),
    (isNaN64 (goertzelWith coeff xs) = true → goertzelWith coeff xs = 0x7FF8000000000000) ∧
    (goertzelWith coeff xs).msb = false

/-- 44_goertzel.md R191: for one finite sample that is not zero G is its absolute value, exactly, for every coefficient of magnitude at
most 2 (the coefficients of a cosine of magnitude at most 1, log 10). -/
def Obligations.SingleSampleMagnitudeIsExact : Prop :=
  ∀ (coeff : F64) (x : F32), coeff.toNat % 2 ^ 63 ≤ 0x4000000000000000 → x.toNat % 2 ^ 31 < 0x7F800000 → x.toNat % 2 ^ 31 ≠ 0 →
    goertzelWith coeff [x] = f32To64 (x &&& 0x7FFFFFFF#32)

/-- 44_goertzel.md R190: G is the recurrence on the two last states, which start at +0.0 and take each further sample in turn, then the
power term, NaN64 for a NaN, +0.0 where it is not above 0.0, and else the square root; its coefficient is 2·cos(2π·f/SR), the bin not
rounded. -/
def Obligations.GoertzelFollowsTheRecurrence : Prop :=
  (∀ coeff : F64, ∃ s1 s2 : List F32 → F64,
    s1 [] = 0 ∧ s2 [] = 0 ∧
    (∀ xs x, s1 (xs ++ [x]) = sub64 (add64 (f32To64 x) (mul64 coeff (s1 xs))) (s2 xs) ∧ s2 (xs ++ [x]) = s1 xs) ∧
    (∀ xs, goertzelWith coeff xs =
      let p := sub64 (add64 (mul64 (s1 xs) (s1 xs)) (mul64 (s2 xs) (s2 xs))) (mul64 (mul64 coeff (s1 xs)) (s2 xs))
      if isNaN64 p then 0x7FF8000000000000 else if le64 p 0 then 0 else sqrt64 p)) ∧
  (∀ (sr f : Nat) (xs : List F32), goertzel sr xs f =
    goertzelWith (mul64 0x4000000000000000
      (Config.goertzelCos (div64 (mul64 0x401921FB54442D18 (natTo64 f)) (natTo64 sr)))) xs)

/-- 44_goertzel.md R192: the bit is 0 on a tie and 0 where either magnitude is a NaN. -/
def Obligations.TieAndNaNDecideZero : Prop :=
  ∀ (c : FskConfig) (xs : List F32),
    (goertzel c.sampleRate.toNat xs c.markFreq.toNat = goertzel c.sampleRate.toNat xs c.spaceFreq.toNat ∨
      isNaN64 (goertzel c.sampleRate.toNat xs c.markFreq.toNat) = true ∨
      isNaN64 (goertzel c.sampleRate.toNat xs c.spaceFreq.toNat) = true) → decideBit c xs = false

/-- 00_scope.md R10 (roundTiesToEven): the rounded quotient is a nearest natural to a / b, and the even one where two are equally near. -/
def Obligations.RoundingIsToNearestTiesToEven : Prop :=
  ∀ a b : Nat, 0 < b →
    2 * a ≤ (2 * roundHalfEven a b + 1) * b ∧ 2 * roundHalfEven a b * b ≤ 2 * a + b ∧
    ((2 * a = (2 * roundHalfEven a b + 1) * b ∨ 2 * roundHalfEven a b * b = 2 * a + b) → roundHalfEven a b % 2 = 0)

/-- 00_scope.md R10: to64 is exact, of a natural below 2^53 and of a binary32 value, subnormals and infinities included: the value is the
same number, counted in the binary64 unit 2^-1074, of which the binary32 unit 2^-149 is 2^925; and rnd32 gives the binary32 value back. -/
def Obligations.To64IsExactAndRnd32UndoesIt : Prop :=
  (∀ n : Nat, n < 2 ^ 53 → unpack64 (natTo64 n) = .fin false (n * 2 ^ 1074)) ∧
  (∀ x : F32, unpack64 (f32To64 x) = (match unpack32 x with
    | .nan => .nan | .inf neg => .inf neg | .fin neg units => .fin neg (units * 2 ^ 925))) ∧
  (∀ nan x : F32, isNaN32 x = false → rnd32 nan (f32To64 x) = x)

/-- 20_memory.md R64, R66, R69: while BUSY = 0 a write to a RAM window sets the word and no other cell; the byte packing is little-endian;
a read of the word then gives the value written, pattern unchanged, but for the time of R72, when it is a draw, which
CommandAndHostSeeTheStateBefore states. (That BUSY = 0 is enough for the write: log 26.) -/
def Obligations.RamWindowReadsBackWhatWasWritten : Prop :=
  (∀ (s : State) (off v : Word), s.status.busy = false → s.params.wf → off.toNat % 4 = 0 → 0x00010000 ≤ off.toNat →
    off.toNat < 0x00010000 + s.params.byteRamBytes →
    (s.before = none → (s.busWrite 4 off v).busRead 4 off = (s.busWrite 4 off v, some v)) ∧
    (∀ j, j < 4 → cellGet? (s.busWrite 4 off v).bram (off.toNat - 0x00010000 + j) = some (v.extractLsb' (8 * j) 8)) ∧
    s.busWrite 4 off v = { s with bram := (s.busWrite 4 off v).bram } ∧
    (∀ x, x < off.toNat - 0x00010000 ∨ off.toNat - 0x00010000 + 4 ≤ x →
      cellGet? (s.busWrite 4 off v).bram x = cellGet? s.bram x)) ∧
  (∀ (s : State) (off v : Word), s.status.busy = false → s.params.wf → off.toNat % 4 = 0 → 0x00100000 ≤ off.toNat →
    off.toNat < 0x00100000 + 4 * s.params.sampleRamWords →
    (s.before = none → (s.busWrite 4 off v).busRead 4 off = (s.busWrite 4 off v, some v)) ∧
    cellGet? (s.busWrite 4 off v).sram ((off.toNat - 0x00100000) / 4) = some v ∧
    s.busWrite 4 off v = { s with sram := (s.busWrite 4 off v).sram } ∧
    (∀ x, x ≠ (off.toNat - 0x00100000) / 4 → cellGet? (s.busWrite 4 off v).sram x = cellGet? s.sram x))

/-- 20_memory.md R60, R63, R65: an access that is not an aligned 32-bit access to a mapped offset gets a bus error: a write changes
nothing and a read returns no value, but BUS_ERROR(offset) is recorded. An access that is one records no bus error. (That such a write
leaves REJ while BUSY = 1 is the model's reading of R65 against the first words of R39: log 19.) -/
def Obligations.UnmappedAccessIsABusError : Prop :=
  ∀ (s : State) (width : Nat) (off v : Word),
    (¬ mappedAccess s.params width off →
      s.busWrite width off v = { s with faults := (s.busWrite width off v).faults } ∧
      (s.busRead width off).1 = { s with faults := (s.busRead width off).1.faults } ∧ (s.busRead width off).2 = none ∧
      (∀ f, f ∈ (s.busWrite width off v).faults ↔ f ∈ s.faults ∨ f = .busError off.toNat) ∧
      (∀ f, f ∈ (s.busRead width off).1.faults ↔ f ∈ s.faults ∨ f = .busError off.toNat)) ∧
    (mappedAccess s.params width off → ∀ o,
      (.busError o ∈ (s.busWrite width off v).faults ↔ .busError o ∈ s.faults) ∧
      (.busError o ∈ (s.busRead width off).1.faults ↔ .busError o ∈ s.faults))

/-- 20_memory.md R69: reads have no side effects on the block: they can move the model's fault set, which only grows, its draw counter,
and, at a STATUS read that returns BUSY = 0 or DONE = 1, its record that the host has been shown the completion (R72, log 26), and nothing
else. While BUSY = 1, and until that STATUS read, they record no read of an unwritten cell (R67 and R72 over R68, the model's choice: log
25), and R40's registers and the windows have a value. -/
def Obligations.ReadsHaveNoSideEffects : Prop :=
  ∀ (s : State) (width : Nat) (off : Word), let u := (s.busRead width off).1
    u = { s with faults := u.faults, draws := u.draws, before := u.before } ∧
    (∀ f ∈ s.faults, f ∈ u.faults) ∧
    u.before = (if width = 4 ∧ off = 0x008 ∧ (s.status.busy = false ∨ s.status.done = true) then none else s.before) ∧
    (s.status.busy = true ∨ s.before.isSome = true → mappedAccess s.params width off →
      u.faults = s.faults ∧ (s.busRead width off).2.isSome = true)

/-- 20_memory.md R68, with log 3, log 4 and log 6 for what the model does beside recording the fault: while BUSY = 0 a host read of a RAM
window word with an unwritten byte or of an unwritten word records UNINIT_READ and has no value; a command that takes an unwritten cell as
input records UNINIT_READ for that cell, and completes. (That a read while BUSY = 1, or in the time of R72, is left out: log 25, log 26.) -/
def Obligations.ReadsOfUnwrittenCellsAreRecorded : Prop :=
  (∀ (s : State) (off : Word) (j : Nat), s.status.busy = false → s.before = none → s.params.wf → off.toNat % 4 = 0 →
    0x00010000 ≤ off.toNat → off.toNat < 0x00010000 + s.params.byteRamBytes → j < 4 →
    cellGet? s.bram (off.toNat - 0x00010000 + j) = none →
    (s.busRead 4 off).2 = none ∧ .uninitRead .byteRam (off.toNat - 0x00010000 + j) ∈ (s.busRead 4 off).1.faults) ∧
  (∀ (s : State) (off : Word), s.status.busy = false → s.before = none → s.params.wf → off.toNat % 4 = 0 →
    0x00100000 ≤ off.toNat →
    off.toNat < 0x00100000 + 4 * s.params.sampleRamWords →
    cellGet? s.sram ((off.toNat - 0x00100000) / 4) = none →
    (s.busRead 4 off).2 = none ∧
    .uninitRead .sampleRam ((off.toNat - 0x00100000) / 4) ∈ (s.busRead 4 off).1.faults) ∧
  (∀ (i : Instr) (s : State) (x : Nat), readsSamples i = true → s.cfg.valid = true →
    s.ops.srcAddr.toNat + s.ops.srcLen.toNat ≤ s.params.sampleRamWords → s.ops.srcAddr.toNat ≤ x →
    x < s.ops.srcAddr.toNat + s.ops.srcLen.toNat → cellGet? s.sram x = none →
    ∃ t, exec i s = .next t ∧ .uninitRead .sampleRam x ∈ t.faults ∧ t.status.busy = false) ∧
  (∀ (i : Instr) (s : State) (x : Nat), i ∈ [Instr.crc16, .crcCheck] →
    s.ops.byteAddr.toNat + s.ops.byteLen.toNat ≤ s.params.byteRamBytes →
    s.ops.byteAddr.toNat ≤ x → x < s.ops.byteAddr.toNat + s.ops.byteLen.toNat → cellGet? s.bram x = none →
    ∃ t, exec i s = .next t ∧ .uninitRead .byteRam x ∈ t.faults ∧ t.status.busy = false) ∧
  (∀ (s : State) (x : Nat), s.cfg.valid = true → s.ops.byteLen.toNat ≤ 65535 →
    s.ops.byteAddr.toNat + s.ops.byteLen.toNat ≤ s.params.byteRamBytes →
    s.ops.dstAddr.toNat + s.cfg.nsamples s.ops.byteLen.toNat ≤ s.params.sampleRamWords →
    s.ops.byteAddr.toNat ≤ x → x < s.ops.byteAddr.toNat + s.ops.byteLen.toNat → cellGet? s.bram x = none →
    ∃ t, exec .encodeFrame s = .next t ∧ .uninitRead .byteRam x ∈ t.faults ∧ t.status.busy = false)

/-- 60_exceptions.md R246: no step, soft reset included, removes a fault from the fault set. -/
def Obligations.NoStepRemovesAFault : Prop :=
  ∀ (s t : State) (f : ModelFault), step s = .next t → f ∈ s.faults → f ∈ t.faults

/-- 20_memory.md R71: no command but GEN_TONE, ENCODE_BIT and ENCODE_FRAME writes S, none but DECODE_FRAME writes B; and a RAM that a
command does not read has no part in its report, in the other RAM, or in what it writes: from any two contents of that RAM each of its
cells ends the same in both outcomes, or as it was in both. -/
def Obligations.RamsEachCommandReadsAndWrites : Prop :=
  (∀ (i : Instr) (s t : State), exec i s = .next t →
    (writesSamples i = false → t.sram = s.sram) ∧ (writesBytes i = false → t.bram = s.bram)) ∧
  (∀ (i : Instr) (s : State) (m : List (Nat × F32)), readsSamples i = false →
    ∃ t t', exec i s = .next t ∧ exec i { s with sram := m } = .next t' ∧
      t'.status = t.status ∧ t'.results = t.results ∧ t'.bram = t.bram ∧ t'.faults = t.faults ∧
      (∀ x, cellGet? t'.sram x = cellGet? t.sram x ∨
        (cellGet? t.sram x = cellGet? s.sram x ∧ cellGet? t'.sram x = cellGet? m x))) ∧
  (∀ (i : Instr) (s : State) (m : List Host.Cell), readsBytes i = false →
    ∃ t t', exec i s = .next t ∧ exec i { s with bram := m } = .next t' ∧
      t'.status = t.status ∧ t'.results = t.results ∧ t'.sram = t.sram ∧ t'.faults = t.faults ∧
      (∀ x, cellGet? t'.bram x = cellGet? t.bram x ∨
        (cellGet? t.bram x = cellGet? s.bram x ∧ cellGet? t'.bram x = cellGet? m x)))

/-- 30_encoding.md R93, 10_state.md R35: a command does the same whatever the operand registers it does not read hold; CRC_CHECK ignores
ARG[31:16]. -/
def Obligations.CommandsReadOnlyTheirOperands : Prop :=
  ∀ (i : Instr) (s : State) (o : OperandRegs), sameOperands s.ops o i →
    ∃ t, exec i s = .next t ∧ exec i { s with ops := o } = .next { t with ops := o }

/-- 70_reset_and_hazards.md R270, 10_state.md R21: what every register reads after power-on, with nothing written in either RAM, no fault,
no command in flight and IRQ low. -/
def Obligations.PowerOnState : Prop :=
  let r := State.reset.shown.readReg
  (r .id = 0x46534B31 ∧ r .ctrl = 0 ∧ r .status = 0 ∧ r .spb = 0x1E0 ∧ r .mode = 0) ∧
  (r .sampleRate = 0xBB80 ∧ r .bitRate = 0x64 ∧ r .markFreq = 0x4B0 ∧ r .spaceFreq = 0x898 ∧ r .volume = 0x3F800000 ∧
    r .preambleBits = 0x10 ∧ r .postambleBits = 0x8) ∧
  (r .cmd = 0 ∧ r .arg = 0 ∧ r .srcAddr = 0 ∧ r .srcLen = 0 ∧ r .dstAddr = 0 ∧ r .count = 0 ∧ r .byteAddr = 0 ∧
    r .byteLen = 0) ∧
  (r .result0 = 0 ∧ r .result1 = 0 ∧ r .result2 = 0 ∧ r .fresultLo = 0 ∧ r .fresultHi = 0) ∧
  State.reset.irq = false ∧ State.reset.status.busy = false ∧ State.reset.faults = [] ∧
  (∀ x, cellGet? State.reset.sram x = none) ∧ (∀ x, cellGet? State.reset.bram x = none)

/-- 10_state.md R21, R27 to R37, R40, with the offsets of R21's table written out: a read of each register's offset gives its current
value, that of a result register where BUSY = 0, and that of a result register, of SPB, of MODE or of the configuration outside the time
of R72 (inside it CommandAndHostSeeTheStateBefore says what they give); while BUSY = 0 a write at the offset of a register that can be
written sets that register, in all 32 bits or, for the two counts, in bits 15:0, and for a configuration register MODE.MODIFIED, in what
the host is shown in the time of R72 too. So each reads back what was written, and every other register but MODE and SPB, and both RAMs,
keep their values. (That BUSY = 0 is enough for a write, and that the host is shown its own writes: log 26.) -/
def Obligations.RegistersReadBackWhatWasWritten : Prop :=
  (∀ s : State, ∀ p ∈ [(0x000#32, 0x46534B31#32), (0x004, s.readReg .ctrl), (0x040, s.cmd), (0x044, s.ops.arg),
      (0x048, s.ops.srcAddr), (0x04C, s.ops.srcLen), (0x050, s.ops.dstAddr), (0x054, s.ops.count), (0x058, s.ops.byteAddr),
      (0x05C, s.ops.byteLen)],
    s.busRead 4 p.1 = (s, some p.2)) ∧
  (∀ s : State, (s.busRead 4 0x008).2 = some (s.readReg .status)) ∧
  (∀ s : State, s.before = none → ∀ p ∈ [(0x00C#32, s.readReg .spb), (0x010, s.readReg .mode), (0x020, s.cfg.sampleRate),
      (0x024, s.cfg.bitRate), (0x028, s.cfg.markFreq), (0x02C, s.cfg.spaceFreq), (0x030, s.cfg.volume),
      (0x034, s.cfg.preambleBits.setWidth 32), (0x038, s.cfg.postambleBits.setWidth 32)],
    s.busRead 4 p.1 = (s, some p.2)) ∧
  (∀ s : State, s.status.busy = false → s.before = none → ∀ p ∈ [(0x060#32, s.results.result0), (0x064, s.results.result1),
      (0x068, s.results.result2), (0x070, s.results.fresultLo), (0x074, s.results.fresultHi)],
    s.busRead 4 p.1 = (s, some p.2)) ∧
  (∀ (s : State) (v : Word), s.status.busy = false →
    ∀ p ∈ [(0x020#32, fun c : FskConfig => { c with sampleRate := v }), (0x024, fun c : FskConfig => { c with bitRate := v }),
      (0x028, fun c : FskConfig => { c with markFreq := v }), (0x02C, fun c : FskConfig => { c with spaceFreq := v }),
      (0x030, fun c : FskConfig => { c with volume := v }), (0x034, fun c : FskConfig => { c with preambleBits := v.setWidth 16 }),
      (0x038, fun c : FskConfig => { c with postambleBits := v.setWidth 16 })],
    s.busWrite 4 p.1 v = { s with
      cfg := p.2 s.cfg, mode := { s.mode with modified := true },
      before := s.before.map (fun b => { cfg := p.2 b.cfg, mode := { b.mode with modified := true } }) }) ∧
  (∀ (s : State) (v : Word), s.status.busy = false →
    ∀ p ∈ [(0x044#32, { s.ops with arg := v }), (0x048, { s.ops with srcAddr := v }), (0x04C, { s.ops with srcLen := v }),
      (0x050, { s.ops with dstAddr := v }), (0x054, { s.ops with count := v }), (0x058, { s.ops with byteAddr := v }),
      (0x05C, { s.ops with byteLen := v })],
    s.busWrite 4 p.1 v = { s with ops := p.2 }) ∧
  (∀ (s : State) (r : HostReg) (v : Word), s.status.busy = false →
    r ∈ [HostReg.sampleRate, .bitRate, .markFreq, .spaceFreq, .volume, .preambleBits, .postambleBits, .arg, .srcAddr,
      .srcLen, .dstAddr, .count, .byteAddr, .byteLen] →
    let u := s.busWrite 4 (BitVec.ofNat 32 r.offset) v
    u.readReg r = (if r = .preambleBits ∨ r = .postambleBits then v &&& 0x0000FFFF#32 else v) ∧ u.shown.readReg r = u.readReg r ∧
    (∀ r', r' ≠ r → r' ≠ .mode → r' ≠ .spb →
      u.readReg r' = s.readReg r' ∧ u.shown.readReg r' = s.shown.readReg r') ∧
    u.sram = s.sram ∧ u.bram = s.bram)

/-- 10_state.md R25, R26, 70_reset_and_hazards.md R280: MODE.MODIFIED is set by an accepted write to a configuration register, whatever
the value, and by no write to an operand register; PRESET stays; SPB always follows SAMPLE_RATE and BIT_RATE. -/
def Obligations.ModifiedBitAndSpbFollowWrites : Prop :=
  (∀ (s : State) (v : Word), s.status.busy = false →
    ∀ off ∈ [0x020#32, 0x024#32, 0x028#32, 0x02C#32, 0x030#32, 0x034#32, 0x038#32],
      (s.busWrite 4 off v).readReg .mode = s.readReg .mode ||| 4#32) ∧
  (∀ (s : State) (v : Word), s.status.busy = false →
    ∀ off ∈ [0x044#32, 0x048#32, 0x04C#32, 0x050#32, 0x054#32, 0x058#32, 0x05C#32],
      (s.busWrite 4 off v).readReg .mode = s.readReg .mode) ∧
  (∀ s : State, (s.readReg .spb).toNat =
    if 1 ≤ (s.readReg .bitRate).toNat then (s.readReg .sampleRate).toNat / (s.readReg .bitRate).toNat else 0)

/-- 10_state.md R24: a write to CTRL, whether or not BUSY = 1: with SRST = 0 it writes IRQ_EN alone; with SRST = 1 the soft reset happens
and IRQ_EN is 0 whatever the write says. CTRL reads IRQ_EN in bit 1 and 0 elsewhere, and 0 after reset. -/
def Obligations.CtrlWriteAndRead : Prop :=
  State.reset.readReg .ctrl = 0 ∧ ∀ (s : State) (v : Word),
    (v.getLsbD 0 = false → s.busWrite 4 0x004 v = { s with irqEn := v.getLsbD 1 }) ∧
    (v.getLsbD 0 = true → s.busWrite 4 0x004 v = s.softReset ∧ (s.busWrite 4 0x004 v).irqEn = false) ∧
    s.readReg .ctrl = (if s.irqEn then 2 else 0)

/-- 70_reset_and_hazards.md R271: a write to CTRL with bit 0 = 1, whether or not BUSY = 1, sets every register to its power-on value and
keeps the fault set; the RAMs keep their contents and marks, but the cells that a command in flight could have written lose their marks,
and no other. -/
def Obligations.SoftResetEffects : Prop :=
  ∀ (s : State) (v : Word), v.getLsbD 0 = true → let u := s.busWrite 4 0x004 v
    (∀ r, u.readReg r = State.reset.readReg r) ∧ u.irq = false ∧ u.faults = s.faults ∧
    (s.status.busy = false ∨ (∃ e, decode s.cmd = .error e) →
      u.sram = s.sram ∧ u.bram = s.bram) ∧
    (∀ i, s.status.busy = true → decode s.cmd = .ok i →
      (∀ x, cellGet? u.sram x =
        if s.ops.dstAddr.toNat ≤ x ∧ x < s.ops.dstAddr.toNat +
          (match i with
            | .genTone => s.ops.count.toNat
            | .encodeBit _ => s.cfg.spb
            | .encodeFrame => s.cfg.nsamples s.ops.byteLen.toNat
            | .loadmode _ | .crc16 | .crcCheck | .duration | .goertzel | .decodeBit | .findPreamble | .decodeFrame => 0)
        then none else cellGet? s.sram x) ∧
      (∀ x, cellGet? u.bram x =
        if i = .decodeFrame ∧ s.ops.byteAddr.toNat ≤ x ∧ x < min (s.ops.byteAddr.toNat + 65535) s.params.byteRamBytes
        then none else cellGet? s.bram x))

/-- 60_exceptions.md R250: IRQ is DONE and IRQ_EN. A completion, success or failure, raises it where it is enabled; acceptance, a STATUS
write with bit 1, and soft reset lower it; clearing IRQ_EN masks it without clearing DONE; a dropped write and a bus error leave it. -/
def Obligations.InterruptFollowsDone : Prop :=
  (∀ s : State, s.irq = (s.status.done && s.irqEn)) ∧
  (∀ (i : Instr) (s t : State), exec i s = .next t → t.irq = s.irqEn) ∧
  (∀ (s : State) (w : Word), s.status.busy = false → (s.busWrite 4 0x040 w).irq = false) ∧
  (∀ (s : State) (v : Word), v.getLsbD 1 = true → (s.busWrite 4 0x008 v).irq = false) ∧
  (∀ (s : State) (v : Word), v.getLsbD 0 = true → (s.busWrite 4 0x004 v).irq = false) ∧
  (∀ (s : State) (v : Word), v.getLsbD 0 = false → v.getLsbD 1 = false →
    (s.busWrite 4 0x004 v).irq = false ∧ (s.busWrite 4 0x004 v).status.done = s.status.done) ∧
  (∀ (s : State) (off v : Word), s.status.busy = true → off ≠ 0x004 → off ≠ 0x008 → (s.busWrite 4 off v).irq = s.irq) ∧
  (∀ (s : State) (width : Nat) (off v : Word), ¬ mappedAccess s.params width off →
    (s.busWrite width off v).irq = s.irq ∧ (s.busRead width off).1.irq = s.irq)

/-- The invariant holds after power-on (70_reset_and_hazards.md R270). -/
def Obligations.InvariantHoldsAtReset : Prop := State.reset.Inv

/-- Every step keeps the invariant, from every state that meets it: the sizes stay legal; both RAMs stay in canonical form with no cell
outside them; STATUS stays coherent; with no command in flight LASTOP is CMD's opcode byte and the results of a failure are 0; unless
MODIFIED is set the configuration is the preset MODE names, and so for what the host is shown in the time of R72, which with a command in
flight is the current configuration (log 26); the fault set has no repeats. -/
def Obligations.EveryStepKeepsTheInvariant : Prop :=
  ∀ s t : State, s.Inv → step s = .next t → t.Inv

/-- 30_encoding.md R100, R102, 00_scope.md R6, R9: what the host's lines do whenever it is the host's turn, a command in flight or not
(whose turn it is while BUSY = 1 is the schedule's choice, log 1, which the step uses up): WR and RD are one access each, at their offset
from BASE; BNZ branches just where the variable and the mask share a bit, and stops for want of a value (the model's choice, log 6); HALT
ends the program, and after it, or past the last line (log 13), the host does nothing. An access at a bus address that is no offset from
BASE is none to the block (log 11). -/
def Obligations.HostLinesDoWhatTheySay : Prop :=
  (∀ s : State, s.status.busy = false ∨ s.sched.head? = some .host →
    let u := { s with sched := if s.status.busy then s.sched.tail else s.sched }
    (s.host.halted = true → step s = .next u) ∧
    (s.host.halted = false →
      (s.host.program[s.host.pos]? = none → step s = .next u) ∧
      (∀ width off v, s.host.program[s.host.pos]? = some (.wr width off v) →
        step s = .next ((u.hostWrite width (s.params.base + off.toNat) v).goto (s.host.pos + 1))) ∧
      (∀ width off x, s.host.program[s.host.pos]? = some (.rd width off x) →
        let r := u.hostRead width (s.params.base + off.toNat)
        ∃ t, step s = .next t ∧ cellGet? t.host.vars x = r.2 ∧
          (∀ y, y ≠ x → cellGet? t.host.vars y = cellGet? s.host.vars y) ∧ t.host.pos = s.host.pos + 1 ∧
          t.host.program = s.host.program ∧ t.host.halted = false ∧ t = { r.1 with host := t.host }) ∧
      (∀ x mask line v, s.host.program[s.host.pos]? = some (.bnz x mask line) → cellGet? s.host.vars x = some v →
        step s = .next (u.goto (if v &&& mask = 0 then s.host.pos + 1 else line))) ∧
      (∀ x mask line, s.host.program[s.host.pos]? = some (.bnz x mask line) → cellGet? s.host.vars x = none →
        step s = .fault (.hostNoValue x)) ∧
      (s.host.program[s.host.pos]? = some .halt → step s = .next { u with host := { s.host with halted := true } }))) ∧
  (∀ (s : State) (width : Nat) (off v : Word),
    s.hostWrite width (s.params.base + off.toNat) v = s.busWrite width off v ∧
    s.hostRead width (s.params.base + off.toNat) = s.busRead width off) ∧
  (∀ (s : State) (width address : Nat) (v : Word), (∀ off : Word, address ≠ s.params.base + off.toNat) →
    s.hostWrite width address v = s ∧ s.hostRead width address = (s, none))

/-- 30_encoding.md R102: a run ends at the step at which the host executes HALT, and its end state is the state there, whether or not a
command is in flight (BUSY = 0 there is a premise of a good end, `State.goodFinal`, and not a consequence); there is at most one. (The
turns while BUSY = 1 are the schedule's, log 1.) -/
def Obligations.RunEndsAtTheHaltStep : Prop :=
  (∀ (k : Nat) (s t : State), runToHalt k s = some t ↔
    ∃ (j : Nat) (u : State), j < k ∧ Sys2Proof.core.run j s = .next u ∧ u.host.halted = false ∧
      u.host.program[u.host.pos]? = some .halt ∧ (u.status.busy = false ∨ u.sched.head? = some .host) ∧
      t = { u with host := { u.host with halted := true }, sched := if u.status.busy then u.sched.tail else u.sched }) ∧
  (∀ (k m : Nat) (s t u : State), runToHalt k s = some t → runToHalt m s = some u → t = u)
end

