-- ==== Sys2Proof/Laws/Cells.lean ====
section
/-! SUPPORT. The laws of memories (20_memory.md R61, R68): a read after a write, a write and an erasure leave every other cell
alone, and both keep the canonical form. -/

namespace Sys2Proof.Machine

variable {α : Type}

@[simp] theorem cellGet?_nil (a : Nat) : cellGet? ([] : List (Nat × α)) a = none := rfl

theorem cellGet?_append (m m' : List (Nat × α)) (a : Nat) :
    cellGet? (m ++ m') a = (cellGet? m a).or (cellGet? m' a) := by
  induction m with
  | nil => rfl
  | cons c m ih => by_cases h : c.1 = a <;> simp [cellGet?, h, ih]

theorem cellGet?_filter (m : List (Nat × α)) (p : Nat → Bool) (a : Nat) :
    cellGet? (m.filter (fun c => p c.1)) a = if p a then cellGet? m a else none := by
  induction m with
  | nil => simp [cellGet?]
  | cons c m ih =>
    by_cases h : c.1 = a
    · subst h
      by_cases hp : p c.1 <;> simp [List.filter, hp, cellGet?, ih]
    · by_cases hp : p c.1 <;> simp [List.filter, hp, cellGet?, h, ih]

theorem cellGet?_run (vals : List α) : ∀ (a x : Nat),
    cellGet? (cellRun a vals) x = if a ≤ x then vals[x - a]? else none := by
  induction vals with
  | nil => intro a x; simp [cellRun]
  | cons v vals ih =>
    intro a x
    rcases Nat.lt_trichotomy x a with h | h | h
    · have h1 : a ≠ x := by omega
      have h2 : ¬ a + 1 ≤ x := by omega
      have h3 : ¬ a ≤ x := by omega
      simp [cellRun, cellGet?, ih, h1, h2, h3]
    · subst h; simp [cellRun, cellGet?]
    · obtain ⟨d, rfl⟩ : ∃ d, x = a + 1 + d := ⟨x - (a + 1), by omega⟩
      have h1 : a ≠ a + 1 + d := by omega
      have h2 : a + 1 + d - a = d + 1 := by omega
      have h3 : a + 1 + d - (a + 1) = d := by omega
      have h4 : a ≤ a + 1 + d := by omega
      simp [cellRun, cellGet?, ih, h1, h2, h3, h4]

/-- A read after a write: inside the written cells the value written, elsewhere what was there. -/
theorem cellGet?_put (m : List (Nat × α)) (a : Nat) (vals : List α) (x : Nat) :
    cellGet? (cellsPut m a vals) x = if a ≤ x ∧ x < a + vals.length then vals[x - a]? else cellGet? m x := by
  simp only [cellsPut, cellGet?_append, cellGet?_run]
  rw [cellGet?_filter m (fun k => k < a), cellGet?_filter m (fun k => a + vals.length ≤ k)]
  by_cases h1 : x < a
  · have h2 : ¬ a ≤ x := by omega
    have h3 : ¬ a + vals.length ≤ x := by omega
    simp [h1, h2, h3]
  · have h2 : a ≤ x := by omega
    by_cases h3 : x < a + vals.length
    · have h4 : ¬ a + vals.length ≤ x := by omega
      simp [h1, h2, h3, h4]
    · have h4 : a + vals.length ≤ x := by omega
      have h5 : vals[x - a]? = none := by simp; omega
      simp [h1, h2, h3, h4, h5]

/-- A read of a written cell. -/
theorem cellGet?_put_at (m : List (Nat × α)) (a : Nat) (vals : List α) (j : Nat) (h : j < vals.length) :
    cellGet? (cellsPut m a vals) (a + j) = some vals[j] := by
  rw [cellGet?_put, if_pos ⟨by omega, by omega⟩]
  simp [h]

/-- A write leaves every other cell alone. -/
theorem cellGet?_put_outside (m : List (Nat × α)) (a : Nat) (vals : List α) (x : Nat)
    (h : x < a ∨ a + vals.length ≤ x) : cellGet? (cellsPut m a vals) x = cellGet? m x := by
  rw [cellGet?_put, if_neg (by omega)]

/-- A read after an erasure. -/
theorem cellGet?_erase (m : List (Nat × α)) (a n x : Nat) :
    cellGet? (cellsErase m a n) x = if a ≤ x ∧ x < a + n then none else cellGet? m x := by
  unfold cellsErase
  rw [cellGet?_filter m (fun k => k < a || a + n ≤ k)]
  by_cases h : a ≤ x ∧ x < a + n
  · have h1 : ¬ x < a := by omega
    have h2 : ¬ a + n ≤ x := by omega
    simp [h, h1, h2]
  · have h1 : x < a ∨ a + n ≤ x := by omega
    simp [h, h1]

/-- The canonical form in the order of the list: rising from `lo`, below `size`. -/
theorem Memory.rising_iff (size : Nat) : ∀ (lo : Nat) (m : List (Nat × α)),
    Memory.rising size lo m = true ↔
      (m.map (·.1)).Pairwise (· < ·) ∧ ∀ c ∈ m, lo ≤ c.1 ∧ c.1 < size
  | lo, [] => by simp [Memory.rising]
  | lo, (k, v) :: m => by
    simp only [Memory.rising, Bool.and_eq_true, decide_eq_true_eq, Memory.rising_iff size (k + 1) m,
      List.map_cons, List.pairwise_cons, List.mem_map, List.mem_cons, forall_exists_index, and_imp]
    constructor
    · rintro ⟨⟨h1, h2⟩, h3, h4⟩
      refine ⟨⟨?_, h3⟩, ?_⟩
      · rintro x c hc rfl
        have := h4 c hc
        omega
      · rintro c (rfl | hc)
        · exact ⟨h1, h2⟩
        · have := h4 c hc
          omega
    · rintro ⟨⟨h1, h2⟩, h3⟩
      have h0 := h3 (k, v) (.inl rfl)
      refine ⟨⟨h0.1, h0.2⟩, h2, fun c hc => ?_⟩
      have := h1 c.1 c hc rfl
      have := h3 c (.inr hc)
      omega

theorem Memory.wf_iff (size : Nat) (m : List (Nat × α)) :
    Memory.wf size m = true ↔ (m.map (·.1)).Pairwise (· < ·) ∧ ∀ c ∈ m, c.1 < size := by
  simp [Memory.wf, Memory.rising_iff]

@[simp] theorem Memory.wf_nil (size : Nat) : Memory.wf size ([] : List (Nat × α)) = true := rfl

theorem Memory.wf_filter {size : Nat} {m : List (Nat × α)} (p : Nat × α → Bool) (h : Memory.wf size m = true) :
    Memory.wf size (m.filter p) = true := by
  rw [Memory.wf_iff] at h ⊢
  exact ⟨h.1.sublist (List.filter_sublist.map _), fun c hc => h.2 c (List.mem_of_mem_filter hc)⟩

/-- An erasure keeps the canonical form. -/
theorem Memory.wf_erase {size : Nat} {m : List (Nat × α)} (a n : Nat) (h : Memory.wf size m = true) :
    Memory.wf size (cellsErase m a n) = true := Memory.wf_filter _ h

theorem cellRun_keys (vals : List α) : ∀ a, (cellRun a vals).map (·.1) = List.range' a vals.length := by
  induction vals with
  | nil => intro a; rfl
  | cons v vals ih => intro a; simp [cellRun, ih, List.range'_succ]

/-- A write inside the memory keeps the canonical form. -/
theorem Memory.wf_put {size : Nat} {m : List (Nat × α)} (a : Nat) (vals : List α) (h : Memory.wf size m = true)
    (hin : a + vals.length ≤ size) : Memory.wf size (cellsPut m a vals) = true := by
  rw [Memory.wf_iff] at h ⊢
  obtain ⟨hs, hb⟩ := h
  have hrun : ∀ c ∈ cellRun a vals, a ≤ c.1 ∧ c.1 < a + vals.length := fun c hc => by
    have : c.1 ∈ (cellRun a vals).map (·.1) := List.mem_map_of_mem hc
    rw [cellRun_keys, List.mem_range'_1] at this
    exact this
  constructor
  · rw [cellsPut, List.map_append, List.map_append, List.pairwise_append, List.pairwise_append, cellRun_keys]
    refine ⟨hs.sublist (List.filter_sublist.map _), ⟨List.pairwise_lt_range', hs.sublist (List.filter_sublist.map _), ?_⟩, ?_⟩
    · intro x hx y hy
      rw [List.mem_range'_1] at hx
      obtain ⟨c, hc, rfl⟩ := List.mem_map.1 hy
      have := (List.mem_filter.1 hc).2
      simp only [decide_eq_true_eq] at this
      omega
    · intro x hx y hy
      obtain ⟨c, hc, rfl⟩ := List.mem_map.1 hx
      have hlt := (List.mem_filter.1 hc).2
      simp only [decide_eq_true_eq] at hlt
      rcases List.mem_append.1 hy with hy | hy
      · rw [List.mem_range'_1] at hy; omega
      · obtain ⟨d, hd, rfl⟩ := List.mem_map.1 hy
        have := (List.mem_filter.1 hd).2
        simp only [decide_eq_true_eq] at this
        omega
  · intro c hc
    rcases List.mem_append.1 hc with hc | hc
    · exact hb c (List.mem_of_mem_filter hc)
    · rcases List.mem_append.1 hc with hc | hc
      · have := hrun c hc; omega
      · exact hb c (List.mem_of_mem_filter hc)

@[simp] theorem cellsGet_length (m : List (Nat × α)) (a n : Nat) : (cellsGet m a n).length = n := by
  simp [cellsGet]

@[simp] theorem fillFrom_length (free : Nat → α) : ∀ (os : List (Option α)) (a : Nat), (fillFrom free a os).length = os.length
  | [], _ => rfl
  | _ :: os, a => by simp [fillFrom, fillFrom_length free os]

/-- Cells that all hold a value are read as those values. -/
theorem fillFrom_map_some (free : Nat → α) : ∀ (vals : List α) (a : Nat), fillFrom free a (vals.map some) = vals
  | [], _ => rfl
  | v :: vals, a => by simp [fillFrom, fillFrom_map_some free vals]

theorem missingFrom_map_some : ∀ (vals : List α) (a : Nat), missingFrom a (vals.map some) = []
  | [], _ => rfl
  | v :: vals, a => by simp [missingFrom, missingFrom_map_some vals]

/-- Which cells are missing. -/
theorem mem_missingFrom : ∀ (os : List (Option α)) (a x : Nat),
    x ∈ missingFrom a os ↔ ∃ j, x = a + j ∧ os[j]? = some none
  | [], a, x => by simp [missingFrom]
  | o :: os, a, x => by
    have ih := mem_missingFrom os (a + 1) x
    have key : (∃ j, x = a + j ∧ (o :: os)[j]? = some none) ↔ (x = a ∧ o = none) ∨ ∃ j, x = a + 1 + j ∧ os[j]? = some none := by
      constructor
      · rintro ⟨j, rfl, hj⟩
        cases j with
        | zero => exact .inl ⟨rfl, by simpa using hj⟩
        | succ j => exact .inr ⟨j, by omega, by simpa using hj⟩
      · rintro (⟨rfl, rfl⟩ | ⟨j, rfl, hj⟩)
        · exact ⟨0, rfl, by simp⟩
        · exact ⟨j + 1, by omega, by simpa using hj⟩
    rw [key, ← ih]
    cases o <;> simp [missingFrom]

theorem mem_missingFrom_cellsGet (m : List (Nat × α)) (a n x : Nat) :
    x ∈ missingFrom a (cellsGet m a n) ↔ a ≤ x ∧ x < a + n ∧ cellGet? m x = none := by
  rw [mem_missingFrom]
  constructor
  · rintro ⟨j, rfl, hj⟩
    by_cases h : j < n
    · simp [cellsGet, h] at hj
      exact ⟨by omega, by omega, hj⟩
    · simp [cellsGet, h] at hj
  · rintro ⟨h1, h2, h3⟩
    refine ⟨x - a, by omega, ?_⟩
    have : x - a < n := by omega
    have h4 : a + (x - a) = x := by omega
    simp [cellsGet, this, h4, h3]

/-- The cells that hold a list of values are read as that list. -/
theorem cellsGet_of_holds (m : List (Nat × α)) (a : Nat) (vals : List α)
    (h : ∀ (j : Nat) (hj : j < vals.length), cellGet? m (a + j) = some vals[j]) :
    cellsGet m a vals.length = vals.map some := by
  apply List.ext_getElem (by simp)
  intro i h1 h2
  simp only [cellsGet_length] at h1
  simp [cellsGet, h i h1]

end Sys2Proof.Machine
end

