-- ==== Sys2Proof/Laws/State.lean ====
section
/-! SUPPORT. One lemma per field per update of State, so that no later proof unfolds a record update. -/

namespace Sys2Proof.Machine

@[simp] theorem State.accept_params (s : State) (w : Word) : (s.accept w).params = s.params := rfl
@[simp] theorem State.accept_status (s : State) (w : Word) : (s.accept w).status = s.status.accept := rfl
@[simp] theorem State.accept_irqEn (s : State) (w : Word) : (s.accept w).irqEn = s.irqEn := rfl
@[simp] theorem State.accept_mode (s : State) (w : Word) : (s.accept w).mode = s.mode := rfl
@[simp] theorem State.accept_cfg (s : State) (w : Word) : (s.accept w).cfg = s.cfg := rfl
@[simp] theorem State.accept_cmd (s : State) (w : Word) : (s.accept w).cmd = w := rfl
@[simp] theorem State.accept_ops (s : State) (w : Word) : (s.accept w).ops = s.ops := rfl
@[simp] theorem State.accept_results (s : State) (w : Word) : (s.accept w).results = s.results := rfl
@[simp] theorem State.accept_sram (s : State) (w : Word) : (s.accept w).sram = s.sram := rfl
@[simp] theorem State.accept_bram (s : State) (w : Word) : (s.accept w).bram = s.bram := rfl
@[simp] theorem State.accept_before (s : State) (w : Word) : (s.accept w).before = some (Before.mk s.cfg s.mode) := rfl
@[simp] theorem State.accept_faults (s : State) (w : Word) : (s.accept w).faults = s.faults := rfl
@[simp] theorem State.accept_draws (s : State) (w : Word) : (s.accept w).draws = s.draws := rfl
@[simp] theorem State.accept_host (s : State) (w : Word) : (s.accept w).host = s.host := rfl
@[simp] theorem State.accept_sched (s : State) (w : Word) : (s.accept w).sched = s.sched := rfl

@[simp] theorem State.complete_params (s : State) (r0 r1 r2 : Nat) (f : F64) : (s.complete r0 r1 r2 f).params = s.params := rfl
@[simp] theorem State.complete_status (s : State) (r0 r1 r2 : Nat) (f : F64) : (s.complete r0 r1 r2 f).status = s.status.finish .none (opField s.cmd) := rfl
@[simp] theorem State.complete_irqEn (s : State) (r0 r1 r2 : Nat) (f : F64) : (s.complete r0 r1 r2 f).irqEn = s.irqEn := rfl
@[simp] theorem State.complete_mode (s : State) (r0 r1 r2 : Nat) (f : F64) : (s.complete r0 r1 r2 f).mode = s.mode := rfl
@[simp] theorem State.complete_cfg (s : State) (r0 r1 r2 : Nat) (f : F64) : (s.complete r0 r1 r2 f).cfg = s.cfg := rfl
@[simp] theorem State.complete_cmd (s : State) (r0 r1 r2 : Nat) (f : F64) : (s.complete r0 r1 r2 f).cmd = s.cmd := rfl
@[simp] theorem State.complete_ops (s : State) (r0 r1 r2 : Nat) (f : F64) : (s.complete r0 r1 r2 f).ops = s.ops := rfl
@[simp] theorem State.complete_results (s : State) (r0 r1 r2 : Nat) (f : F64) : (s.complete r0 r1 r2 f).results = Results.of r0 r1 r2 f := rfl
@[simp] theorem State.complete_sram (s : State) (r0 r1 r2 : Nat) (f : F64) : (s.complete r0 r1 r2 f).sram = s.sram := rfl
@[simp] theorem State.complete_bram (s : State) (r0 r1 r2 : Nat) (f : F64) : (s.complete r0 r1 r2 f).bram = s.bram := rfl
@[simp] theorem State.complete_before (s : State) (r0 r1 r2 : Nat) (f : F64) : (s.complete r0 r1 r2 f).before = s.before := rfl
@[simp] theorem State.complete_faults (s : State) (r0 r1 r2 : Nat) (f : F64) : (s.complete r0 r1 r2 f).faults = s.faults := rfl
@[simp] theorem State.complete_draws (s : State) (r0 r1 r2 : Nat) (f : F64) : (s.complete r0 r1 r2 f).draws = s.draws := rfl
@[simp] theorem State.complete_host (s : State) (r0 r1 r2 : Nat) (f : F64) : (s.complete r0 r1 r2 f).host = s.host := rfl
@[simp] theorem State.complete_sched (s : State) (r0 r1 r2 : Nat) (f : F64) : (s.complete r0 r1 r2 f).sched = s.sched := rfl

@[simp] theorem State.fail_params (s : State) (c : ErrCode) : (s.fail c).params = s.params := rfl
@[simp] theorem State.fail_status (s : State) (c : ErrCode) : (s.fail c).status = s.status.finish c (opField s.cmd) := rfl
@[simp] theorem State.fail_irqEn (s : State) (c : ErrCode) : (s.fail c).irqEn = s.irqEn := rfl
@[simp] theorem State.fail_mode (s : State) (c : ErrCode) : (s.fail c).mode = s.mode := rfl
@[simp] theorem State.fail_cfg (s : State) (c : ErrCode) : (s.fail c).cfg = s.cfg := rfl
@[simp] theorem State.fail_cmd (s : State) (c : ErrCode) : (s.fail c).cmd = s.cmd := rfl
@[simp] theorem State.fail_ops (s : State) (c : ErrCode) : (s.fail c).ops = s.ops := rfl
@[simp] theorem State.fail_results (s : State) (c : ErrCode) : (s.fail c).results = Results.zero := rfl
@[simp] theorem State.fail_sram (s : State) (c : ErrCode) : (s.fail c).sram = s.sram := rfl
@[simp] theorem State.fail_bram (s : State) (c : ErrCode) : (s.fail c).bram = s.bram := rfl
@[simp] theorem State.fail_before (s : State) (c : ErrCode) : (s.fail c).before = s.before := rfl
@[simp] theorem State.fail_faults (s : State) (c : ErrCode) : (s.fail c).faults = s.faults := rfl
@[simp] theorem State.fail_draws (s : State) (c : ErrCode) : (s.fail c).draws = s.draws := rfl
@[simp] theorem State.fail_host (s : State) (c : ErrCode) : (s.fail c).host = s.host := rfl
@[simp] theorem State.fail_sched (s : State) (c : ErrCode) : (s.fail c).sched = s.sched := rfl

@[simp] theorem State.acknowledge_params (s : State) (v : Word) : (s.acknowledge v).params = s.params := rfl
@[simp] theorem State.acknowledge_status (s : State) (v : Word) : (s.acknowledge v).status = s.status.writeOneToClear v := rfl
@[simp] theorem State.acknowledge_irqEn (s : State) (v : Word) : (s.acknowledge v).irqEn = s.irqEn := rfl
@[simp] theorem State.acknowledge_mode (s : State) (v : Word) : (s.acknowledge v).mode = s.mode := rfl
@[simp] theorem State.acknowledge_cfg (s : State) (v : Word) : (s.acknowledge v).cfg = s.cfg := rfl
@[simp] theorem State.acknowledge_cmd (s : State) (v : Word) : (s.acknowledge v).cmd = s.cmd := rfl
@[simp] theorem State.acknowledge_ops (s : State) (v : Word) : (s.acknowledge v).ops = s.ops := rfl
@[simp] theorem State.acknowledge_results (s : State) (v : Word) : (s.acknowledge v).results = s.results := rfl
@[simp] theorem State.acknowledge_sram (s : State) (v : Word) : (s.acknowledge v).sram = s.sram := rfl
@[simp] theorem State.acknowledge_bram (s : State) (v : Word) : (s.acknowledge v).bram = s.bram := rfl
@[simp] theorem State.acknowledge_before (s : State) (v : Word) : (s.acknowledge v).before = s.before := rfl
@[simp] theorem State.acknowledge_faults (s : State) (v : Word) : (s.acknowledge v).faults = s.faults := rfl
@[simp] theorem State.acknowledge_draws (s : State) (v : Word) : (s.acknowledge v).draws = s.draws := rfl
@[simp] theorem State.acknowledge_host (s : State) (v : Word) : (s.acknowledge v).host = s.host := rfl
@[simp] theorem State.acknowledge_sched (s : State) (v : Word) : (s.acknowledge v).sched = s.sched := rfl

@[simp] theorem State.writeSamples_params (s : State) (a : Nat) (xs : List F32) : (s.writeSamples a xs).params = s.params := rfl
@[simp] theorem State.writeSamples_status (s : State) (a : Nat) (xs : List F32) : (s.writeSamples a xs).status = s.status := rfl
@[simp] theorem State.writeSamples_irqEn (s : State) (a : Nat) (xs : List F32) : (s.writeSamples a xs).irqEn = s.irqEn := rfl
@[simp] theorem State.writeSamples_mode (s : State) (a : Nat) (xs : List F32) : (s.writeSamples a xs).mode = s.mode := rfl
@[simp] theorem State.writeSamples_cfg (s : State) (a : Nat) (xs : List F32) : (s.writeSamples a xs).cfg = s.cfg := rfl
@[simp] theorem State.writeSamples_cmd (s : State) (a : Nat) (xs : List F32) : (s.writeSamples a xs).cmd = s.cmd := rfl
@[simp] theorem State.writeSamples_ops (s : State) (a : Nat) (xs : List F32) : (s.writeSamples a xs).ops = s.ops := rfl
@[simp] theorem State.writeSamples_results (s : State) (a : Nat) (xs : List F32) : (s.writeSamples a xs).results = s.results := rfl
@[simp] theorem State.writeSamples_sram (s : State) (a : Nat) (xs : List F32) : (s.writeSamples a xs).sram = cellsPut s.sram a xs := rfl
@[simp] theorem State.writeSamples_bram (s : State) (a : Nat) (xs : List F32) : (s.writeSamples a xs).bram = s.bram := rfl
@[simp] theorem State.writeSamples_before (s : State) (a : Nat) (xs : List F32) : (s.writeSamples a xs).before = s.before := rfl
@[simp] theorem State.writeSamples_faults (s : State) (a : Nat) (xs : List F32) : (s.writeSamples a xs).faults = s.faults := rfl
@[simp] theorem State.writeSamples_draws (s : State) (a : Nat) (xs : List F32) : (s.writeSamples a xs).draws = s.draws := rfl
@[simp] theorem State.writeSamples_host (s : State) (a : Nat) (xs : List F32) : (s.writeSamples a xs).host = s.host := rfl
@[simp] theorem State.writeSamples_sched (s : State) (a : Nat) (xs : List F32) : (s.writeSamples a xs).sched = s.sched := rfl

@[simp] theorem State.writeBytes_params (s : State) (a : Nat) (bs : List Byte) : (s.writeBytes a bs).params = s.params := rfl
@[simp] theorem State.writeBytes_status (s : State) (a : Nat) (bs : List Byte) : (s.writeBytes a bs).status = s.status := rfl
@[simp] theorem State.writeBytes_irqEn (s : State) (a : Nat) (bs : List Byte) : (s.writeBytes a bs).irqEn = s.irqEn := rfl
@[simp] theorem State.writeBytes_mode (s : State) (a : Nat) (bs : List Byte) : (s.writeBytes a bs).mode = s.mode := rfl
@[simp] theorem State.writeBytes_cfg (s : State) (a : Nat) (bs : List Byte) : (s.writeBytes a bs).cfg = s.cfg := rfl
@[simp] theorem State.writeBytes_cmd (s : State) (a : Nat) (bs : List Byte) : (s.writeBytes a bs).cmd = s.cmd := rfl
@[simp] theorem State.writeBytes_ops (s : State) (a : Nat) (bs : List Byte) : (s.writeBytes a bs).ops = s.ops := rfl
@[simp] theorem State.writeBytes_results (s : State) (a : Nat) (bs : List Byte) : (s.writeBytes a bs).results = s.results := rfl
@[simp] theorem State.writeBytes_sram (s : State) (a : Nat) (bs : List Byte) : (s.writeBytes a bs).sram = s.sram := rfl
@[simp] theorem State.writeBytes_bram (s : State) (a : Nat) (bs : List Byte) : (s.writeBytes a bs).bram = cellsPut s.bram a bs := rfl
@[simp] theorem State.writeBytes_before (s : State) (a : Nat) (bs : List Byte) : (s.writeBytes a bs).before = s.before := rfl
@[simp] theorem State.writeBytes_faults (s : State) (a : Nat) (bs : List Byte) : (s.writeBytes a bs).faults = s.faults := rfl
@[simp] theorem State.writeBytes_draws (s : State) (a : Nat) (bs : List Byte) : (s.writeBytes a bs).draws = s.draws := rfl
@[simp] theorem State.writeBytes_host (s : State) (a : Nat) (bs : List Byte) : (s.writeBytes a bs).host = s.host := rfl
@[simp] theorem State.writeBytes_sched (s : State) (a : Nat) (bs : List Byte) : (s.writeBytes a bs).sched = s.sched := rfl

@[simp] theorem State.loadPreset_params (s : State) (m : Mode) : (s.loadPreset m).params = s.params := rfl
@[simp] theorem State.loadPreset_status (s : State) (m : Mode) : (s.loadPreset m).status = s.status := rfl
@[simp] theorem State.loadPreset_irqEn (s : State) (m : Mode) : (s.loadPreset m).irqEn = s.irqEn := rfl
@[simp] theorem State.loadPreset_mode (s : State) (m : Mode) : (s.loadPreset m).mode = ModeReg.mk m false := rfl
@[simp] theorem State.loadPreset_cfg (s : State) (m : Mode) : (s.loadPreset m).cfg = m.config := rfl
@[simp] theorem State.loadPreset_cmd (s : State) (m : Mode) : (s.loadPreset m).cmd = s.cmd := rfl
@[simp] theorem State.loadPreset_ops (s : State) (m : Mode) : (s.loadPreset m).ops = s.ops := rfl
@[simp] theorem State.loadPreset_results (s : State) (m : Mode) : (s.loadPreset m).results = s.results := rfl
@[simp] theorem State.loadPreset_sram (s : State) (m : Mode) : (s.loadPreset m).sram = s.sram := rfl
@[simp] theorem State.loadPreset_bram (s : State) (m : Mode) : (s.loadPreset m).bram = s.bram := rfl
@[simp] theorem State.loadPreset_before (s : State) (m : Mode) : (s.loadPreset m).before = s.before := rfl
@[simp] theorem State.loadPreset_faults (s : State) (m : Mode) : (s.loadPreset m).faults = s.faults := rfl
@[simp] theorem State.loadPreset_draws (s : State) (m : Mode) : (s.loadPreset m).draws = s.draws := rfl
@[simp] theorem State.loadPreset_host (s : State) (m : Mode) : (s.loadPreset m).host = s.host := rfl
@[simp] theorem State.loadPreset_sched (s : State) (m : Mode) : (s.loadPreset m).sched = s.sched := rfl

@[simp] theorem State.recordFaults_params (s : State) (fs : List ModelFault) : (s.recordFaults fs).params = s.params := rfl
@[simp] theorem State.recordFaults_status (s : State) (fs : List ModelFault) : (s.recordFaults fs).status = s.status := rfl
@[simp] theorem State.recordFaults_irqEn (s : State) (fs : List ModelFault) : (s.recordFaults fs).irqEn = s.irqEn := rfl
@[simp] theorem State.recordFaults_mode (s : State) (fs : List ModelFault) : (s.recordFaults fs).mode = s.mode := rfl
@[simp] theorem State.recordFaults_cfg (s : State) (fs : List ModelFault) : (s.recordFaults fs).cfg = s.cfg := rfl
@[simp] theorem State.recordFaults_cmd (s : State) (fs : List ModelFault) : (s.recordFaults fs).cmd = s.cmd := rfl
@[simp] theorem State.recordFaults_ops (s : State) (fs : List ModelFault) : (s.recordFaults fs).ops = s.ops := rfl
@[simp] theorem State.recordFaults_results (s : State) (fs : List ModelFault) : (s.recordFaults fs).results = s.results := rfl
@[simp] theorem State.recordFaults_sram (s : State) (fs : List ModelFault) : (s.recordFaults fs).sram = s.sram := rfl
@[simp] theorem State.recordFaults_bram (s : State) (fs : List ModelFault) : (s.recordFaults fs).bram = s.bram := rfl
@[simp] theorem State.recordFaults_before (s : State) (fs : List ModelFault) : (s.recordFaults fs).before = s.before := rfl
@[simp] theorem State.recordFaults_faults (s : State) (fs : List ModelFault) : (s.recordFaults fs).faults = fs.foldl addFault s.faults := rfl
@[simp] theorem State.recordFaults_draws (s : State) (fs : List ModelFault) : (s.recordFaults fs).draws = s.draws := rfl
@[simp] theorem State.recordFaults_host (s : State) (fs : List ModelFault) : (s.recordFaults fs).host = s.host := rfl
@[simp] theorem State.recordFaults_sched (s : State) (fs : List ModelFault) : (s.recordFaults fs).sched = s.sched := rfl

@[simp] theorem State.resetRegisters_params (s : State) : (s.resetRegisters).params = s.params := rfl
@[simp] theorem State.resetRegisters_status (s : State) : (s.resetRegisters).status = Status.reset := rfl
@[simp] theorem State.resetRegisters_irqEn (s : State) : (s.resetRegisters).irqEn = false := rfl
@[simp] theorem State.resetRegisters_mode (s : State) : (s.resetRegisters).mode = ModeReg.reset := rfl
@[simp] theorem State.resetRegisters_cfg (s : State) : (s.resetRegisters).cfg = FskConfig.reset := rfl
@[simp] theorem State.resetRegisters_cmd (s : State) : (s.resetRegisters).cmd = 0 := rfl
@[simp] theorem State.resetRegisters_ops (s : State) : (s.resetRegisters).ops = OperandRegs.reset := rfl
@[simp] theorem State.resetRegisters_results (s : State) : (s.resetRegisters).results = Results.zero := rfl
@[simp] theorem State.resetRegisters_sram (s : State) : (s.resetRegisters).sram = s.sram := rfl
@[simp] theorem State.resetRegisters_bram (s : State) : (s.resetRegisters).bram = s.bram := rfl
@[simp] theorem State.resetRegisters_before (s : State) : (s.resetRegisters).before = none := rfl
@[simp] theorem State.resetRegisters_faults (s : State) : (s.resetRegisters).faults = s.faults := rfl
@[simp] theorem State.resetRegisters_draws (s : State) : (s.resetRegisters).draws = s.draws := rfl
@[simp] theorem State.resetRegisters_host (s : State) : (s.resetRegisters).host = s.host := rfl
@[simp] theorem State.resetRegisters_sched (s : State) : (s.resetRegisters).sched = s.sched := rfl

@[simp] theorem State.writeCfg_params (s : State) (f : FskConfig → FskConfig) : (s.writeCfg f).params = s.params := rfl
@[simp] theorem State.writeCfg_status (s : State) (f : FskConfig → FskConfig) : (s.writeCfg f).status = s.status := rfl
@[simp] theorem State.writeCfg_irqEn (s : State) (f : FskConfig → FskConfig) : (s.writeCfg f).irqEn = s.irqEn := rfl
@[simp] theorem State.writeCfg_mode (s : State) (f : FskConfig → FskConfig) : (s.writeCfg f).mode = ModeReg.mk s.mode.preset true := rfl
@[simp] theorem State.writeCfg_cfg (s : State) (f : FskConfig → FskConfig) : (s.writeCfg f).cfg = f s.cfg := rfl
@[simp] theorem State.writeCfg_cmd (s : State) (f : FskConfig → FskConfig) : (s.writeCfg f).cmd = s.cmd := rfl
@[simp] theorem State.writeCfg_ops (s : State) (f : FskConfig → FskConfig) : (s.writeCfg f).ops = s.ops := rfl
@[simp] theorem State.writeCfg_results (s : State) (f : FskConfig → FskConfig) : (s.writeCfg f).results = s.results := rfl
@[simp] theorem State.writeCfg_sram (s : State) (f : FskConfig → FskConfig) : (s.writeCfg f).sram = s.sram := rfl
@[simp] theorem State.writeCfg_bram (s : State) (f : FskConfig → FskConfig) : (s.writeCfg f).bram = s.bram := rfl
@[simp] theorem State.writeCfg_before (s : State) (f : FskConfig → FskConfig) : (s.writeCfg f).before = s.before.map (·.write f) := rfl
@[simp] theorem State.writeCfg_faults (s : State) (f : FskConfig → FskConfig) : (s.writeCfg f).faults = s.faults := rfl
@[simp] theorem State.writeCfg_draws (s : State) (f : FskConfig → FskConfig) : (s.writeCfg f).draws = s.draws := rfl
@[simp] theorem State.writeCfg_host (s : State) (f : FskConfig → FskConfig) : (s.writeCfg f).host = s.host := rfl
@[simp] theorem State.writeCfg_sched (s : State) (f : FskConfig → FskConfig) : (s.writeCfg f).sched = s.sched := rfl

@[simp] theorem State.reject_params (s : State) : (s.reject).params = s.params := rfl
@[simp] theorem State.reject_status (s : State) : (s.reject).status = s.status.reject := rfl
@[simp] theorem State.reject_irqEn (s : State) : (s.reject).irqEn = s.irqEn := rfl
@[simp] theorem State.reject_mode (s : State) : (s.reject).mode = s.mode := rfl
@[simp] theorem State.reject_cfg (s : State) : (s.reject).cfg = s.cfg := rfl
@[simp] theorem State.reject_cmd (s : State) : (s.reject).cmd = s.cmd := rfl
@[simp] theorem State.reject_ops (s : State) : (s.reject).ops = s.ops := rfl
@[simp] theorem State.reject_results (s : State) : (s.reject).results = s.results := rfl
@[simp] theorem State.reject_sram (s : State) : (s.reject).sram = s.sram := rfl
@[simp] theorem State.reject_bram (s : State) : (s.reject).bram = s.bram := rfl
@[simp] theorem State.reject_before (s : State) : (s.reject).before = s.before := rfl
@[simp] theorem State.reject_faults (s : State) : (s.reject).faults = s.faults := rfl
@[simp] theorem State.reject_draws (s : State) : (s.reject).draws = s.draws := rfl
@[simp] theorem State.reject_host (s : State) : (s.reject).host = s.host := rfl
@[simp] theorem State.reject_sched (s : State) : (s.reject).sched = s.sched := rfl

@[simp] theorem State.goto_params (s : State) (line : Nat) : (s.goto line).params = s.params := rfl
@[simp] theorem State.goto_status (s : State) (line : Nat) : (s.goto line).status = s.status := rfl
@[simp] theorem State.goto_irqEn (s : State) (line : Nat) : (s.goto line).irqEn = s.irqEn := rfl
@[simp] theorem State.goto_mode (s : State) (line : Nat) : (s.goto line).mode = s.mode := rfl
@[simp] theorem State.goto_cfg (s : State) (line : Nat) : (s.goto line).cfg = s.cfg := rfl
@[simp] theorem State.goto_cmd (s : State) (line : Nat) : (s.goto line).cmd = s.cmd := rfl
@[simp] theorem State.goto_ops (s : State) (line : Nat) : (s.goto line).ops = s.ops := rfl
@[simp] theorem State.goto_results (s : State) (line : Nat) : (s.goto line).results = s.results := rfl
@[simp] theorem State.goto_sram (s : State) (line : Nat) : (s.goto line).sram = s.sram := rfl
@[simp] theorem State.goto_bram (s : State) (line : Nat) : (s.goto line).bram = s.bram := rfl
@[simp] theorem State.goto_before (s : State) (line : Nat) : (s.goto line).before = s.before := rfl
@[simp] theorem State.goto_faults (s : State) (line : Nat) : (s.goto line).faults = s.faults := rfl
@[simp] theorem State.goto_draws (s : State) (line : Nat) : (s.goto line).draws = s.draws := rfl
@[simp] theorem State.goto_host (s : State) (line : Nat) : (s.goto line).host = HostAgent.mk s.host.program line s.host.vars s.host.halted := rfl
@[simp] theorem State.goto_sched (s : State) (line : Nat) : (s.goto line).sched = s.sched := rfl

@[simp] theorem State.halt_params (s : State) : (s.halt).params = s.params := rfl
@[simp] theorem State.halt_status (s : State) : (s.halt).status = s.status := rfl
@[simp] theorem State.halt_irqEn (s : State) : (s.halt).irqEn = s.irqEn := rfl
@[simp] theorem State.halt_mode (s : State) : (s.halt).mode = s.mode := rfl
@[simp] theorem State.halt_cfg (s : State) : (s.halt).cfg = s.cfg := rfl
@[simp] theorem State.halt_cmd (s : State) : (s.halt).cmd = s.cmd := rfl
@[simp] theorem State.halt_ops (s : State) : (s.halt).ops = s.ops := rfl
@[simp] theorem State.halt_results (s : State) : (s.halt).results = s.results := rfl
@[simp] theorem State.halt_sram (s : State) : (s.halt).sram = s.sram := rfl
@[simp] theorem State.halt_bram (s : State) : (s.halt).bram = s.bram := rfl
@[simp] theorem State.halt_before (s : State) : (s.halt).before = s.before := rfl
@[simp] theorem State.halt_faults (s : State) : (s.halt).faults = s.faults := rfl
@[simp] theorem State.halt_draws (s : State) : (s.halt).draws = s.draws := rfl
@[simp] theorem State.halt_host (s : State) : (s.halt).host = HostAgent.mk s.host.program s.host.pos s.host.vars true := rfl
@[simp] theorem State.halt_sched (s : State) : (s.halt).sched = s.sched := rfl

@[simp] theorem State.afterRead_params (s : State) (fs : List ModelFault) : (s.afterRead fs).params = s.params := by unfold State.afterRead; split <;> rfl
@[simp] theorem State.afterRead_status (s : State) (fs : List ModelFault) : (s.afterRead fs).status = s.status := by unfold State.afterRead; split <;> rfl
@[simp] theorem State.afterRead_irqEn (s : State) (fs : List ModelFault) : (s.afterRead fs).irqEn = s.irqEn := by unfold State.afterRead; split <;> rfl
@[simp] theorem State.afterRead_mode (s : State) (fs : List ModelFault) : (s.afterRead fs).mode = s.mode := by unfold State.afterRead; split <;> rfl
@[simp] theorem State.afterRead_cfg (s : State) (fs : List ModelFault) : (s.afterRead fs).cfg = s.cfg := by unfold State.afterRead; split <;> rfl
@[simp] theorem State.afterRead_cmd (s : State) (fs : List ModelFault) : (s.afterRead fs).cmd = s.cmd := by unfold State.afterRead; split <;> rfl
@[simp] theorem State.afterRead_ops (s : State) (fs : List ModelFault) : (s.afterRead fs).ops = s.ops := by unfold State.afterRead; split <;> rfl
@[simp] theorem State.afterRead_results (s : State) (fs : List ModelFault) : (s.afterRead fs).results = s.results := by unfold State.afterRead; split <;> rfl
@[simp] theorem State.afterRead_sram (s : State) (fs : List ModelFault) : (s.afterRead fs).sram = s.sram := by unfold State.afterRead; split <;> rfl
@[simp] theorem State.afterRead_bram (s : State) (fs : List ModelFault) : (s.afterRead fs).bram = s.bram := by unfold State.afterRead; split <;> rfl
@[simp] theorem State.afterRead_before (s : State) (fs : List ModelFault) : (s.afterRead fs).before = s.before := by unfold State.afterRead; split <;> rfl
@[simp] theorem State.afterRead_host (s : State) (fs : List ModelFault) : (s.afterRead fs).host = s.host := by unfold State.afterRead; split <;> rfl
@[simp] theorem State.afterRead_sched (s : State) (fs : List ModelFault) : (s.afterRead fs).sched = s.sched := by unfold State.afterRead; split <;> rfl

@[simp] theorem State.afterSamples_params (s : State) (a n : Nat) : (s.afterSamples a n).params = s.params := s.afterRead_params _
@[simp] theorem State.afterSamples_status (s : State) (a n : Nat) : (s.afterSamples a n).status = s.status := s.afterRead_status _
@[simp] theorem State.afterSamples_irqEn (s : State) (a n : Nat) : (s.afterSamples a n).irqEn = s.irqEn := s.afterRead_irqEn _
@[simp] theorem State.afterSamples_mode (s : State) (a n : Nat) : (s.afterSamples a n).mode = s.mode := s.afterRead_mode _
@[simp] theorem State.afterSamples_cfg (s : State) (a n : Nat) : (s.afterSamples a n).cfg = s.cfg := s.afterRead_cfg _
@[simp] theorem State.afterSamples_cmd (s : State) (a n : Nat) : (s.afterSamples a n).cmd = s.cmd := s.afterRead_cmd _
@[simp] theorem State.afterSamples_ops (s : State) (a n : Nat) : (s.afterSamples a n).ops = s.ops := s.afterRead_ops _
@[simp] theorem State.afterSamples_results (s : State) (a n : Nat) : (s.afterSamples a n).results = s.results := s.afterRead_results _
@[simp] theorem State.afterSamples_sram (s : State) (a n : Nat) : (s.afterSamples a n).sram = s.sram := s.afterRead_sram _
@[simp] theorem State.afterSamples_bram (s : State) (a n : Nat) : (s.afterSamples a n).bram = s.bram := s.afterRead_bram _
@[simp] theorem State.afterSamples_before (s : State) (a n : Nat) : (s.afterSamples a n).before = s.before := s.afterRead_before _
@[simp] theorem State.afterSamples_host (s : State) (a n : Nat) : (s.afterSamples a n).host = s.host := s.afterRead_host _
@[simp] theorem State.afterSamples_sched (s : State) (a n : Nat) : (s.afterSamples a n).sched = s.sched := s.afterRead_sched _

@[simp] theorem State.afterBytes_params (s : State) (a n : Nat) : (s.afterBytes a n).params = s.params := s.afterRead_params _
@[simp] theorem State.afterBytes_status (s : State) (a n : Nat) : (s.afterBytes a n).status = s.status := s.afterRead_status _
@[simp] theorem State.afterBytes_irqEn (s : State) (a n : Nat) : (s.afterBytes a n).irqEn = s.irqEn := s.afterRead_irqEn _
@[simp] theorem State.afterBytes_mode (s : State) (a n : Nat) : (s.afterBytes a n).mode = s.mode := s.afterRead_mode _
@[simp] theorem State.afterBytes_cfg (s : State) (a n : Nat) : (s.afterBytes a n).cfg = s.cfg := s.afterRead_cfg _
@[simp] theorem State.afterBytes_cmd (s : State) (a n : Nat) : (s.afterBytes a n).cmd = s.cmd := s.afterRead_cmd _
@[simp] theorem State.afterBytes_ops (s : State) (a n : Nat) : (s.afterBytes a n).ops = s.ops := s.afterRead_ops _
@[simp] theorem State.afterBytes_results (s : State) (a n : Nat) : (s.afterBytes a n).results = s.results := s.afterRead_results _
@[simp] theorem State.afterBytes_sram (s : State) (a n : Nat) : (s.afterBytes a n).sram = s.sram := s.afterRead_sram _
@[simp] theorem State.afterBytes_bram (s : State) (a n : Nat) : (s.afterBytes a n).bram = s.bram := s.afterRead_bram _
@[simp] theorem State.afterBytes_before (s : State) (a n : Nat) : (s.afterBytes a n).before = s.before := s.afterRead_before _
@[simp] theorem State.afterBytes_host (s : State) (a n : Nat) : (s.afterBytes a n).host = s.host := s.afterRead_host _
@[simp] theorem State.afterBytes_sched (s : State) (a n : Nat) : (s.afterBytes a n).sched = s.sched := s.afterRead_sched _

@[simp] theorem State.abort_params (s : State) : (s.abort).params = s.params := by unfold State.abort; split <;> rfl
@[simp] theorem State.abort_status (s : State) : (s.abort).status = s.status := by unfold State.abort; split <;> rfl
@[simp] theorem State.abort_irqEn (s : State) : (s.abort).irqEn = s.irqEn := by unfold State.abort; split <;> rfl
@[simp] theorem State.abort_mode (s : State) : (s.abort).mode = s.mode := by unfold State.abort; split <;> rfl
@[simp] theorem State.abort_cfg (s : State) : (s.abort).cfg = s.cfg := by unfold State.abort; split <;> rfl
@[simp] theorem State.abort_cmd (s : State) : (s.abort).cmd = s.cmd := by unfold State.abort; split <;> rfl
@[simp] theorem State.abort_ops (s : State) : (s.abort).ops = s.ops := by unfold State.abort; split <;> rfl
@[simp] theorem State.abort_results (s : State) : (s.abort).results = s.results := by unfold State.abort; split <;> rfl
@[simp] theorem State.abort_before (s : State) : (s.abort).before = s.before := by unfold State.abort; split <;> rfl
@[simp] theorem State.abort_faults (s : State) : (s.abort).faults = s.faults := by unfold State.abort; split <;> rfl
@[simp] theorem State.abort_draws (s : State) : (s.abort).draws = s.draws := by unfold State.abort; split <;> rfl
@[simp] theorem State.abort_host (s : State) : (s.abort).host = s.host := by unfold State.abort; split <;> rfl
@[simp] theorem State.abort_sched (s : State) : (s.abort).sched = s.sched := by unfold State.abort; split <;> rfl

@[simp] theorem State.takeTurn_params (s : State) : (s.takeTurn).params = s.params := by unfold State.takeTurn; split <;> rfl
@[simp] theorem State.takeTurn_status (s : State) : (s.takeTurn).status = s.status := by unfold State.takeTurn; split <;> rfl
@[simp] theorem State.takeTurn_irqEn (s : State) : (s.takeTurn).irqEn = s.irqEn := by unfold State.takeTurn; split <;> rfl
@[simp] theorem State.takeTurn_mode (s : State) : (s.takeTurn).mode = s.mode := by unfold State.takeTurn; split <;> rfl
@[simp] theorem State.takeTurn_cfg (s : State) : (s.takeTurn).cfg = s.cfg := by unfold State.takeTurn; split <;> rfl
@[simp] theorem State.takeTurn_cmd (s : State) : (s.takeTurn).cmd = s.cmd := by unfold State.takeTurn; split <;> rfl
@[simp] theorem State.takeTurn_ops (s : State) : (s.takeTurn).ops = s.ops := by unfold State.takeTurn; split <;> rfl
@[simp] theorem State.takeTurn_results (s : State) : (s.takeTurn).results = s.results := by unfold State.takeTurn; split <;> rfl
@[simp] theorem State.takeTurn_sram (s : State) : (s.takeTurn).sram = s.sram := by unfold State.takeTurn; split <;> rfl
@[simp] theorem State.takeTurn_bram (s : State) : (s.takeTurn).bram = s.bram := by unfold State.takeTurn; split <;> rfl
@[simp] theorem State.takeTurn_before (s : State) : (s.takeTurn).before = s.before := by unfold State.takeTurn; split <;> rfl
@[simp] theorem State.takeTurn_faults (s : State) : (s.takeTurn).faults = s.faults := by unfold State.takeTurn; split <;> rfl
@[simp] theorem State.takeTurn_draws (s : State) : (s.takeTurn).draws = s.draws := by unfold State.takeTurn; split <;> rfl
@[simp] theorem State.takeTurn_host (s : State) : (s.takeTurn).host = s.host := by unfold State.takeTurn; split <;> rfl

@[simp] theorem State.shown_params (s : State) : (s.shown).params = s.params := by unfold State.shown; split <;> rfl
@[simp] theorem State.shown_status (s : State) : (s.shown).status = s.status := by unfold State.shown; split <;> rfl
@[simp] theorem State.shown_irqEn (s : State) : (s.shown).irqEn = s.irqEn := by unfold State.shown; split <;> rfl
@[simp] theorem State.shown_cmd (s : State) : (s.shown).cmd = s.cmd := by unfold State.shown; split <;> rfl
@[simp] theorem State.shown_ops (s : State) : (s.shown).ops = s.ops := by unfold State.shown; split <;> rfl
@[simp] theorem State.shown_results (s : State) : (s.shown).results = s.results := by unfold State.shown; split <;> rfl
@[simp] theorem State.shown_sram (s : State) : (s.shown).sram = s.sram := by unfold State.shown; split <;> rfl
@[simp] theorem State.shown_bram (s : State) : (s.shown).bram = s.bram := by unfold State.shown; split <;> rfl
@[simp] theorem State.shown_before (s : State) : (s.shown).before = s.before := by unfold State.shown; split <;> rfl
@[simp] theorem State.shown_faults (s : State) : (s.shown).faults = s.faults := by unfold State.shown; split <;> rfl
@[simp] theorem State.shown_draws (s : State) : (s.shown).draws = s.draws := by unfold State.shown; split <;> rfl
@[simp] theorem State.shown_host (s : State) : (s.shown).host = s.host := by unfold State.shown; split <;> rfl
@[simp] theorem State.shown_sched (s : State) : (s.shown).sched = s.sched := by unfold State.shown; split <;> rfl

@[simp] theorem State.statusRead_params (s : State) : (s.statusRead).params = s.params := by unfold State.statusRead; split <;> rfl
@[simp] theorem State.statusRead_status (s : State) : (s.statusRead).status = s.status := by unfold State.statusRead; split <;> rfl
@[simp] theorem State.statusRead_irqEn (s : State) : (s.statusRead).irqEn = s.irqEn := by unfold State.statusRead; split <;> rfl
@[simp] theorem State.statusRead_mode (s : State) : (s.statusRead).mode = s.mode := by unfold State.statusRead; split <;> rfl
@[simp] theorem State.statusRead_cfg (s : State) : (s.statusRead).cfg = s.cfg := by unfold State.statusRead; split <;> rfl
@[simp] theorem State.statusRead_cmd (s : State) : (s.statusRead).cmd = s.cmd := by unfold State.statusRead; split <;> rfl
@[simp] theorem State.statusRead_ops (s : State) : (s.statusRead).ops = s.ops := by unfold State.statusRead; split <;> rfl
@[simp] theorem State.statusRead_results (s : State) : (s.statusRead).results = s.results := by unfold State.statusRead; split <;> rfl
@[simp] theorem State.statusRead_sram (s : State) : (s.statusRead).sram = s.sram := by unfold State.statusRead; split <;> rfl
@[simp] theorem State.statusRead_bram (s : State) : (s.statusRead).bram = s.bram := by unfold State.statusRead; split <;> rfl
@[simp] theorem State.statusRead_faults (s : State) : (s.statusRead).faults = s.faults := by unfold State.statusRead; split <;> rfl
@[simp] theorem State.statusRead_draws (s : State) : (s.statusRead).draws = s.draws := by unfold State.statusRead; split <;> rfl
@[simp] theorem State.statusRead_host (s : State) : (s.statusRead).host = s.host := by unfold State.statusRead; split <;> rfl
@[simp] theorem State.statusRead_sched (s : State) : (s.statusRead).sched = s.sched := by unfold State.statusRead; split <;> rfl

@[simp] theorem State.setVar_params (s : State) (t : Nat) (v : Option Word) : (s.setVar t v).params = s.params := by cases v <;> rfl
@[simp] theorem State.setVar_status (s : State) (t : Nat) (v : Option Word) : (s.setVar t v).status = s.status := by cases v <;> rfl
@[simp] theorem State.setVar_irqEn (s : State) (t : Nat) (v : Option Word) : (s.setVar t v).irqEn = s.irqEn := by cases v <;> rfl
@[simp] theorem State.setVar_mode (s : State) (t : Nat) (v : Option Word) : (s.setVar t v).mode = s.mode := by cases v <;> rfl
@[simp] theorem State.setVar_cfg (s : State) (t : Nat) (v : Option Word) : (s.setVar t v).cfg = s.cfg := by cases v <;> rfl
@[simp] theorem State.setVar_cmd (s : State) (t : Nat) (v : Option Word) : (s.setVar t v).cmd = s.cmd := by cases v <;> rfl
@[simp] theorem State.setVar_ops (s : State) (t : Nat) (v : Option Word) : (s.setVar t v).ops = s.ops := by cases v <;> rfl
@[simp] theorem State.setVar_results (s : State) (t : Nat) (v : Option Word) : (s.setVar t v).results = s.results := by cases v <;> rfl
@[simp] theorem State.setVar_sram (s : State) (t : Nat) (v : Option Word) : (s.setVar t v).sram = s.sram := by cases v <;> rfl
@[simp] theorem State.setVar_bram (s : State) (t : Nat) (v : Option Word) : (s.setVar t v).bram = s.bram := by cases v <;> rfl
@[simp] theorem State.setVar_before (s : State) (t : Nat) (v : Option Word) : (s.setVar t v).before = s.before := by cases v <;> rfl
@[simp] theorem State.setVar_faults (s : State) (t : Nat) (v : Option Word) : (s.setVar t v).faults = s.faults := by cases v <;> rfl
@[simp] theorem State.setVar_draws (s : State) (t : Nat) (v : Option Word) : (s.setVar t v).draws = s.draws := by cases v <;> rfl
@[simp] theorem State.setVar_sched (s : State) (t : Nat) (v : Option Word) : (s.setVar t v).sched = s.sched := by cases v <;> rfl

@[simp] theorem State.softReset_params (s : State) : s.softReset.params = s.params := s.abort_params
@[simp] theorem State.softReset_status (s : State) : s.softReset.status = Status.reset := rfl
@[simp] theorem State.softReset_irqEn (s : State) : s.softReset.irqEn = false := rfl
@[simp] theorem State.softReset_mode (s : State) : s.softReset.mode = ModeReg.reset := rfl
@[simp] theorem State.softReset_cfg (s : State) : s.softReset.cfg = FskConfig.reset := rfl
@[simp] theorem State.softReset_cmd (s : State) : s.softReset.cmd = 0 := rfl
@[simp] theorem State.softReset_ops (s : State) : s.softReset.ops = OperandRegs.reset := rfl
@[simp] theorem State.softReset_results (s : State) : s.softReset.results = Results.zero := rfl
@[simp] theorem State.softReset_sram (s : State) : s.softReset.sram = s.abort.sram := rfl
@[simp] theorem State.softReset_bram (s : State) : s.softReset.bram = s.abort.bram := rfl
@[simp] theorem State.softReset_before (s : State) : s.softReset.before = none := rfl
@[simp] theorem State.softReset_faults (s : State) : s.softReset.faults = s.faults := s.abort_faults
@[simp] theorem State.softReset_draws (s : State) : s.softReset.draws = s.draws := s.abort_draws
@[simp] theorem State.softReset_host (s : State) : s.softReset.host = s.host := s.abort_host
@[simp] theorem State.softReset_sched (s : State) : s.softReset.sched = s.sched := s.abort_sched

@[simp] theorem Status.accept_busy (st : Status) : (st.accept).busy = true := rfl
@[simp] theorem Status.accept_done (st : Status) : (st.accept).done = false := rfl
@[simp] theorem Status.accept_ok (st : Status) : (st.accept).ok = false := rfl
@[simp] theorem Status.accept_rej (st : Status) : (st.accept).rej = st.rej := rfl
@[simp] theorem Status.accept_errcode (st : Status) : (st.accept).errcode = ErrCode.none := rfl
@[simp] theorem Status.accept_lastop (st : Status) : (st.accept).lastop = st.lastop := rfl

@[simp] theorem Status.finish_busy (st : Status) (c : ErrCode) (op : BitVec 8) : (st.finish c op).busy = false := rfl
@[simp] theorem Status.finish_done (st : Status) (c : ErrCode) (op : BitVec 8) : (st.finish c op).done = true := rfl
@[simp] theorem Status.finish_ok (st : Status) (c : ErrCode) (op : BitVec 8) : (st.finish c op).ok = (c == .none) := rfl
@[simp] theorem Status.finish_rej (st : Status) (c : ErrCode) (op : BitVec 8) : (st.finish c op).rej = st.rej := rfl
@[simp] theorem Status.finish_errcode (st : Status) (c : ErrCode) (op : BitVec 8) : (st.finish c op).errcode = c := rfl
@[simp] theorem Status.finish_lastop (st : Status) (c : ErrCode) (op : BitVec 8) : (st.finish c op).lastop = op := rfl

@[simp] theorem Status.writeOneToClear_busy (st : Status) (v : Word) : (st.writeOneToClear v).busy = st.busy := rfl
@[simp] theorem Status.writeOneToClear_done (st : Status) (v : Word) : (st.writeOneToClear v).done = (st.done && !v.getLsbD 1) := rfl
@[simp] theorem Status.writeOneToClear_ok (st : Status) (v : Word) : (st.writeOneToClear v).ok = st.ok := rfl
@[simp] theorem Status.writeOneToClear_rej (st : Status) (v : Word) : (st.writeOneToClear v).rej = (st.rej && !v.getLsbD 3) := rfl
@[simp] theorem Status.writeOneToClear_errcode (st : Status) (v : Word) : (st.writeOneToClear v).errcode = st.errcode := rfl
@[simp] theorem Status.writeOneToClear_lastop (st : Status) (v : Word) : (st.writeOneToClear v).lastop = st.lastop := rfl

@[simp] theorem Status.reject_busy (st : Status) : (st.reject).busy = st.busy := rfl
@[simp] theorem Status.reject_done (st : Status) : (st.reject).done = st.done := rfl
@[simp] theorem Status.reject_ok (st : Status) : (st.reject).ok = st.ok := rfl
@[simp] theorem Status.reject_rej (st : Status) : (st.reject).rej = true := rfl
@[simp] theorem Status.reject_errcode (st : Status) : (st.reject).errcode = st.errcode := rfl
@[simp] theorem Status.reject_lastop (st : Status) : (st.reject).lastop = st.lastop := rfl

end Sys2Proof.Machine
end

