-- ==== Sys2Proof/Laws/Ops.lean ====
section
/-! SUPPORT. What the shared operations on State can do, each said once: checks, reads of RAM cells, the fault set, the turn of the
agents, the abort of a command. -/

namespace Sys2Proof.Machine

@[simp] theorem require_true (code : ErrCode) (s : State) (rest : Unit → Result) : require true code s rest = rest () := rfl

@[simp] theorem require_false (code : ErrCode) (s : State) (rest : Unit → Result) :
    require false code s rest = .next (s.fail code) := rfl

theorem require_of {c : Bool} (h : c = true) (code : ErrCode) (s : State) (rest : Unit → Result) :
    require c code s rest = rest () := by subst h; rfl

theorem require_of_not {c : Bool} (h : c = false) (code : ErrCode) (s : State) (rest : Unit → Result) :
    require c code s rest = .next (s.fail code) := by subst h; rfl

theorem mem_addFault (fs : List ModelFault) (f g : ModelFault) : g ∈ addFault fs f ↔ g ∈ fs ∨ g = f := by
  unfold addFault
  split
  · rename_i h
    constructor
    · exact .inl
    · rintro (h' | rfl) <;> assumption
  · simp

theorem addFault_nodup {fs : List ModelFault} (f : ModelFault) (h : fs.Nodup) : (addFault fs f).Nodup := by
  unfold addFault
  split
  · exact h
  · rename_i hf
    rw [List.nodup_append]
    refine ⟨h, by simp, ?_⟩
    rintro a ha b hb rfl
    exact hf (by simpa using (List.mem_singleton.1 hb) ▸ ha)

theorem mem_foldl_addFault (new : List ModelFault) : ∀ (fs : List ModelFault) (g : ModelFault),
    g ∈ new.foldl addFault fs ↔ g ∈ fs ∨ g ∈ new := by
  induction new with
  | nil => simp
  | cons f new ih => intro fs g; simp [ih, mem_addFault, or_assoc]

theorem foldl_addFault_nodup (new : List ModelFault) : ∀ {fs : List ModelFault}, fs.Nodup → (new.foldl addFault fs).Nodup := by
  induction new with
  | nil => intro fs h; exact h
  | cons f new ih => intro fs h; exact ih (addFault_nodup f h)

@[simp] theorem State.afterRead_nil (s : State) : s.afterRead [] = s := rfl

/-- After a read the fault set holds what it held and the faults of the read. -/
theorem State.mem_afterRead_faults (s : State) (fs : List ModelFault) (g : ModelFault) :
    g ∈ (s.afterRead fs).faults ↔ g ∈ s.faults ∨ g ∈ fs := by
  unfold State.afterRead
  split
  · rename_i h; simp [h]
  · exact mem_foldl_addFault fs s.faults g

theorem State.afterRead_faults_nodup {s : State} (fs : List ModelFault) (h : s.faults.Nodup) :
    (s.afterRead fs).faults.Nodup := by
  unfold State.afterRead
  split
  · exact h
  · exact foldl_addFault_nodup fs h

/-- Samples that are all written are read as they are. -/
theorem State.samples_of_holds {s : State} {a : Nat} {xs : List F32} (h : s.holdsSamples a xs) :
    s.samples a xs.length = xs := by
  rw [State.samples, cellsGet_of_holds _ _ _ h, fillFrom_map_some]

/-- Bytes that are all written are read as they are. -/
theorem State.bytes_of_holds {s : State} {a : Nat} {bs : List Byte} (h : s.holdsBytes a bs) :
    s.bytes a bs.length = bs := by
  rw [State.bytes, cellsGet_of_holds _ _ _ h, fillFrom_map_some]

/-- Reading samples that are all written changes nothing. -/
theorem State.afterSamples_of_holds {s : State} {a : Nat} {xs : List F32} (h : s.holdsSamples a xs) :
    s.afterSamples a xs.length = s := by
  rw [State.afterSamples, State.unwrittenSamples, cellsGet_of_holds _ _ _ h, missingFrom_map_some]
  rfl

/-- Reading bytes that are all written changes nothing. -/
theorem State.afterBytes_of_holds {s : State} {a : Nat} {bs : List Byte} (h : s.holdsBytes a bs) :
    s.afterBytes a bs.length = s := by
  rw [State.afterBytes, State.unwrittenBytes, cellsGet_of_holds _ _ _ h, missingFrom_map_some]
  rfl

/-- The faults of a read of samples: the words not written, and no other. -/
theorem State.mem_unwrittenSamples (s : State) (a n : Nat) (f : ModelFault) :
    f ∈ s.unwrittenSamples a n ↔ ∃ x, a ≤ x ∧ x < a + n ∧ cellGet? s.sram x = none ∧ f = .uninitRead .sampleRam x := by
  simp only [State.unwrittenSamples, List.mem_map, mem_missingFrom_cellsGet]
  constructor
  · rintro ⟨x, ⟨h1, h2, h3⟩, rfl⟩; exact ⟨x, h1, h2, h3, rfl⟩
  · rintro ⟨x, h1, h2, h3, rfl⟩; exact ⟨x, ⟨h1, h2, h3⟩, rfl⟩

/-- The faults of a read of bytes: the bytes not written, and no other. -/
theorem State.mem_unwrittenBytes (s : State) (a n : Nat) (f : ModelFault) :
    f ∈ s.unwrittenBytes a n ↔ ∃ x, a ≤ x ∧ x < a + n ∧ cellGet? s.bram x = none ∧ f = .uninitRead .byteRam x := by
  simp only [State.unwrittenBytes, List.mem_map, mem_missingFrom_cellsGet]
  constructor
  · rintro ⟨x, ⟨h1, h2, h3⟩, rfl⟩; exact ⟨x, h1, h2, h3, rfl⟩
  · rintro ⟨x, h1, h2, h3, rfl⟩; exact ⟨x, ⟨h1, h2, h3⟩, rfl⟩

@[simp] theorem State.samples_length (s : State) (a n : Nat) : (s.samples a n).length = n := by simp [State.samples]

@[simp] theorem State.bytes_length (s : State) (a n : Nat) : (s.bytes a n).length = n := by simp [State.bytes]

/-- Where no command is in flight the host moves. -/
theorem State.turn_idle {s : State} (h : s.status.busy = false) : s.turn = .host := by simp [State.turn, h]

/-- The host moves where no command is in flight, and where the schedule says so. -/
theorem State.turn_host {s : State} (h : s.status.busy = false ∨ s.sched.head? = some .host) : s.turn = .host := by
  rcases h with h | h
  · exact s.turn_idle h
  · cases hs : s.sched <;> simp_all [State.turn]

/-- A turn uses up a choice of the schedule while BUSY = 1, and nothing else. -/
theorem State.takeTurn_eq (s : State) : s.takeTurn = { s with sched := if s.status.busy then s.sched.tail else s.sched } := by
  unfold State.takeTurn
  split <;> rfl

/-- Only a busy block takes a turn. -/
theorem State.busy_of_turn {s : State} (h : s.turn = .block) : s.status.busy = true := by
  unfold State.turn at h
  split at h
  · assumption
  · cases h

/-- The abort of a command takes cells off the RAMs and changes nothing else. -/
theorem State.abort_cases (s : State) :
    ∃ a n b k, s.abort = { s with sram := cellsErase s.sram a n, bram := cellsErase s.bram b k } ∨ s.abort = s := by
  unfold State.abort
  split
  · exact ⟨_, _, _, _, .inl rfl⟩
  · exact ⟨0, 0, 0, 0, .inr rfl⟩

/-- Where no command is in flight there is nothing to abort. -/
theorem State.abort_idle {s : State} (h : s.status.busy = false) : s.abort = s := by
  unfold State.abort
  rw [h]

/-- Outside the time of R72 the host is shown the current registers. -/
theorem State.shown_none {s : State} (h : s.before = none) : s.shown = s := by
  unfold State.shown
  rw [h]

/-- Between a CMD write and the STATUS read that shows its command completed, the host is shown what was before. -/
theorem State.shown_some {s : State} {b : Before} (h : s.before = some b) : s.shown = { s with cfg := b.cfg, mode := b.mode } := by
  unfold State.shown
  rw [h]

end Sys2Proof.Machine
end

