-- ==== Sys2Proof/Laws/Exec.lean ====
section
/-! SUPPORT. What a command can do, said once for all commands: it completes with a failure that changes nothing, or successfully with
one of four kinds of effect. -/

namespace Sys2Proof.Machine

/-- The effect of a successful command before it completes: nothing, samples written inside S, bytes written inside B, or a preset
loaded. -/
inductive Effect (s : State) : State → Prop where
  | none : Effect s s
  | samples (d : Nat) (xs : List F32) (h : d + xs.length ≤ s.params.sampleRamWords) : Effect s (s.writeSamples d xs)
  | bytes (d : Nat) (bs : List Byte) (h : d + bs.length ≤ s.params.byteRamBytes) : Effect s (s.writeBytes d bs)
  | preset (m : Mode) : Effect s (s.loadPreset m)

/-- The two ways a command completes, `s` being the state from which it is performed. -/
inductive Completion (s : State) : State → Prop where
  /-- a failure (R242), after the reads the command made -/
  | failed (fs : List ModelFault) (c : ErrCode) (hc : c ≠ .none) : Completion s ((s.afterRead fs).fail c)
  /-- a success (R114), after the reads the command made and its effect -/
  | done (fs : List ModelFault) (u : State) (r0 r1 r2 : Nat) (f : F64) (hu : Effect (s.afterRead fs) u) :
    Completion s (u.complete r0 r1 r2 f)

theorem Completion.failed' {s : State} (c : ErrCode) (hc : c ≠ .none) : Completion s (s.fail c) := .failed [] c hc

theorem Completion.done' {s u : State} (r0 r1 r2 : Nat) (f : F64) (hu : Effect s u) : Completion s (u.complete r0 r1 r2 f) :=
  .done [] u r0 r1 r2 f hu

/-- A check of a command that has read nothing: it fails with its code, or the rest follows. -/
theorem completion_check {s : State} {c : Bool} {code : ErrCode} {rest : Unit → Result} (hc : code ≠ .none)
    (hr : c = true → ∃ t, rest () = .next t ∧ Completion s t) : ∃ t, require c code s rest = .next t ∧ Completion s t := by
  cases c
  · exact ⟨_, rfl, .failed' code hc⟩
  · exact hr rfl

/-- A check of a command that has read RAM cells. -/
theorem completion_check_read {s : State} (fs : List ModelFault) {c : Bool} {code : ErrCode} {rest : Unit → Result}
    (hc : code ≠ .none) (hr : c = true → ∃ t, rest () = .next t ∧ Completion s t) :
    ∃ t, require c code (s.afterRead fs) rest = .next t ∧ Completion s t := by
  cases c
  · exact ⟨_, rfl, .failed fs code hc⟩
  · exact hr rfl

theorem toneRun_length (sr f n : Nat) : (toneRun sr f n).length = n := by simp [toneRun]

theorem bitsMsbFirst_length (w v : Nat) : (bitsMsbFirst w v).length = w := by simp [bitsMsbFirst]

theorem flatMap_length_const {α β : Type} (f : α → List β) (k : Nat) (h : ∀ a, (f a).length = k) (l : List α) :
    (l.flatMap f).length = l.length * k := by
  induction l with
  | nil => simp
  | cons a l ih => simp [ih, h, Nat.add_mul, Nat.add_comm]

/-- A frame has nbits(L) bits (R171). -/
theorem frameBits_length (pre post : Nat) (data : List Byte) :
    (frameBits pre post data).length = pre + 16 + 8 * data.length + 16 + post := by
  have h := flatMap_length_const (fun b : Byte => bitsMsbFirst 8 b.toNat) 8 (fun b => bitsMsbFirst_length 8 b.toNat) data
  simp only [frameBits, frameBody, preamble, List.length_append, List.length_map, List.length_range, bitsMsbFirst_length,
    List.length_replicate, h]
  omega

theorem bitWindow_length (c : FskConfig) (bit : Bool) : (bitWindow c bit).length = c.spb := by
  simp [bitWindow, toneRun_length]

/-- A frame has nsamples(L) samples (R171, R172). -/
theorem frameSamples_length (c : FskConfig) (data : List Byte) :
    (frameSamples c data).length = c.nsamples data.length := by
  rw [frameSamples, flatMap_length_const _ _ (bitWindow_length c), frameBits_length]
  rfl

theorem execLoadMode_completion (m : BitVec 2) (s : State) : ∃ t, execLoadMode m s = .next t ∧ Completion s t := by
  unfold execLoadMode
  split
  · exact ⟨_, rfl, .done' _ _ _ _ (.preset _)⟩
  · exact ⟨_, rfl, .failed' _ (by decide)⟩

theorem execGenTone_completion (s : State) : ∃ t, execGenTone s = .next t ∧ Completion s t := by
  unfold execGenTone
  refine completion_check (by decide) fun _ => completion_check (by decide) fun h => ?_
  simp only [State.sampleRangeOk, decide_eq_true_eq] at h
  exact ⟨_, rfl, .done' _ _ _ _ (.samples _ _ (by rwa [toneRun_length]))⟩

theorem execEncodeBit_completion (b : Bool) (s : State) : ∃ t, execEncodeBit b s = .next t ∧ Completion s t := by
  unfold execEncodeBit
  refine completion_check (by decide) fun _ => completion_check (by decide) fun h => ?_
  simp only [State.sampleRangeOk, decide_eq_true_eq] at h
  exact ⟨_, rfl, .done' _ _ _ _ (.samples _ _ (by rwa [toneRun_length]))⟩

theorem execCrc16_completion (s : State) : ∃ t, execCrc16 s = .next t ∧ Completion s t := by
  unfold execCrc16
  exact completion_check (by decide) fun _ => ⟨_, rfl, .done _ _ _ _ _ _ .none⟩

theorem execCrcCheck_completion (s : State) : ∃ t, execCrcCheck s = .next t ∧ Completion s t := by
  unfold execCrcCheck
  exact completion_check (by decide) fun _ =>
    completion_check_read _ (by decide) fun _ => ⟨_, rfl, .done _ _ _ _ _ _ .none⟩

theorem execEncodeFrame_completion (s : State) : ∃ t, execEncodeFrame s = .next t ∧ Completion s t := by
  unfold execEncodeFrame
  refine completion_check (by decide) fun _ => completion_check (by decide) fun _ =>
    completion_check (by decide) fun _ => completion_check (by decide) fun h => ?_
  simp only [State.sampleRangeOk, decide_eq_true_eq] at h
  refine ⟨_, rfl, .done _ _ _ _ _ _ (.samples _ _ ?_)⟩
  rwa [frameSamples_length, State.bytes_length, State.afterRead_params]

theorem execDuration_completion (s : State) : ∃ t, execDuration s = .next t ∧ Completion s t := by
  unfold execDuration
  exact completion_check (by decide) fun _ => completion_check (by decide) fun _ => ⟨_, rfl, .done' _ _ _ _ .none⟩

theorem execGoertzel_completion (s : State) : ∃ t, execGoertzel s = .next t ∧ Completion s t := by
  unfold execGoertzel
  exact completion_check (by decide) fun _ => completion_check (by decide) fun _ => ⟨_, rfl, .done _ _ _ _ _ _ .none⟩

theorem execDecodeBit_completion (s : State) : ∃ t, execDecodeBit s = .next t ∧ Completion s t := by
  unfold execDecodeBit
  exact completion_check (by decide) fun _ => completion_check (by decide) fun _ => ⟨_, rfl, .done _ _ _ _ _ _ .none⟩

theorem execFindPreamble_completion (s : State) : ∃ t, execFindPreamble s = .next t ∧ Completion s t := by
  unfold execFindPreamble
  refine completion_check (by decide) fun _ => completion_check (by decide) fun _ => ?_
  split
  · exact ⟨_, rfl, .failed _ _ (by decide)⟩
  · exact ⟨_, rfl, .done _ _ _ _ _ _ .none⟩

theorem parseFrame_error {post : Nat} {bits : List Bool} {c : ErrCode} (h : parseFrame post bits = .error c) : c ≠ .none := by
  unfold parseFrame at h
  dsimp only at h
  split at h
  · cases h; decide
  · split at h
    · cases h; decide
    · split at h <;> cases h
      decide

theorem decodeBody_completion (s : State) (fs : List ModelFault) (xs : List F32) (st : Nat) :
    ∃ t, decodeBody (s.afterRead fs) xs st = .next t ∧ Completion s t := by
  unfold decodeBody
  dsimp only
  split
  · rename_i c h
    exact ⟨_, rfl, .failed _ _ (parseFrame_error h)⟩
  · refine completion_check_read _ (by decide) fun h => ?_
    simp only [State.byteRangeOk, decide_eq_true_eq] at h
    exact ⟨_, rfl, .done _ _ _ _ _ _ (.bytes _ _ h)⟩

theorem execDecodeFrame_completion (s : State) : ∃ t, execDecodeFrame s = .next t ∧ Completion s t := by
  unfold execDecodeFrame
  refine completion_check (by decide) fun _ => completion_check (by decide) fun _ => ?_
  split
  · exact ⟨_, rfl, .failed _ _ (by decide)⟩
  · exact decodeBody_completion s _ _ _

/-- Every command completes, in one of the ways of `Completion`. -/
theorem exec_completion (i : Instr) (s : State) : ∃ t, exec i s = .next t ∧ Completion s t := by
  cases i with
  | loadmode m => exact execLoadMode_completion m s
  | genTone => exact execGenTone_completion s
  | encodeBit b => exact execEncodeBit_completion b s
  | crc16 => exact execCrc16_completion s
  | crcCheck => exact execCrcCheck_completion s
  | encodeFrame => exact execEncodeFrame_completion s
  | duration => exact execDuration_completion s
  | goertzel => exact execGoertzel_completion s
  | decodeBit => exact execDecodeBit_completion s
  | findPreamble => exact execFindPreamble_completion s
  | decodeFrame => exact execDecodeFrame_completion s

end Sys2Proof.Machine
end

