-- ==== Sys2Proof/Laws/Float.lean ====
section
/-! SUPPORT. The rounding of Machine/Float.lean: rounding to the nearest is exact on exact quotients, and a value the format can hold is
rounded to itself, so that the conversions to64 are exact (00_scope.md R10). -/

namespace Sys2Proof.Machine

/-- An exact quotient needs no rounding. -/
theorem roundHalfEven_mul {d : Nat} (hd : 0 < d) (n : Nat) : roundHalfEven (n * d) d = n := by
  unfold roundHalfEven
  simp only [Nat.mul_div_cancel _ hd, Nat.mul_mod_left]
  rw [if_neg]
  omega

@[simp] theorem roundHalfEven_one (n : Nat) : roundHalfEven n 1 = n := by
  simpa using roundHalfEven_mul (d := 1) (by omega) n

/-- A common factor of numerator and denominator does not matter. -/
theorem roundHalfEven_scale (a b : Nat) {d : Nat} (hd : 0 < d) : roundHalfEven (a * d) (b * d) = roundHalfEven a b := by
  unfold roundHalfEven
  simp only [Nat.mul_div_mul_right a b hd, Nat.mul_mod_mul_right]
  have h1 : b * d < 2 * (a % b * d) ↔ b < 2 * (a % b) := by
    rw [← Nat.mul_assoc]; exact Nat.mul_lt_mul_right hd
  have h2 : 2 * (a % b * d) = b * d ↔ 2 * (a % b) = b := by
    rw [← Nat.mul_assoc]; exact Nat.mul_left_inj (by omega)
  simp only [h1, h2]

theorem FpFormat.roundMag_scale (f : FpFormat) (a b : Nat) {d : Nat} (hd : 0 < d) :
    f.roundMag (a * d) (b * d) = f.roundMag a b := by
  unfold FpFormat.roundMag
  simp only [Nat.mul_div_mul_right a b hd]
  rw [Nat.mul_right_comm, roundHalfEven_scale _ _ hd]

theorem FpFormat.roundMag_mul (f : FpFormat) (a : Nat) {d : Nat} (hd : 0 < d) : f.roundMag (a * d) d = f.roundMag a 1 := by
  simpa using f.roundMag_scale a 1 hd

/-- A rounded magnitude is at most infinity: rounding makes no NaN. -/
theorem FpFormat.roundMag_le (f : FpFormat) (a b : Nat) : f.roundMag a b ≤ f.infMag := Nat.min_le_right _ _

/-- The units of a magnitude pattern round to that pattern. -/
theorem FpFormat.roundMag_unitsOf (f : FpFormat) (hp : 1 ≤ f.prec) {mag : Nat} (h : mag ≤ f.infMag) :
    f.roundMag (f.unitsOf mag) 1 = mag := by
  have hH : 0 < 2 ^ (f.prec - 1) := Nat.two_pow_pos _
  have hfrac := Nat.mod_lt mag hH
  have hmag := Nat.div_add_mod mag (2 ^ (f.prec - 1))
  have hp' : f.prec - 1 + 1 = f.prec := by omega
  unfold FpFormat.roundMag FpFormat.unitsOf
  generalize hfr : mag % 2 ^ (f.prec - 1) = frac at *
  dsimp only
  split
  · rename_i he
    rw [he] at hmag
    have hm : frac = mag := by omega
    have hlog : frac.log2 + 1 - f.prec = 0 := by
      by_cases h0 : frac = 0
      · subst h0; simp; omega
      · have := (Nat.log2_lt h0).2 hfrac
        omega
    simp only [Nat.div_one, hlog, Nat.pow_zero, Nat.zero_mul, Nat.zero_add, Nat.mul_one, roundHalfEven_one]
    rw [hm]
    exact Nat.min_eq_left h
  · rename_i e he
    rw [he] at hmag
    have hpos : (2 ^ (f.prec - 1) + frac) * 2 ^ e ≠ 0 := by
      have := Nat.two_pow_pos e
      positivity
    have hlog : ((2 ^ (f.prec - 1) + frac) * 2 ^ e).log2 = f.prec - 1 + e := by
      apply (Nat.log2_eq_iff hpos).2
      constructor
      · rw [Nat.pow_add]
        exact Nat.mul_le_mul_right _ (by omega)
      · rw [show f.prec - 1 + e + 1 = (f.prec - 1 + 1) + e by omega, Nat.pow_add, Nat.pow_succ]
        exact Nat.mul_lt_mul_of_pos_right (by omega) (Nat.two_pow_pos e)
    have hdrop : f.prec - 1 + e + 1 - f.prec = e := by omega
    rw [Nat.div_one, hlog, hdrop, Nat.one_mul, roundHalfEven_mul (Nat.two_pow_pos e)]
    rw [Nat.mul_succ, Nat.mul_comm] at hmag
    rw [Nat.min_eq_left] <;> omega

/-- The format holds n units exactly: the bits below its precision are 0 and it is below infinity. -/
def FpFormat.holds (f : FpFormat) (n : Nat) : Prop :=
  2 ^ (n.log2 + 1 - f.prec) ∣ n ∧ n.log2 + 1 - f.prec + 2 ≤ 2 ^ f.expw - 1

/-- A number of units the format holds is rounded to a finite magnitude of just those units. -/
theorem FpFormat.roundMag_exact (f : FpFormat) (hp : 1 ≤ f.prec) {n : Nat} (h : f.holds n) :
    f.roundMag n 1 < f.infMag ∧ f.unitsOf (f.roundMag n 1) = n := by
  obtain ⟨⟨m, hm⟩, he⟩ := h
  have hH : 0 < 2 ^ (f.prec - 1) := Nat.two_pow_pos _
  have hp2 : 2 ^ f.prec = 2 * 2 ^ (f.prec - 1) := by
    rw [← Nat.pow_succ']; congr 1; omega
  unfold FpFormat.roundMag
  simp only [Nat.div_one, Nat.one_mul]
  generalize hd : n.log2 + 1 - f.prec = drop at *
  have hr : roundHalfEven n (2 ^ drop) = m := by
    rw [hm, Nat.mul_comm]; exact roundHalfEven_mul (Nat.two_pow_pos _) m
  rw [hr]
  have hlt : m < 2 * 2 ^ (f.prec - 1) := by
    by_contra hc
    have hc : 2 ^ f.prec ≤ m := by omega
    have h1 : 2 ^ (drop + f.prec) ≤ n := by
      rw [hm, Nat.pow_add]; exact Nat.mul_le_mul_left _ hc
    have h0 : n ≠ 0 := by have := Nat.two_pow_pos (drop + f.prec); omega
    have := (Nat.le_log2 h0).2 h1
    omega
  have hinf : drop * 2 ^ (f.prec - 1) + m < f.infMag := by
    have : (drop + 2) * 2 ^ (f.prec - 1) ≤ f.infMag := Nat.mul_le_mul_right _ he
    have h2 : (drop + 2) * 2 ^ (f.prec - 1) = drop * 2 ^ (f.prec - 1) + 2 * 2 ^ (f.prec - 1) := by ring
    omega
  rw [Nat.min_eq_left (by omega)]
  refine ⟨hinf, ?_⟩
  unfold FpFormat.unitsOf
  dsimp only
  by_cases hm2 : m < 2 ^ (f.prec - 1)
  · have hd0 : drop = 0 := by
      by_contra hne
      have h0 : n ≠ 0 := by rintro rfl; simp at hd; omega
      have := Nat.log2_self_le h0
      rw [show n.log2 = (f.prec - 1) + drop by omega, Nat.pow_add, hm, Nat.mul_comm] at this
      have := Nat.le_of_mul_le_mul_left this (Nat.two_pow_pos drop)
      omega
    subst hd0
    simp only [Nat.zero_mul, Nat.zero_add, Nat.div_eq_of_lt hm2, Nat.mod_eq_of_lt hm2, hm]
    simp
  · have h1 : (drop * 2 ^ (f.prec - 1) + m) / 2 ^ (f.prec - 1) = drop + 1 := by
      rw [Nat.mul_comm, Nat.mul_add_div hH]
      have : m / 2 ^ (f.prec - 1) = 1 := Nat.div_eq_of_lt_le (by omega) (by omega)
      omega
    have h2 : (drop * 2 ^ (f.prec - 1) + m) % 2 ^ (f.prec - 1) = m - 2 ^ (f.prec - 1) := by
      rw [Nat.mul_comm, Nat.mul_add_mod, Nat.mod_eq_sub_mod (by omega), Nat.mod_eq_of_lt (by omega)]
    rw [h1, h2]
    simp only [hm]
    rw [show 2 ^ (f.prec - 1) + (m - 2 ^ (f.prec - 1)) = m by omega, Nat.mul_comm]

theorem FpFormat.infMag_lt_signBit (f : FpFormat) (hp : 1 ≤ f.prec) : f.infMag < f.signBit := by
  unfold FpFormat.infMag FpFormat.signBit
  rw [show f.expw + f.prec - 1 = f.expw + (f.prec - 1) by omega, Nat.pow_add]
  exact Nat.mul_lt_mul_of_pos_right (by have := Nat.two_pow_pos f.expw; omega) (Nat.two_pow_pos _)

/-- The value of a pattern put together from a sign and a magnitude that is no NaN. -/
theorem FpFormat.unpack_signed (f : FpFormat) (hp : 1 ≤ f.prec) (s : Bool) {mag : Nat} (h : mag ≤ f.infMag) :
    f.unpack (f.signed s mag) = if mag = f.infMag then .inf s else .fin s (f.unitsOf mag) := by
  have hs := f.infMag_lt_signBit hp
  unfold FpFormat.unpack FpFormat.signed
  cases s
  · have h1 : mag % f.signBit = mag := Nat.mod_eq_of_lt (by omega)
    have h2 : ¬ f.signBit ≤ mag := by omega
    have h3 : ¬ f.infMag < mag := by omega
    simp [h1, h2, h3]
  · have h1 : (f.signBit + mag) % f.signBit = mag := by rw [Nat.add_mod_left]; exact Nat.mod_eq_of_lt (by omega)
    have h3 : ¬ f.infMag < mag := by omega
    simp [h1, h3]

/-- A value the format holds is rounded to itself. -/
theorem FpFormat.unpack_round (f : FpFormat) (hp : 1 ≤ f.prec) (s : Bool) {n : Nat} (h : f.holds n) :
    f.unpack (f.round s n 1) = .fin s n := by
  obtain ⟨h1, h2⟩ := f.roundMag_exact hp h
  rw [FpFormat.round, f.unpack_signed hp s (by omega), if_neg (by omega), h2]

/-- Naturals of few bits shifted left are held. -/
theorem FpFormat.holds_mul (f : FpFormat) (hp : 1 ≤ f.prec) {m k : Nat} (h : m < 2 ^ f.prec) (hk : k + 2 ≤ 2 ^ f.expw - 1) : f.holds (m * 2 ^ k) := by
  by_cases hm : m = 0
  · subst hm; simp [FpFormat.holds]; omega
  have hlog : (m * 2 ^ k).log2 = m.log2 + k := by
    have h1 := Nat.log2_self_le hm
    have h2 := Nat.lt_log2_self (n := m)
    apply (Nat.log2_eq_iff (by have := Nat.two_pow_pos k; positivity)).2
    constructor
    · rw [Nat.pow_add]; exact Nat.mul_le_mul_right _ h1
    · rw [show m.log2 + k + 1 = m.log2 + 1 + k by omega, Nat.pow_add]
      exact Nat.mul_lt_mul_of_pos_right h2 (Nat.two_pow_pos k)
  have := (Nat.log2_lt hm).2 h
  constructor
  · rw [hlog]
    exact Dvd.dvd.mul_left (Nat.pow_dvd_pow 2 (by omega)) m
  · rw [hlog]; omega

theorem binary64_unitExp : binary64.unitExp = 1074 := by decide

theorem binary32_unitExp : binary32.unitExp = 149 := by decide

/-- A signed magnitude that is no NaN fits in 64 bits. -/
theorem toNat_ofNat_signed64 {n : Nat} (h : n ≤ binary64.infMag) (s : Bool) : (BitVec.ofNat 64 (binary64.signed s n)).toNat = binary64.signed s n := by
  have : binary64.signed s n < 2 ^ 64 := by
    have h1 : binary64.infMag = 0x7FF0000000000000 := by decide
    have h2 : binary64.signBit = 0x8000000000000000 := by decide
    unfold FpFormat.signed; split <;> omega
  simp only [BitVec.toNat_ofNat]; exact Nat.mod_eq_of_lt this

/-- A signed magnitude that is no NaN fits in 32 bits. -/
theorem toNat_ofNat_signed32 {n : Nat} (h : n ≤ binary32.infMag) (s : Bool) : (BitVec.ofNat 32 (binary32.signed s n)).toNat = binary32.signed s n := by
  have : binary32.signed s n < 2 ^ 32 := by
    have h1 : binary32.infMag = 0x7F800000 := by decide
    have h2 : binary32.signBit = 0x80000000 := by decide
    unfold FpFormat.signed; split <;> omega
  simp only [BitVec.toNat_ofNat]; exact Nat.mod_eq_of_lt this

theorem unpack64_round (s : Bool) {n : Nat} (h : binary64.holds n) : unpack64 (BitVec.ofNat 64 (binary64.round s n 1)) = .fin s n := by
  unfold unpack64
  rw [show binary64.round s n 1 = binary64.signed s (binary64.roundMag n 1) from rfl, toNat_ofNat_signed64 (FpFormat.roundMag_le _ _ _)]
  exact binary64.unpack_round (by decide) s h

theorem FpFormat.round_false (f : FpFormat) (n d : Nat) : f.round false n d = f.roundMag n d := rfl

/-- to64 of a natural below 2^53 is exact (R10). -/
theorem unpack64_natTo64 {n : Nat} (h : n < 2 ^ 53) : unpack64 (natTo64 n) = .fin false (n * 2 ^ 1074) := by
  rw [natTo64, binary64_unitExp, ← FpFormat.round_false]
  exact unpack64_round false (binary64.holds_mul (by decide) h (by decide))

/-- The units of a finite binary32 value: 24 bits, shifted. -/
theorem unpack32_fin {x : F32} {s u} (h : unpack32 x = .fin s u) : ∃ m k, m < 2 ^ 24 ∧ k ≤ 253 ∧ u = m * 2 ^ k := by
  unfold unpack32 FpFormat.unpack at h
  dsimp only at h
  split at h
  · cases h
  · split at h
    · cases h
    · cases h
      rename_i h1 h2
      generalize x.toNat % binary32.signBit = mag at *
      have hi : binary32.infMag = 255 * 2 ^ 23 := by decide
      unfold FpFormat.unitsOf
      simp only [show binary32.prec - 1 = 23 by rfl]
      have hl := Nat.mod_lt mag (Nat.two_pow_pos 23)
      split
      · exact ⟨mag % 2 ^ 23, 0, by omega, by omega, by simp⟩
      · rename_i e he
        exact ⟨2 ^ 23 + mag % 2 ^ 23, e, by omega, by omega, rfl⟩

/-- to64 of a finite binary32 value is exact (R10). -/
theorem unpack64_f32To64 {x : F32} {s u} (h : unpack32 x = .fin s u) : unpack64 (f32To64 x) = .fin s (u * 2 ^ 925) := by
  unfold f32To64; rw [h]; dsimp only
  rw [binary64_unitExp, binary32_unitExp]
  obtain ⟨m, k, hm, hk, rfl⟩ := unpack32_fin h
  rw [Nat.mul_assoc, ← Nat.pow_add]
  exact unpack64_round s (binary64.holds_mul (by decide) (by simp [binary64]; omega) (by simp [binary64]; omega))

/-- A binary32 pattern is its sign and its magnitude. -/
theorem signed_mod_signBit32 (x : F32) : binary32.signed (binary32.signBit ≤ x.toNat) (x.toNat % binary32.signBit) = x.toNat := by
  have := x.isLt
  rw [show binary32.signBit = 0x80000000 from rfl]
  unfold FpFormat.signed
  rw [show binary32.signBit = 0x80000000 from rfl]
  split <;> rename_i h3 <;> simp only [decide_eq_true_eq] at h3 <;> omega

/-- The units of a finite binary32 value round to its pattern. -/
theorem round_unpack32 (x : F32) (s u) (h : unpack32 x = .fin s u) : BitVec.ofNat 32 (binary32.round s u 1) = x := by
  apply BitVec.eq_of_toNat_eq
  rw [show binary32.round s u 1 = binary32.signed s (binary32.roundMag u 1) from rfl, toNat_ofNat_signed32 (FpFormat.roundMag_le _ _ _)]
  unfold unpack32 FpFormat.unpack at h
  dsimp only at h
  split at h
  · cases h
  · split at h
    · cases h
    · cases h
      rename_i h1 h2
      rw [FpFormat.roundMag_unitsOf _ (by decide) (by omega)]
      exact signed_mod_signBit32 x

end Sys2Proof.Machine
end

