-- ==== Sys2Proof/Laws/PerInstr.lean ====
section
/-! SUPPORT. One law for every command, case by case: the fields of its word (30_encoding.md R91, R92). -/

namespace Sys2Proof.Laws.WordFields

/-- The word of a command has RSV = 0, the command's IMM2 and the command's OP, and OP is one of 0x01 to 0x0B (R91, R92). -/
def Statement (i : Instr) : Prop :=
  rsvField (encode i) = 0 ∧ immField (encode i) = immediate i ∧ opField (encode i) = opcode i ∧
    1 ≤ (opcode i).toNat ∧ (opcode i).toNat ≤ 0x0B

theorem loadmode (mode : BitVec 2) : Statement (.loadmode mode) := by
  unfold Statement; revert mode; decide

theorem genTone : Statement .genTone := by unfold Statement; decide

theorem encodeBit (bit : Bool) : Statement (.encodeBit bit) := by
  unfold Statement; revert bit; decide

theorem crc16 : Statement .crc16 := by unfold Statement; decide

theorem crcCheck : Statement .crcCheck := by unfold Statement; decide

theorem encodeFrame : Statement .encodeFrame := by unfold Statement; decide

theorem duration : Statement .duration := by unfold Statement; decide

theorem goertzel : Statement .goertzel := by unfold Statement; decide

theorem decodeBit : Statement .decodeBit := by unfold Statement; decide

theorem findPreamble : Statement .findPreamble := by unfold Statement; decide

theorem decodeFrame : Statement .decodeFrame := by unfold Statement; decide

end Sys2Proof.Laws.WordFields
end

