-- ==== Sys2Proof/Laws/Step.lean ====
section
/-! SUPPORT. What a step can do, said once: the block completes its command, or the host takes its next line, whose bus accesses have
the effects listed here. -/

namespace Sys2Proof.Machine

/-- What a bus write can do (20_memory.md R69). -/
inductive WriteEffect (s : State) : State → Prop where
  /-- a write to a read-only register while BUSY = 0 (R39) -/
  | ignored (h : s.status.busy = false) : WriteEffect s s
  /-- a bus error (R65) -/
  | busError (off : Nat) : WriteEffect s (s.recordFaults [.busError off])
  /-- a write dropped because BUSY = 1 (R39) -/
  | dropped (h : s.status.busy = true) : WriteEffect s s.reject
  /-- CMD (R111) -/
  | accepted (w : Word) (h : s.status.busy = false) : WriteEffect s (s.accept w)
  /-- a configuration register (R26) -/
  | config (f : FskConfig → FskConfig) (h : s.status.busy = false) : WriteEffect s (s.writeCfg f)
  /-- an operand register (R36) -/
  | operands (o : OperandRegs) (h : s.status.busy = false) : WriteEffect s { s with ops := o }
  /-- STATUS (R23) -/
  | acknowledged (v : Word) : WriteEffect s (s.acknowledge v)
  /-- CTRL without SRST (R24) -/
  | irqEnable (b : Bool) : WriteEffect s { s with irqEn := b }
  /-- CTRL with SRST (R271) -/
  | reset : WriteEffect s s.softReset
  /-- the byte RAM window (R64) -/
  | bytes (k : Nat) (bs : List Byte) (h : s.status.busy = false)
    (hin : s.params.wf → k + bs.length ≤ s.params.byteRamBytes) : WriteEffect s (s.writeBytes k bs)
  /-- the sample RAM window (R66) -/
  | sample (i : Nat) (v : Word) (h : s.status.busy = false) (hin : i + 1 ≤ s.params.sampleRamWords) :
    WriteEffect s (s.writeSamples i [v])

theorem writeReg_effect (s : State) (r : HostReg) (v : Word) : WriteEffect s (s.writeReg r v) := by
  unfold State.writeReg
  split
  · rename_i h
    simp only [Bool.and_eq_true] at h
    exact .dropped h.1.1
  · rename_i h
    cases r
    case ctrl =>
      show WriteEffect s (s.writeCtrl v)
      unfold State.writeCtrl
      split
      · exact .reset
      · exact .irqEnable _
    case status => exact .acknowledged v
    all_goals
      simp only [State.writeRegIdle]
      have hb : s.status.busy = false := by cases hb : s.status.busy <;> simp_all
      first
        | exact .ignored hb
        | exact .accepted v hb
        | exact .config _ hb
        | exact .operands _ hb

/-- What an aligned access reaches, by the bounds of the windows. -/
theorem alignedTarget_cases (p : Params) (off : Nat) :
    (∃ r, alignedTarget p off = .reg r) ∨ alignedTarget p off = .busError ∨
      (alignedTarget p off = .byteWord (off - byteWindow) ∧ byteWindow ≤ off ∧ off < byteWindow + p.byteRamBytes) ∨
      (alignedTarget p off = .sampleWord ((off - sampleWindow) / 4) ∧ sampleWindow ≤ off ∧
        off < sampleWindow + 4 * p.sampleRamWords) := by
  unfold alignedTarget
  by_cases h1 : off < 0x100
  · rw [if_pos h1]
    cases HostReg.atOffset off with
    | none => exact .inr (.inl rfl)
    | some r => exact .inl ⟨r, rfl⟩
  · rw [if_neg h1]
    by_cases h2 : byteWindow ≤ off ∧ off < byteWindow + p.byteRamBytes
    · rw [if_pos h2]; exact .inr (.inr (.inl ⟨rfl, h2⟩))
    · rw [if_neg h2]
      by_cases h3 : sampleWindow ≤ off ∧ off < sampleWindow + 4 * p.sampleRamWords
      · rw [if_pos h3]; exact .inr (.inr (.inr ⟨rfl, h3⟩))
      · rw [if_neg h3]; exact .inr (.inl rfl)

/-- An access that reaches a word of the byte RAM window reaches a whole word inside the RAM. -/
theorem busTarget_byteWord {p : Params} {width : Nat} {off : Word} {k : Nat} (h : busTarget p width off = .byteWord k)
    (hp : p.wf) : k + 4 ≤ p.byteRamBytes := by
  unfold busTarget at h
  by_cases ha : width = 4 ∧ off.toNat % 4 = 0
  · rw [if_pos ha] at h
    obtain ⟨_, h4, _⟩ := hp
    rcases alignedTarget_cases p off.toNat with ⟨r, hr⟩ | hr | ⟨hr, h1, h2⟩ | ⟨hr, h1, h2⟩ <;> rw [hr] at h
    · exact Target.noConfusion h
    · exact Target.noConfusion h
    · have hk := Target.byteWord.inj h
      simp only [byteWindow] at h1 h2 hk
      omega
    · exact Target.noConfusion h
  · rw [if_neg ha] at h
    exact Target.noConfusion h

/-- An access that reaches a word of the sample RAM window reaches a word inside the RAM. -/
theorem busTarget_sampleWord {p : Params} {width : Nat} {off : Word} {i : Nat} (h : busTarget p width off = .sampleWord i) :
    i + 1 ≤ p.sampleRamWords := by
  unfold busTarget at h
  by_cases ha : width = 4 ∧ off.toNat % 4 = 0
  · rw [if_pos ha] at h
    rcases alignedTarget_cases p off.toNat with ⟨r, hr⟩ | hr | ⟨hr, h1, h2⟩ | ⟨hr, h1, h2⟩ <;> rw [hr] at h
    · exact Target.noConfusion h
    · exact Target.noConfusion h
    · exact Target.noConfusion h
    · have hk := Target.sampleWord.inj h
      simp only [sampleWindow] at h1 h2 hk
      omega
  · rw [if_neg ha] at h
    exact Target.noConfusion h

theorem busWrite_effect (s : State) (width : Nat) (off v : Word) : WriteEffect s (s.busWrite width off v) := by
  unfold State.busWrite
  split
  · exact .busError _
  · exact writeReg_effect s _ v
  · rename_i k h
    split
    · rename_i hb; exact .dropped hb
    · rename_i hb
      exact .bytes k _ (by simpa using hb) fun hp => busTarget_byteWord h hp
  · rename_i i h
    split
    · rename_i hb; exact .dropped hb
    · rename_i hb
      exact .sample i v (by simpa using hb) (busTarget_sampleWord h)

/-- What a read can leave of what the host is shown: nothing less, or, at a read that returns BUSY = 0 or DONE = 1, everything
(20_memory.md R72). -/
def State.readShows (s : State) (b : Option Before) : Prop :=
  b = s.before ∨ (b = none ∧ (s.status.busy = false ∨ s.status.done = true))

theorem State.statusRead_cases (s : State) : ∃ b, s.readShows b ∧ s.statusRead = { s with before := b } := by
  unfold State.statusRead
  split
  · rename_i h
    exact ⟨none, .inr ⟨rfl, by simpa using h⟩, rfl⟩
  · exact ⟨s.before, .inl rfl, rfl⟩

/-- A bus read moves the fault set, the draw counter and what the host has been shown at most (R69). -/
theorem busRead_frame (s : State) (width : Nat) (off : Word) :
    ∃ fs n b, s.readShows b ∧ (s.busRead width off).1 = { s.recordFaults fs with draws := n, before := b } := by
  unfold State.busRead
  split
  · exact ⟨[.busError off.toNat], s.draws, s.before, .inl rfl, rfl⟩
  · split
    · exact ⟨[], s.draws + 1, s.before, .inl rfl, rfl⟩
    · dsimp only
      split
      · obtain ⟨b, hb, e⟩ := s.statusRead_cases
        exact ⟨[], s.draws, b, hb, e⟩
      · exact ⟨[], s.draws, s.before, .inl rfl, rfl⟩
  · rename_i k _
    split
    · exact ⟨[], s.draws + 1, s.before, .inl rfl, rfl⟩
    · exact ⟨s.unwrittenBytes k 4, s.draws, s.before, .inl rfl, rfl⟩
  · rename_i i _
    split
    · exact ⟨[], s.draws + 1, s.before, .inl rfl, rfl⟩
    · exact ⟨s.unwrittenSamples i 1, s.draws, s.before, .inl rfl, rfl⟩

/-- The address of an offset stands for that offset, whatever BASE is. -/
@[simp] theorem offsetAt_busAddress (p : Params) (off : Word) : offsetAt p (busAddress p off) = some off := by
  have h := off.isLt
  have ho : p.base + off.toNat - p.base = off.toNat := by omega
  simp [offsetAt, busAddress, h, ho]

/-- A host write at the address of an offset is the bus write at that offset. -/
@[simp] theorem State.hostWrite_busAddress (s : State) (width : Nat) (off v : Word) :
    s.hostWrite width (busAddress s.params off) v = s.busWrite width off v := by
  simp [State.hostWrite]

/-- A host read at the address of an offset is the bus read at that offset. -/
@[simp] theorem State.hostRead_busAddress (s : State) (width : Nat) (off : Word) :
    s.hostRead width (busAddress s.params off) = s.busRead width off := by
  simp [State.hostRead]

/-- What the host's turn can do when it does not stop. -/
inductive HostEffect (s : State) : State → Prop where
  /-- the host has halted or its program is at an end -/
  | idle : HostEffect s s
  /-- WR -/
  | wrote (u : State) (line : Nat) (h : WriteEffect s u) : HostEffect s (u.goto line)
  /-- RD -/
  | read (fs : List ModelFault) (n : Nat) (b : Option Before) (hb : s.readShows b) (var : Nat) (v : Option Word) (line : Nat) :
    HostEffect s (({ s.recordFaults fs with draws := n, before := b }.setVar var v).goto line)
  /-- BNZ -/
  | branched (line : Nat) : HostEffect s (s.goto line)
  /-- HALT -/
  | halted : HostEffect s s.halt

theorem hostTurn_effect {s t : State} (h : hostTurn s = .next t) : HostEffect s t := by
  unfold hostTurn at h
  split at h
  · cases h; exact .idle
  · split at h
    · rename_i st _
      cases st with
      | wr width off v =>
        simp only [runHostStep, State.hostWrite_busAddress] at h
        cases h
        exact .wrote _ _ (busWrite_effect s width off v)
      | rd width off var =>
        simp only [runHostStep, State.hostRead_busAddress] at h
        cases h
        obtain ⟨fs, n, b, hb, hr⟩ := busRead_frame s width off
        rw [hr]
        exact .read fs n b hb var _ _
      | bnz var mask line =>
        simp only [runHostStep] at h
        split at h
        · cases h; exact .branched _
        · cases h
      | halt => cases h; exact .halted
    · cases h; exact .idle

/-- The host's turn never refuses, and stops only on a branch without a value. -/
theorem hostTurn_total (s : State) : (∃ t, hostTurn s = .next t) ∨ ∃ v, hostTurn s = .fault (.hostNoValue v) := by
  unfold hostTurn
  split
  · exact .inl ⟨_, rfl⟩
  · split
    · rename_i st _
      cases st with
      | wr width off v => exact .inl ⟨_, rfl⟩
      | rd width off var => exact .inl ⟨_, rfl⟩
      | bnz var mask line =>
        simp only [runHostStep]
        split
        · exact .inl ⟨_, rfl⟩
        · exact .inr ⟨_, rfl⟩
      | halt => exact .inl ⟨_, rfl⟩
    · exact .inl ⟨_, rfl⟩

/-- The block's turn completes the command in flight, an illegal word included. -/
theorem blockTurn_completion (s : State) : ∃ t, blockTurn s = .next t ∧ Completion s t := by
  unfold blockTurn
  split
  · exact exec_completion _ s
  · exact ⟨_, rfl, .failed' _ (by decide)⟩

/-- What a step can do when it does not stop. -/
theorem step_cases {s t : State} (h : step s = .next t) :
    (s.status.busy = true ∧ s.turn = .block ∧ Completion s.takeTurn t) ∨ (s.turn = .host ∧ HostEffect s.takeTurn t) := by
  unfold step at h
  split at h
  · rename_i ht
    obtain ⟨t', ht', hc⟩ := blockTurn_completion s.takeTurn
    rw [ht'] at h
    cases h
    exact .inl ⟨s.busy_of_turn ht, ht, hc⟩
  · rename_i ht
    exact .inr ⟨ht, hostTurn_effect h⟩

/-- A run of one step more is a step and the rest of the run. -/
theorem core_run_succ (M : Host.Core) (k : Nat) (s u : M.State) :
    M.run (k + 1) s = .next u ↔ ∃ t, M.step s = .next t ∧ M.run k t = .next u := by
  rw [Host.Core.run]
  cases M.step s <;> simp

/-- A step on the host's turn is the host's next line, from the state with that turn used up. -/
theorem step_host {s : State} (h : s.status.busy = false ∨ s.sched.head? = some .host) :
    step s = hostTurn { s with sched := if s.status.busy then s.sched.tail else s.sched } := by
  rw [step, s.turn_host h, s.takeTurn_eq]

/-- A bus write leaves the host alone. -/
theorem WriteEffect.host_eq {s t : State} (h : WriteEffect s t) : t.host = s.host := by
  cases h with
  | reset =>
    obtain ⟨_, _, _, _, e | e⟩ := s.abort_cases
    all_goals rw [State.softReset, e]; rfl
  | _ => rfl

/-- A command leaves the host alone. -/
theorem Completion.host_eq {s t : State} (h : Completion s t) : t.host = s.host := by
  cases h with
  | failed fs c hc => simp
  | done fs u r0 r1 r2 f hu => cases hu <;> simp

/-- The host's turn executes HALT just where HALT is its line, and then does nothing else (R102). -/
theorem hostTurn_halts {s t : State} (h : hostTurn s = .next t) (hs : s.host.halted = false) :
    t.host.halted = true ↔ s.host.program[s.host.pos]? = some .halt ∧ t = s.halt := by
  unfold hostTurn at h
  rw [if_neg (by simp [hs])] at h
  cases hp : s.host.program[s.host.pos]? with
  | none => rw [hp] at h; cases h; simp [hs]
  | some line =>
    rw [hp] at h
    cases line with
    | wr width off v =>
      simp only [runHostStep, State.hostWrite_busAddress] at h
      cases h
      simp [State.goto, (busWrite_effect s width off v).host_eq, hs]
    | rd width off var =>
      simp only [runHostStep, State.hostRead_busAddress] at h
      cases h
      obtain ⟨fs, n, b, _, hr⟩ := busRead_frame s width off
      rw [hr]
      cases (s.busRead width off).2 <;> simp [State.goto, State.setVar, State.recordFaults, hs]
    | bnz var mask line =>
      simp only [runHostStep] at h
      split at h <;> cases h
      simp [State.goto, hs]
    | halt => cases h; simp [State.halt]

/-- A host that has executed HALT takes no further line (R102). -/
theorem step_halted {s t : State} (h : step s = .next t) (hs : s.host.halted = true) : t.host.halted = true := by
  unfold step at h
  split at h
  · obtain ⟨u, hu, hc⟩ := blockTurn_completion s.takeTurn
    rw [hu] at h
    cases h
    rw [hc.host_eq, State.takeTurn_host, hs]
  · rw [hostTurn, if_pos (by simp [hs])] at h
    cases h
    rw [State.takeTurn_host, hs]

end Sys2Proof.Machine
end

