-- ==== Sys2Proof/Machine/HostNotation.lean ====
section
/-! DEFINITION. The host notation of 30_encoding.md R100 and the pseudo-instructions of R101 with their expansions into host
steps. A label is a line number, so an expansion that holds a label takes the line it starts on. An index of WRF, RDF or WRB whose
offset is 2^32 or more has no offset in R60; the model reduces the offset mod 2^32 (DESIGN CHOICE, log 24, unsafe). -/

namespace Sys2Proof.Machine

/-- `WR <reg>, <v>` with a register name. -/
def HostStep.writeReg (r : HostReg) (v : Word) : HostStep := .wr 4 (BitVec.ofNat 32 r.offset) v

/-- `RD <reg> -> <t>` with a register name. -/
def HostStep.readReg (r : HostReg) (t : Nat) : HostStep := .rd 4 (BitVec.ofNat 32 r.offset) t

/-- `CMD <MNEMONIC> [<imm>]`. -/
def HostStep.command (i : Instr) : HostStep := .writeReg .cmd (encode i)

/-- `WAIT` at a line: poll STATUS until BUSY = 0. -/
def waitSteps (line t : Nat) : List HostStep := [.readReg .status t, .bnz t 0x1 line]

/-- `RUN <MNEMONIC> [<imm>]` at a line: the blocking call. -/
def runSteps (line t : Nat) (i : Instr) : List HostStep := .command i :: waitSteps (line + 1) t

/-- `ACK`: clear DONE and REJ. -/
def ackStep : HostStep := .writeReg .status 0x0000000A

/-- `WRF <i>, <x>`: write a binary32 pattern to S[i]. The offset is taken mod 2^32 (DESIGN CHOICE, log 24). -/
def writeSampleStep (i : Nat) (x : F32) : HostStep := .wr 4 (BitVec.ofNat 32 (sampleWindow + 4 * i)) x

/-- `WRB <k>, <b0> <b1> <b2> <b3>`: write four bytes to B[k] on, k a multiple of 4. The offset is taken mod 2^32 (DESIGN CHOICE,
log 24). -/
def writeBytesStep (k : Nat) (b0 b1 b2 b3 : Byte) : HostStep :=
  .wr 4 (BitVec.ofNat 32 (byteWindow + k)) (packBytes b0 b1 b2 b3)

/-- `RDF <i> -> <t>`: read S[i]. The offset is taken mod 2^32 (DESIGN CHOICE, log 24). -/
def readSampleStep (i t : Nat) : HostStep := .rd 4 (BitVec.ofNat 32 (sampleWindow + 4 * i)) t

end Sys2Proof.Machine
end

