-- ==== Sys2Proof/Tests/Slice0.lean ====
section
/-! SUPPORT. Small tests, one step each. Expected values are the vectors of 95_test_vectors.md (named V-…) or the encodings of
30_encoding.md; the last part shows, for every obligation with hypotheses, operands and a state that meet them. -/

set_option Elab.async false

namespace Sys2Proof.Tests
open Sys2Proof Sys2Proof.Machine

/-- The state a command leaves; reset where it stops, which no command does. -/
def after : Result → State
  | .next t => t
  | .fault _ => State.reset
  | .refused _ => State.reset

/-- A step answers a next state. -/
def isNext : Result → Bool
  | .next _ => true
  | .fault _ => false
  | .refused _ => false

/-- STATUS and the results after the command of a word performed at once. -/
def report (s : State) (w : Word) : Word × Word × Word × Word :=
  let t := after (step (s.withFetchWord 32 w.toNat))
  (t.readReg .status, t.readReg .result0, t.readReg .result1, t.readReg .result2)

/-- FRESULT after the command of a word performed at once. -/
def fresult (s : State) (w : Word) : F64 :=
  let t := after (step (s.withFetchWord 32 w.toNat))
  t.readReg .fresultHi ++ t.readReg .fresultLo

/-- Reset with a payload written from B[a] on and BYTE_ADDR, BYTE_LEN set to it. -/
def withPayload (a : Nat) (bs : List Byte) : State :=
  { State.reset with bram := cellRun a bs,
                     ops := { OperandRegs.reset with byteAddr := BitVec.ofNat 32 a, byteLen := BitVec.ofNat 32 bs.length } }

/-- Reset with samples written from S[a] on and SRC_ADDR, SRC_LEN set to them. -/
def withSamples (a : Nat) (xs : List F32) : State :=
  { State.reset with sram := cellRun a xs,
                     ops := { OperandRegs.reset with srcAddr := BitVec.ofNat 32 a, srcLen := BitVec.ofNat 32 xs.length } }

/-- Reset with some operand registers set. -/
def withOps (o : OperandRegs) : State := { State.reset with ops := o }

/-- Reset with a word in flight and a host program. -/
def inFlight (w : Word) (program : List HostStep) (sched : List Agent) : State :=
  { State.reset.accept w with host := { HostAgent.reset with program := program }, sched := sched }

/-- Reset with a host program. -/
def withProgram (program : List HostStep) : State :=
  { State.reset with host := { HostAgent.reset with program := program } }

/-- The bytes of "Hello uDOS!". -/
def hello : List Byte := [0x48, 0x65, 0x6C, 0x6C, 0x6F, 0x20, 0x75, 0x44, 0x4F, 0x53, 0x21]

/-- The bytes of "123456789". -/
def digits : List Byte := [0x31, 0x32, 0x33, 0x34, 0x35, 0x36, 0x37, 0x38, 0x39]

/-- Binary32 1.0, -0.5 and a NaN. -/
def one32 : F32 := 0x3F800000
def minusHalf32 : F32 := 0xBF000000
def nan32 : F32 := 0x7FC00000

/-! Well-formedness: its one check, and what passes it. -/

theorem test_wellFormed_refuses_mode_three : WellFormed (.loadmode 3) = false := by decide
theorem test_wellFormed_accepts_the_modes : ∀ m ∈ [0#2, 1#2, 2#2], WellFormed (.loadmode m) = true := by decide

/-! Decoding: words written out from R91 and R92, bits 31:10, then 9:8, then 7:0. -/

theorem test_decode_loadmode : decode (0b0000000000000000000000#22 ++ 0b10#2 ++ 0b00000001#8) = .ok (.loadmode 2) := by decide
theorem test_decode_genTone : decode (0b0000000000000000000000#22 ++ 0b00#2 ++ 0b00000010#8) = .ok .genTone := by decide
theorem test_decode_encodeBit : decode (0b0000000000000000000000#22 ++ 0b01#2 ++ 0b00000011#8) = .ok (.encodeBit true) := by decide
theorem test_decode_crc16 : decode (0b0000000000000000000000#22 ++ 0b00#2 ++ 0b00000100#8) = .ok .crc16 := by decide
theorem test_decode_crcCheck : decode (0b0000000000000000000000#22 ++ 0b00#2 ++ 0b00000101#8) = .ok .crcCheck := by decide
theorem test_decode_encodeFrame : decode (0b0000000000000000000000#22 ++ 0b00#2 ++ 0b00000110#8) = .ok .encodeFrame := by decide
theorem test_decode_duration : decode (0b0000000000000000000000#22 ++ 0b00#2 ++ 0b00000111#8) = .ok .duration := by decide
theorem test_decode_goertzel : decode (0b0000000000000000000000#22 ++ 0b00#2 ++ 0b00001000#8) = .ok .goertzel := by decide
theorem test_decode_decodeBit : decode (0b0000000000000000000000#22 ++ 0b00#2 ++ 0b00001001#8) = .ok .decodeBit := by decide
theorem test_decode_findPreamble : decode (0b0000000000000000000000#22 ++ 0b00#2 ++ 0b00001010#8) = .ok .findPreamble := by decide
theorem test_decode_decodeFrame : decode (0b0000000000000000000000#22 ++ 0b00#2 ++ 0b00001011#8) = .ok .decodeFrame := by decide

/-- R96, one word of each line: OP 0x00, OP 0x0C, OP 0xFF, RSV, mode 3, bit 9, IMM2. -/
theorem test_decode_illegal :
    decode 0x00000000 = .error .unknownOpcode ∧ decode 0x0000000C = .error .unknownOpcode ∧
    decode 0x000000FF = .error .unknownOpcode ∧ decode 0x00000404 = .error .reservedBits ∧
    decode 0x00000301 = .error .modeThree ∧ decode 0x00000203 = .error .bitNine ∧ decode 0x00000102 = .error .immediate := by
  decide

/-- The opcode table's rows, by the numbers it gives their bits. -/
theorem test_decodeTableWord : decodeTableWord 32 0x00000103 = some (.encodeBit true) ∧ decodeTableWord 32 0x0000000B = some .decodeFrame ∧
    decodeTableWord 32 0x00000301 = none := by decide

/-- Every command runs as the first after reset. -/
theorem test_every_command_runs_from_reset :
    ∀ w ∈ [0x001, 0x101, 0x201, 0x002, 0x003, 0x103, 0x004, 0x005, 0x006, 0x007, 0x008, 0x009, 0x00A, 0x00B],
      isNext (step (State.reset.withFetchWord 32 w)) = true := by decide

/-! Commands. -/

/-- V-LM-2: LOADMODE ULTRASONIC. -/
theorem test_loadmode_ultrasonic :
    report State.reset 0x101 = (0x00010006, 1, 0, 0) ∧
    (let t := after (step (State.reset.withFetchWord 32 0x101))
     t.readReg .bitRate = 600 ∧ t.readReg .markFreq = 19000 ∧ t.readReg .spaceFreq = 18000 ∧ t.readReg .spb = 80 ∧
       t.readReg .mode = 1) := by decide

/-- V-LM-4: mode 3 is illegal. -/
theorem test_loadmode_three : report State.reset 0x301 = (0x00010102, 0, 0, 0) := by decide

/-- V-TONE-5 and V-TONE-6: a range that ends at the end of S, and one that leaves it. -/
theorem test_genTone_range :
    report (withOps { OperandRegs.reset with dstAddr := 262144 }) 0x002 = (0x00020006, 0, 0, 0) ∧
    report (withOps { OperandRegs.reset with dstAddr := 262143, count := 2 }) 0x002 = (0x00020402, 0, 0, 0) := by decide

/-- V-TONE-7: the sum of a range is not wrapped. -/
theorem test_genTone_no_wrap :
    report (withOps { OperandRegs.reset with dstAddr := 0xFFFFFFFF, count := 2 }) 0x002 = (0x00020402, 0, 0, 0) := by decide

/-- V-TONE-2: the report of ENCODE_BIT 1. -/
theorem test_encodeBit_report : report State.reset 0x103 = (0x00030006, 480, 1, 0) := by decide

/-- V-TONE-9: bit 9 of ENCODE_BIT is illegal. -/
theorem test_encodeBit_bit_nine : report State.reset 0x203 = (0x00030102, 0, 0, 0) := by decide

/-- V-CRC-4 with V-CFG-7: CRC16 of "123456789", the configuration not valid. -/
theorem test_crc16_digits :
    report { withPayload 0 digits with cfg := { FskConfig.reset with markFreq := 2200 } } 0x004 = (0x00040006, 0x29B1, 0, 0) := by
  decide +kernel

/-- V-CRC-11 and V-CRC-12. -/
theorem test_crc16_range :
    report (withOps { OperandRegs.reset with byteAddr := 65530, byteLen := 7 }) 0x004 = (0x00040502, 0, 0, 0) ∧
    report (withOps { OperandRegs.reset with byteAddr := 65536 }) 0x004 = (0x00040006, 0xFFFF, 0, 0) := by decide

/-- V-CRC-9: CRC_CHECK ignores ARG[31:16]. -/
theorem test_crcCheck_match :
    report { withPayload 0 hello with ops := { (withPayload 0 hello).ops with arg := 0x1234A27D } } 0x005 =
      (0x00050006, 0xA27D, 0, 0) := by decide +kernel

/-- V-CRC-8. -/
theorem test_crcCheck_mismatch :
    report { withPayload 0 hello with ops := { (withPayload 0 hello).ops with arg := 0xA27C } } 0x005 = (0x00051302, 0, 0, 0) := by
  decide +kernel

/-- V-CRC-1, V-CRC-2, V-CRC-3, V-CRC-3b. -/
theorem test_crc_values : crc [] = 0xFFFF ∧ crc [0x41] = 0xB915 ∧ crc [0x00] = 0xE1F0 ∧ crc [0xFF] = 0xFF00 := by decide

/-- V-ENC-2: the report of an empty frame. -/
theorem test_encodeFrame_empty : report State.reset 0x006 = (0x00060006, 26880, 56, 0xFFFF) := by decide

/-- V-ENC-4 and V-ENC-5: LENGTH_TOO_LARGE, and CFG_INVALID before it. -/
theorem test_encodeFrame_too_long :
    report (withOps { OperandRegs.reset with byteLen := 65536 }) 0x006 = (0x00060302, 0, 0, 0) ∧
    report { withOps { OperandRegs.reset with byteLen := 70000 } with cfg := { FskConfig.reset with markFreq := 2200 } } 0x006 =
      (0x00060202, 0, 0, 0) := by decide

/-- V-ENC-2: the frame bits of no bytes. -/
theorem test_frameBits_empty :
    frameBits 16 8 [] = [false, true, false, true, false, true, false, true, false, true, false, true, false, true, false, true] ++
      List.replicate 16 false ++ List.replicate 16 true ++ List.replicate 8 true := by decide

/-- V-DUR-1: 144 bits last 1.44 s. -/
theorem test_duration_audible :
    report (withOps { OperandRegs.reset with byteLen := 11, byteAddr := 0xFFFFFFFF }) 0x007 = (0x00070006, 144, 0, 0) ∧
    fresult (withOps { OperandRegs.reset with byteLen := 11 }) 0x007 = 0x3FF70A3D70A3D70A := by decide +kernel

/-- V-DUR-6: 144/7, rounded once. -/
theorem test_duration_seventh :
    fresult { withOps { OperandRegs.reset with byteLen := 11 } with cfg := { FskConfig.reset with bitRate := 7 } } 0x007 =
      0x4034924924924925 := by decide +kernel

/-- V-GZ-7, the coefficient of the reference cosine given. -/
theorem test_goertzel_four_ones : goertzelWith two64 [one32, one32, one32, one32] = 0x4010000000000000 := by decide +kernel

/-- V-GZ-9: a NaN sample is no failure and gives the canonical NaN. -/
theorem test_goertzel_nan :
    report (withSamples 0 [nan32]) 0x008 = (0x00080006, 1, 0, 0) ∧ fresult (withSamples 0 [nan32]) 0x008 = 0x7FF8000000000000 := by
  decide

/-- V-DB-5: a NaN decides 0. -/
theorem test_decodeBit_nan : report (withSamples 0 [nan32]) 0x009 = (0x00090006, 0, 1, 0) := by decide

/-- V-CFG-3: SPB 0 is no valid configuration. -/
theorem test_decodeBit_cfg :
    report { State.reset with cfg := { FskConfig.reset with sampleRate := 50 } } 0x009 = (0x00090202, 0, 0, 0) := by decide

/-- V-FP-5 with fewer samples: no window fits. -/
theorem test_findPreamble_short : report (withSamples 0 (List.replicate 100 0)) 0x00A = (0x000A1002, 0, 0, 0) := by decide +kernel

/-- V-DEC-12. -/
theorem test_decodeFrame_silence : report (withSamples 0 (List.replicate 100 0)) 0x00B = (0x000B1002, 0, 0, 0) := by decide +kernel

/-- V-DEC-14. -/
theorem test_decodeFrame_range :
    report (withOps { OperandRegs.reset with srcLen := 262145 }) 0x00B = (0x000B0402, 0, 0, 0) := by decide

/-- The bits of V-ENC-1 after the preamble: length 11, "Hello uDOS!", 0xA27D, eight ones. -/
def helloBits : List Bool :=
  ([0x00, 0x0B] ++ hello ++ [0xA2, 0x7D, 0xFF]).flatMap
    (fun b : Byte => [b.getLsbD 7, b.getLsbD 6, b.getLsbD 5, b.getLsbD 4, b.getLsbD 3, b.getLsbD 2, b.getLsbD 1, b.getLsbD 0])

/-- V-ENC-1 and V-DEC-1 on bit lists. -/
theorem test_parse_hello : frameBody 8 hello = helloBits ∧ parseFrame 8 helloBits = .ok hello := by decide +kernel

/-- V-DEC-5 and V-DEC-6 on bit lists: 31 bits, 32 bits, one bit short. -/
theorem test_parse_short : parseFrame 8 (helloBits.take 31) = .error .tooFewBits ∧
    parseFrame 8 (helloBits.take 32) = .error .truncated ∧ parseFrame 8 (helloBits.take 127) = .error .truncated := by
  decide +kernel

/-- V-TONE-11's scaling: half of 0x3E20305B. -/
theorem test_scale_half : mul32 nan32 0x3E20305B 0x3F000000 = 0x3DA0305B := by decide

/-! The command interface. -/

/-- V-EXC-6 and V-EXC-7: writes while busy. -/
theorem test_writes_while_busy :
    (let s := inFlight 0x002 [] []
     s.busWrite 4 0x044 5 = s.reject ∧ s.busWrite 4 0x040 4 = s.reject ∧ s.busWrite 4 0x00010000 0 = s.reject ∧
       s.reject.readReg .status = 0x00000009 ∧ (s.reject.busWrite 4 0x008 8).readReg .status = 0x00000001) := by decide

/-- V-EXC-8: a read-only register takes no write. -/
theorem test_read_only : State.reset.busWrite 4 0x00C 5 = State.reset ∧ State.reset.busWrite 4 0x060 5 = State.reset := by decide

/-- V-EXC-9 and V-EXC-10: the model faults. -/
theorem test_model_faults :
    (State.reset.busRead 2 0x000).1.faults = [.busError 0x000] ∧ (State.reset.busWrite 4 0x002 0).faults = [.busError 0x002] ∧
    (State.reset.busWrite 4 0x0C0 0).faults = [.busError 0x0C0] ∧
    (State.reset.busRead 4 0x00010000).1.faults =
      [.uninitRead .byteRam 0, .uninitRead .byteRam 1, .uninitRead .byteRam 2, .uninitRead .byteRam 3] := by decide

/-- V-EXC-11: a soft reset with a command in flight. -/
theorem test_soft_reset : (inFlight 0x002 [] []).busWrite 4 0x004 3 = { State.reset with host := HostAgent.reset } := by decide

/-- V-EXC-4 and V-EXC-5: IRQ. -/
theorem test_irq :
    (after (step ({ State.reset with irqEn := true }.withFetchWord 32 0x001))).irq = true ∧
    ((after (step ({ State.reset with irqEn := true }.withFetchWord 32 0x001))).busWrite 4 0x008 0xA).irq = false ∧
    (after (step (State.reset.withFetchWord 32 0x001))).irq = false ∧
    ((after (step (State.reset.withFetchWord 32 0x001))).busWrite 4 0x004 2).irq = true := by decide

/-- R64: the payload bytes "He" read as a word with bits 15:0 = 0x6548. -/
theorem test_byte_packing :
    ((withPayload 0 [0x48, 0x65, 0, 0]).busRead 4 0x00010000).2 = some 0x00006548 := by decide

/-- V-LM-1 before the command: a configuration write sets MODIFIED and moves SPB. -/
theorem test_modified : (State.reset.busWrite 4 0x024 300).readReg .mode = 4 ∧ (State.reset.busWrite 4 0x024 300).readReg .spb = 160 := by
  decide

/-- R101: WAIT, ACK, WRF and WRB as the bus accesses of P1 and R101. -/
theorem test_host_notation :
    runSteps 0 7 (.loadmode 1) = [.wr 4 0x040 0x101, .rd 4 0x008 7, .bnz 7 1 1] ∧ ackStep = .wr 4 0x008 0xA ∧
    writeSampleStep 2 one32 = .wr 4 0x00100008 one32 ∧ writeBytesStep 4 1 2 3 4 = .wr 4 0x00010004 0x04030201 ∧
    readSampleStep 1 0 = .rd 4 0x00100004 0 := by decide

/-! Witnesses: for every obligation with hypotheses, operands and a state that meet them all, at the ends of their ranges. -/

theorem test_meets_DecodeAndEncodeAreInverse :
    WellFormed (.loadmode 2) = true ∧ WellFormed (.encodeBit true) = true ∧ decode 0x00000201 = .ok (.loadmode 2) ∧
    decode 0x0000000B = .ok .decodeFrame := by decide

theorem test_meets_IllegalWordIsAcceptedAndFails :
    State.reset.status.busy = false ∧ (∃ e, decode 0x0000000C = .error e) ∧ ([] : List Agent).head? ≠ some .host :=
  ⟨rfl, ⟨.unknownOpcode, by decide⟩, by decide⟩

theorem test_meets_StepPerformsDecodedCommand :
    (inFlight 0x103 [] [.block]).status.busy = true ∧ (inFlight 0x103 [] [.block]).sched.head? ≠ some .host ∧
      decode (inFlight 0x103 [] [.block]).cmd = .ok (.encodeBit true) := by decide

theorem test_meets_AcceptanceOfACommand : State.reset.status.busy = false := by decide

/-- The first and the last word of each region, and each read-only register. -/
theorem test_meets_WritesWhileBusyAreDropped :
    (inFlight 0x002 [] []).status.busy = true ∧
    (∀ o ∈ [0x000, 0x074, 0x00010000, 0x0001FFFC, 0x00100000, 0x001FFFFC],
      mappedAccess (inFlight 0x002 [] []).params 4 (BitVec.ofNat 32 o) ∧ BitVec.ofNat 32 o ≠ 0x004 ∧ BitVec.ofNat 32 o ≠ 0x008) ∧
    State.reset.status.busy = false ∧
    (∀ o ∈ [0x000, 0x00C, 0x010, 0x060, 0x064, 0x068, 0x070, 0x074],
      (BitVec.ofNat 32 o).toNat ∈ [0x000, 0x00C, 0x010, 0x060, 0x064, 0x068, 0x070, 0x074]) := by
  unfold mappedAccess; decide

/-- Both outcomes of a host step while BUSY = 1: a dropped write, and a soft reset; and, in the time of R72 with the block's transition
taken, a STATUS read, a soft reset, a configuration write, and a CMD write. -/
theorem test_meets_CommandAndHostSeeTheStateBefore :
    (∀ n ∈ [0, 1], let s := inFlight 0x002 [.wr 4 0x004 (BitVec.ofNat 32 n)] [.host]
      s.status.busy = true ∧ s.sched.head? = some .host ∧ isNext (step s) = true ∧ (after (step s)).status.busy = (n == 0)) ∧
    (∀ l ∈ [HostStep.rd 4 0x008 0, .wr 4 0x004 1, .wr 4 0x024 5, .wr 4 0x040 0x001],
      let s := after (step (inFlight 0x101 [l] []))
      s.before.isSome = true ∧ s.status.busy = false ∧ isNext (step s) = true ∧
        ((after (step s)).before == s.before) = false) := by decide

/-- R72 after LOADMODE ULTRASONIC is performed: BIT_RATE, SPB and MODE read as before it and RESULT0 is a draw, until STATUS is read;
an accepted write of the host's own reads back at once. -/
theorem test_before_status_read :
    let s := after (step (State.reset.withFetchWord 32 0x101))
    let u := (s.busRead 4 0x008).1
    (s.busRead 4 0x024).2 = some 100 ∧ (s.busRead 4 0x00C).2 = some 480 ∧ (s.busRead 4 0x010).2 = some 0 ∧
      (s.busRead 4 0x060).1.draws = 1 ∧ (s.busRead 4 0x008).2 = some 0x00010006 ∧
      (u.busRead 4 0x024).2 = some 600 ∧ (u.busRead 4 0x00C).2 = some 80 ∧ (u.busRead 4 0x010).2 = some 1 ∧
      (u.busRead 4 0x060) = (u, some 1) ∧
      ((s.busWrite 4 0x028 7).busRead 4 0x028).2 = some 7 ∧ ((s.busWrite 4 0x028 7).busRead 4 0x024).2 = some 100 := by decide

/-- The host moves twice before the block. -/
theorem test_meets_EveryAcceptedCommandEnds : (inFlight 0x001 [] [.host, .host]).status.busy = true := by decide

theorem test_meets_OnlyACmdWriteStartsACommand :
    ∃ t, step (withProgram [.wr 4 0x040 0x00C]) = .next t ∧ (withProgram [.wr 4 0x040 0x00C]).status.busy = false ∧
      t.status.busy = true := ⟨_, rfl, rfl, rfl⟩

/-- No input; all of the input written (a CRC mismatch over the last byte of B); an unwritten cell, the last of S, in
input too short for a window. -/
theorem test_meets_FailedCommandIsPrecise :
    (∃ t, exec (.loadmode 3) State.reset = .next t ∧ t.status.ok = false) ∧
    (let s := withPayload 65535 [0x41]
     (∃ t, exec .crcCheck s = .next t ∧ t.status.ok = false) ∧ readsBytes .crcCheck = true ∧ readsSamples .crcCheck = false ∧
       (∀ x, s.ops.byteAddr.toNat ≤ x → x < s.ops.byteAddr.toNat + s.ops.byteLen.toNat → cellGet? s.bram x ≠ none)) ∧
    (let s := withOps { OperandRegs.reset with srcAddr := 262143, srcLen := 1 }
     (∃ t, exec .findPreamble s = .next t ∧ t.status.ok = false ∧ .uninitRead .sampleRam 262143 ∈ t.faults) ∧
       readsSamples .findPreamble = true) := by
  refine ⟨⟨_, rfl, rfl⟩, ⟨⟨_, rfl, by decide +kernel⟩, rfl, rfl, fun x h1 h2 => ?_⟩, ⟨_, rfl, rfl, by decide +kernel⟩, rfl⟩
  have h : x = 65535 := by
    have e : (withPayload 65535 [0x41]).ops.byteAddr.toNat = 65535 ∧ (withPayload 65535 [0x41]).ops.byteLen.toNat = 1 := by decide
    omega
  subst h
  decide

theorem test_meets_CodesOfEachCommand :
    (∃ t, exec (.loadmode 3) State.reset = .next t ∧ t.status.ok = false) ∧
    (∃ t, (inFlight 0x000 [] []).status.busy = true ∧ (inFlight 0x000 [] []).sched.head? ≠ some .host ∧
      (∃ e, decode (inFlight 0x000 [] []).cmd = .error e) ∧ step (inFlight 0x000 [] []) = .next t) :=
  ⟨⟨_, rfl, rfl⟩, ⟨_, rfl, by decide, ⟨.unknownOpcode, by decide⟩, rfl⟩⟩

/-- V-CFG-1 to V-CFG-6 and the ends of the ranges: SPB 1 and 0, volumes 1.0, the next above it, +0.0, -0.0, the next below it, a NaN. -/
theorem test_meets_ConfigurationIsCheckedFirst :
    FskConfig.reset.valid = true ∧ { FskConfig.reset with sampleRate := 100 }.valid = true ∧
    { FskConfig.reset with sampleRate := 99 }.valid = false ∧ { FskConfig.reset with bitRate := 0 }.valid = false ∧
    { FskConfig.reset with markFreq := 2200 }.valid = false ∧ { FskConfig.reset with volume := 0x3F800001 }.valid = false ∧
    { FskConfig.reset with volume := 0 }.valid = true ∧ { FskConfig.reset with volume := 0x80000000 }.valid = true ∧
    { FskConfig.reset with volume := 0x80000001 }.valid = false ∧ { FskConfig.reset with volume := 0x7FC00000 }.valid = false ∧
    checksConfig .duration = true ∧ Instr.crcCheck ∈ [Instr.crc16, Instr.crcCheck] := by decide

/-- One word, sample or byte past the end. -/
theorem test_meets_RangeOutsideTheRamFails :
    FskConfig.reset.valid = true ∧
    (let s := withOps { OperandRegs.reset with srcAddr := 262144, srcLen := 1 }
     s.params.sampleRamWords < s.ops.srcAddr.toNat + s.ops.srcLen.toNat) ∧
    (let s := withOps { OperandRegs.reset with dstAddr := 262144, count := 1 }
     s.params.sampleRamWords < s.ops.dstAddr.toNat + s.ops.count.toNat) ∧
    (let s := withOps { OperandRegs.reset with dstAddr := 261665 }
     s.params.sampleRamWords < s.ops.dstAddr.toNat + s.cfg.spb) ∧
    (let s := withOps { OperandRegs.reset with byteAddr := 65536, byteLen := 1 }
     s.params.byteRamBytes < s.ops.byteAddr.toNat + s.ops.byteLen.toNat) := by decide

theorem test_meets_LoadModeLoadsThePreset : (2 : BitVec 2) ≠ 3 := by decide

/-- The last two samples of S. -/
theorem test_meets_GenToneWritesTheTone :
    let s := withOps { OperandRegs.reset with dstAddr := 262142, count := 2 }
    s.cfg.valid = true ∧ s.ops.dstAddr.toNat + s.ops.count.toNat ≤ s.params.sampleRamWords := by decide

/-- The last window of S. -/
theorem test_meets_EncodeBitWritesItsWindow :
    let s := withOps { OperandRegs.reset with dstAddr := 261664 }
    s.cfg.valid = true ∧ s.ops.dstAddr.toNat + s.cfg.spb ≤ s.params.sampleRamWords := by decide

/-- The last nine bytes of B, and no byte at its end; CRC_CHECK has the same hypotheses and either outcome by ARG. -/
theorem test_meets_Crc16GivesTheCrc_and_CrcCheckCompares :
    ∀ p ∈ [(65527, digits), (65536, [])],
      (withPayload p.1 p.2).ops.byteLen.toNat = p.2.length ∧ (withPayload p.1 p.2).holdsBytes (withPayload p.1 p.2).ops.byteAddr.toNat p.2 ∧
      (withPayload p.1 p.2).ops.byteAddr.toNat + p.2.length ≤ (withPayload p.1 p.2).params.byteRamBytes := by
  unfold State.holdsBytes; decide

/-- The last byte of B into the last 64 windows of S. -/
theorem test_meets_EncodeFrameRendersTheFrame :
    let s := { withPayload 65535 [0x41] with ops := { (withPayload 65535 [0x41]).ops with dstAddr := 231424 } }
    s.cfg.valid = true ∧ s.ops.byteLen.toNat = [0x41#8].length ∧ [0x41#8].length ≤ 65535 ∧ s.holdsBytes s.ops.byteAddr.toNat [0x41] ∧
      s.ops.byteAddr.toNat + [0x41#8].length ≤ s.params.byteRamBytes ∧
      s.ops.dstAddr.toNat + s.cfg.nsamples [0x41#8].length ≤ s.params.sampleRamWords ∧
      (frameBits s.cfg.preambleBits.toNat s.cfg.postambleBits.toNat [0x41])[63]? = some true ∧ 479 < s.cfg.spb := by
  unfold State.holdsBytes; decide +kernel

/-- One byte too long, one byte past the end of B, one sample past the end of S. -/
theorem test_meets_EncodeFrameFailuresInOrder :
    FskConfig.reset.valid = true ∧
    65535 < (withOps { OperandRegs.reset with byteLen := 65536 }).ops.byteLen.toNat ∧
    (let s := withOps { OperandRegs.reset with byteAddr := 65536, byteLen := 1 }
     s.ops.byteLen.toNat ≤ 65535 ∧ s.params.byteRamBytes < s.ops.byteAddr.toNat + s.ops.byteLen.toNat) ∧
    (let s := withOps { OperandRegs.reset with byteAddr := 65535, byteLen := 1, dstAddr := 231425 }
     s.ops.byteLen.toNat ≤ 65535 ∧ s.ops.byteAddr.toNat + s.ops.byteLen.toNat ≤ s.params.byteRamBytes ∧
       s.params.sampleRamWords < s.ops.dstAddr.toNat + s.cfg.nsamples s.ops.byteLen.toNat) := by decide

theorem test_meets_DurationDividesBitsByRate :
    FskConfig.reset.valid = true ∧ (withOps { OperandRegs.reset with byteLen := 65535 }).ops.byteLen.toNat ≤ 65535 ∧
    65535 < (withOps { OperandRegs.reset with byteLen := 65536 }).ops.byteLen.toNat := by decide

/-- The last sample of S, a NaN too, and no sample at its end; the four commands that read samples have the same hypotheses. -/
theorem test_meets_GoertzelGivesTheMagnitude_and_DecodeBitDecides_and_FindPreambleReportsTheMatch_and_DecodeFrameWritesThePayload :
    ∀ p ∈ [(262143, [one32]), (262143, [nan32]), (262144, [])],
      (withSamples p.1 p.2).cfg.valid = true ∧ (withSamples p.1 p.2).ops.srcLen.toNat = p.2.length ∧
      (withSamples p.1 p.2).holdsSamples (withSamples p.1 p.2).ops.srcAddr.toNat p.2 ∧
      (withSamples p.1 p.2).ops.srcAddr.toNat + p.2.length ≤ (withSamples p.1 p.2).params.sampleRamWords := by
  unfold State.holdsSamples; decide

theorem test_meets_FrameBitsLayout : 15 < 16 ∧ [0x41#8][0]? = some 0x41 ∧ 7 < 8 := by decide

/-- One sample decides whether the second window is whole. -/
theorem test_meets_BodyBitsOfWholeWindows :
    1 ≤ FskConfig.reset.spb ∧ 1920 + (1 + 1) * FskConfig.reset.spb ≤ (List.replicate 2880 one32).length ∧
    (List.replicate 2879 one32).length < 1920 + (1 + 1) * FskConfig.reset.spb := by decide +kernel

/-- 31 bits, one bit short of the frame, and the whole frame. -/
theorem test_meets_ParseStepsInOrder :
    msbValue helloBits 0 16 = 11 ∧ (helloBits.take 31).length < 32 ∧ msbValue (helloBits.take 127) 0 16 = 11 ∧
    32 ≤ (helloBits.take 127).length ∧ (helloBits.take 127).length < 16 + 8 * 11 + 16 + 8 ∧
    32 ≤ helloBits.length ∧ 16 + 8 * 11 + 16 + 8 ≤ helloBits.length := by decide +kernel

theorem test_meets_ParseInvertsFrameBits : hello.length ≤ 65535 ∧ (List.replicate 65535 0x41#8).length ≤ 65535 :=
  ⟨by decide, le_of_eq List.length_replicate⟩

/-- The last samples of S. -/
theorem test_meets_SilenceHasNoPreamble :
    let s := withSamples 262124 (List.replicate 20 0)
    Instr.decodeFrame ∈ [Instr.findPreamble, Instr.decodeFrame] ∧ s.cfg.valid = true ∧
      s.ops.srcAddr.toNat + s.ops.srcLen.toNat ≤ s.params.sampleRamWords ∧
      s.holdsSamples s.ops.srcAddr.toNat (List.replicate s.ops.srcLen.toNat 0) := by
  unfold State.holdsSamples; decide +kernel

theorem test_meets_ToneFollowsTheFormula :
    ∀ p ∈ [(1, 0, 2 ^ 32 - 1), (2 ^ 32 - 1, 2 ^ 32 - 1, 0)],
      1 ≤ p.1 ∧ p.1 < 2 ^ 32 ∧ p.2.1 < 2 ^ 32 ∧ p.2.2 < 2 ^ 32 ∧ (p.2.1 = 0 ∨ p.2.2 = 0) := by decide

/-- Infinity and the least subnormal; the greatest finite value; the least and the greatest NaN. -/
theorem test_meets_ScaleAtTheEndsOfTheRange :
    isNaN32 0x7F800000 = false ∧ isNaN32 0x00000001 = false ∧ (0xFF7FFFFF : F32).toNat % 2 ^ 31 < 0x7F800000 ∧
    isNaN32 0x7F800001 = true ∧ isNaN32 0xFFFFFFFF = true := by decide

theorem test_meets_MagnitudeIsCanonicalNaNOrNotNegative : isNaN64 (goertzelWith two64 [nan32]) = true := by decide +kernel

/-- Coefficients 2.0 and -2.0; the least subnormal and the greatest finite negative sample. -/
theorem test_meets_SingleSampleMagnitudeIsExact :
    ∀ p ∈ [(0x4000000000000000, 0x00000001), (0xC000000000000000, 0xFF7FFFFF)],
      (BitVec.ofNat 64 p.1).toNat % 2 ^ 63 ≤ 0x4000000000000000 ∧ (BitVec.ofNat 32 p.2).toNat % 2 ^ 31 < 0x7F800000 ∧
        (BitVec.ofNat 32 p.2).toNat % 2 ^ 31 ≠ 0 := by decide

/-- A tie, and a NaN. -/
theorem test_meets_TieAndNaNDecideZero :
    (let c := { FskConfig.reset with markFreq := 2200 }
     goertzel c.sampleRate.toNat [one32] c.markFreq.toNat = goertzel c.sampleRate.toNat [one32] c.spaceFreq.toNat) ∧
    isNaN64 (goertzel FskConfig.reset.sampleRate.toNat [nan32] FskConfig.reset.markFreq.toNat) = true :=
  ⟨rfl, by decide +kernel⟩

/-- Both kinds of tie: down to 0 and up to 2. -/
theorem test_meets_RoundingIsToNearestTiesToEven :
    0 < 2 ∧ 2 * 1 = (2 * roundHalfEven 1 2 + 1) * 2 ∧ 2 * roundHalfEven 3 2 * 2 = 2 * 3 + 2 := by decide

/-- The greatest natural; the least subnormal, the greatest finite value and an infinity. -/
theorem test_meets_To64IsExactAndRnd32UndoesIt :
    2 ^ 53 - 1 < 2 ^ 53 ∧ ∀ x ∈ [0x00000001, 0xFF7FFFFF, 0xFF800000], isNaN32 (BitVec.ofNat 32 x) = false := by decide

/-- to64 of the least subnormal (1·2^-149) and of 1.5, from the layout of the two formats. -/
theorem test_to64 : f32To64 0x00000001 = 0x36A0000000000000 ∧ f32To64 0x3FC00000 = 0x3FF8000000000000 := by decide +kernel

/-- The first and the last word of each window. -/
theorem test_meets_RamWindowReadsBackWhatWasWritten :
    State.reset.status.busy = false ∧ State.reset.before = none ∧ State.reset.params.wf ∧
    (∀ o ∈ [0x00010000, 0x0001FFFC], (BitVec.ofNat 32 o).toNat % 4 = 0 ∧ 0x00010000 ≤ (BitVec.ofNat 32 o).toNat ∧
      (BitVec.ofNat 32 o).toNat < 0x00010000 + State.reset.params.byteRamBytes) ∧
    (∀ o ∈ [0x00100000, 0x001FFFFC], (BitVec.ofNat 32 o).toNat % 4 = 0 ∧ 0x00100000 ≤ (BitVec.ofNat 32 o).toNat ∧
      (BitVec.ofNat 32 o).toNat < 0x00100000 + 4 * State.reset.params.sampleRamWords) := by decide

/-- The holes of the register map, the ends of the windows, a wrong width and a wrong alignment; and the ends of the regions. -/
theorem test_meets_UnmappedAccessIsABusError :
    (∀ o ∈ [0x014, 0x03C, 0x06C, 0x078, 0x0FC, 0x100, 0x0000FFFC, 0x00020000, 0x000FFFFC, 0x00200000, 0xFFFFFFFC, 0x002],
      ¬ mappedAccess Params.fsk1 4 (BitVec.ofNat 32 o)) ∧
    ¬ mappedAccess Params.fsk1 2 0x000 ∧ ¬ mappedAccess Params.fsk1 8 0x000 ∧
    (∀ o ∈ [0x000, 0x074, 0x00010000, 0x0001FFFC, 0x00100000, 0x001FFFFC], mappedAccess Params.fsk1 4 (BitVec.ofNat 32 o)) := by
  unfold mappedAccess; decide

theorem test_meets_ReadsHaveNoSideEffects :
    (ModelFault.busError 2 ∈ { State.reset with faults := [.busError 2] }.faults) ∧
    (inFlight 0x002 [] []).status.busy = true ∧ (after (step (inFlight 0x002 [] []))).before.isSome = true ∧
    mappedAccess (inFlight 0x002 [] []).params 4 0x060 ∧
    mappedAccess (inFlight 0x002 [] []).params 4 0x0001FFFC := by unfold mappedAccess; decide

/-- The last byte and the last word by the host; the last sample and the last byte by a command; CRC16 and CRC_CHECK with a configuration
that is not valid and more than 65535 bytes, ENCODE_FRAME with neither. -/
theorem test_meets_ReadsOfUnwrittenCellsAreRecorded :
    (State.reset.status.busy = false ∧ State.reset.before = none ∧ State.reset.params.wf ∧ (0x0001FFFC#32).toNat % 4 = 0 ∧ 0x00010000 ≤ (0x0001FFFC#32).toNat ∧
      (0x0001FFFC#32).toNat < 0x00010000 + State.reset.params.byteRamBytes ∧ 3 < 4 ∧
      cellGet? State.reset.bram ((0x0001FFFC#32).toNat - 0x00010000 + 3) = none) ∧
    ((0x001FFFFC#32).toNat % 4 = 0 ∧ 0x00100000 ≤ (0x001FFFFC#32).toNat ∧
      (0x001FFFFC#32).toNat < 0x00100000 + 4 * State.reset.params.sampleRamWords ∧
      cellGet? State.reset.sram (((0x001FFFFC#32).toNat - 0x00100000) / 4) = none) ∧
    (let s := withOps { OperandRegs.reset with srcAddr := 262143, srcLen := 1 }
     readsSamples .decodeFrame = true ∧ s.cfg.valid = true ∧ s.ops.srcAddr.toNat + s.ops.srcLen.toNat ≤ s.params.sampleRamWords ∧
       s.ops.srcAddr.toNat ≤ 262143 ∧ 262143 < s.ops.srcAddr.toNat + s.ops.srcLen.toNat ∧ cellGet? s.sram 262143 = none) ∧
    (let s := withOps { OperandRegs.reset with byteAddr := 65535, byteLen := 1, dstAddr := 231424 }
     Instr.crcCheck ∈ [Instr.crc16, Instr.crcCheck] ∧ s.cfg.valid = true ∧ s.ops.byteLen.toNat ≤ 65535 ∧
       s.ops.byteAddr.toNat + s.ops.byteLen.toNat ≤ s.params.byteRamBytes ∧
       s.ops.dstAddr.toNat + s.cfg.nsamples s.ops.byteLen.toNat ≤ s.params.sampleRamWords ∧
       s.ops.byteAddr.toNat ≤ 65535 ∧ 65535 < s.ops.byteAddr.toNat + s.ops.byteLen.toNat ∧ cellGet? s.bram 65535 = none) ∧
    (let s := { withOps { OperandRegs.reset with byteLen := 65536 } with cfg := { FskConfig.reset with markFreq := 2200 } }
     s.cfg.valid = false ∧ s.ops.byteAddr.toNat + s.ops.byteLen.toNat ≤ s.params.byteRamBytes ∧
       s.ops.byteAddr.toNat ≤ 65535 ∧ 65535 < s.ops.byteAddr.toNat + s.ops.byteLen.toNat ∧ cellGet? s.bram 65535 = none) := by decide

/-- A soft reset of a machine with a fault. -/
theorem test_meets_NoStepRemovesAFault :
    let s := { withProgram [.wr 4 0x004 1] with faults := [.busError 2] }
    (∃ t, step s = .next t) ∧ .busError 2 ∈ s.faults := ⟨⟨_, rfl⟩, by decide⟩

/-- Commands that write neither RAM; and one that writes the RAM it does not read, over a cell that differs. -/
theorem test_meets_RamsEachCommandReadsAndWrites :
    (∃ t, exec .duration State.reset = .next t) ∧ writesSamples .duration = false ∧ writesBytes .genTone = false ∧
    readsSamples .encodeFrame = false ∧ readsBytes .decodeFrame = false ∧
    (let s := withOps { OperandRegs.reset with count := 1 }
     writesSamples .genTone = true ∧ readsSamples .genTone = false ∧
       cellGet? s.sram 0 ≠ cellGet? { s with sram := [(0, one32)] }.sram 0) := ⟨⟨_, rfl⟩, by decide⟩

/-- Operands that CRC_CHECK and DURATION do not read differ. -/
theorem test_meets_CommandsReadOnlyTheirOperands :
    sameOperands OperandRegs.reset { OperandRegs.reset with arg := 0xFFFF0000, srcAddr := 1, count := 2 } .crcCheck ∧
    sameOperands OperandRegs.reset { OperandRegs.reset with byteAddr := 0xFFFFFFFF } .duration := by
  simp [sameOperands, OperandRegs.reset]

/-- The first and the last register of each clause, each with a value of its own. -/
theorem test_meets_RegistersReadBackWhatWasWritten :
    State.reset.status.busy = false ∧
    HostReg.byteLen ∈ [HostReg.sampleRate, .bitRate, .markFreq, .spaceFreq, .volume, .preambleBits, .postambleBits, .arg, .srcAddr,
      .srcLen, .dstAddr, .count, .byteAddr, .byteLen] ∧ HostReg.id ≠ .byteLen ∧ HostReg.id ≠ .mode ∧ HostReg.id ≠ .spb ∧
    (let s := { State.reset with ops := { OperandRegs.reset with arg := 1, byteLen := 2 }, results := { Results.zero with result0 := 3, fresultHi := 4 } }
     s.status.busy = false ∧ s.before = none ∧ (s.busRead 4 0x000).2 = some 0x46534B31 ∧ (s.busRead 4 0x020).2 = some 48000 ∧
       (s.busRead 4 0x038).2 = some 8 ∧ (s.busRead 4 0x044).2 = some 1 ∧ (s.busRead 4 0x05C).2 = some 2 ∧
       (s.busRead 4 0x060).2 = some 3 ∧ (s.busRead 4 0x074).2 = some 4) := by decide

theorem test_meets_ModifiedBitAndSpbFollowWrites :
    State.reset.status.busy = false ∧
    0x038#32 ∈ [0x020#32, 0x024#32, 0x028#32, 0x02C#32, 0x030#32, 0x034#32, 0x038#32] ∧
    0x05C#32 ∈ [0x044#32, 0x048#32, 0x04C#32, 0x050#32, 0x054#32, 0x058#32, 0x05C#32] := by decide

theorem test_meets_CtrlWriteAndRead : (2#32).getLsbD 0 = false ∧ (3#32).getLsbD 0 = true := by decide

/-- No command, an illegal word, and a command of each kind in flight. -/
theorem test_meets_SoftResetEffects :
    (1#32).getLsbD 0 = true ∧ State.reset.status.busy = false ∧ (∃ e, decode (inFlight 0x000 [] []).cmd = .error e) ∧
    (inFlight 0x002 [] []).status.busy = true ∧ decode (inFlight 0x002 [] []).cmd = .ok .genTone ∧
    decode (inFlight 0x00B [] []).cmd = .ok .decodeFrame := ⟨rfl, rfl, ⟨.unknownOpcode, by decide⟩, by decide⟩

theorem test_meets_InterruptFollowsDone :
    (∃ t, exec (.loadmode 3) State.reset = .next t) ∧ State.reset.status.busy = false ∧ (2#32).getLsbD 1 = true ∧
    (1#32).getLsbD 0 = true ∧ (0#32).getLsbD 0 = false ∧ (0#32).getLsbD 1 = false ∧ (inFlight 0x002 [] []).status.busy = true ∧
    (0x002 : Word) ≠ 0x004 ∧ (0x002 : Word) ≠ 0x008 ∧ ¬ mappedAccess State.reset.params 4 0x002 :=
  ⟨⟨_, rfl⟩, by unfold mappedAccess; decide⟩

/-- A state with LOADMODE in flight meets the invariant and steps. -/
theorem test_meets_EveryStepKeepsTheInvariant :
    (inFlight 0x101 [] []).Inv ∧ ∃ t, step (inFlight 0x101 [] []) = .next t :=
  ⟨{ params := by decide, rams := ⟨rfl, rfl⟩, status := by unfold Status.coherent; decide, reports := by unfold State.reportsLast; decide,
     preset := by unfold State.presetHolds; decide,
     before := ⟨fun _ => rfl, fun b h => by cases h; decide⟩, faults := by decide }, _, rfl⟩

/-- One program for each kind of line, idle and at a turn the schedule gives the host while BUSY = 1; past the end of the program; a
variable with and without a value; and the addresses next to the block's. -/
theorem test_meets_HostLinesDoWhatTheySay :
    (withProgram []).status.busy = false ∧ (withProgram []).halt.host.halted = true ∧ (withProgram []).host.halted = false ∧
    (withProgram []).host.program[(withProgram []).host.pos]? = none ∧
    (∀ l ∈ [HostStep.wr 4 0x044 5, .rd 4 0x008 0, .bnz 0 1 0, .halt],
      (withProgram [l]).status.busy = false ∧ (withProgram [l]).host.halted = false ∧
      (withProgram [l]).host.program[(withProgram [l]).host.pos]? = some l ∧
      (inFlight 0x002 [l] [.host]).sched.head? = some .host ∧ (inFlight 0x002 [l] [.host]).host.halted = false ∧
      (inFlight 0x002 [l] [.host]).host.program[(inFlight 0x002 [l] [.host]).host.pos]? = some l) ∧
    cellGet? ((withProgram [.bnz 0 1 0]).setVar 0 (some 1)).host.vars 0 = some 1 ∧ cellGet? (withProgram [.bnz 0 1 0]).host.vars 0 = none ∧
    (∀ off : Word, 2 ^ 32 ≠ State.reset.params.base + off.toNat) ∧
    (∀ off : Word, 4095 ≠ { State.reset with params := { Params.fsk1 with base := 4096 } }.params.base + off.toNat) := by
  refine ⟨rfl, rfl, rfl, rfl, by decide, rfl, rfl, fun off => ?_, fun off => ?_⟩
  · have h := off.isLt
    simp only [State.reset, Params.fsk1]
    omega
  · simp only
    omega

/-- R6: the block's registers stand at BASE, wherever that is. -/
theorem test_base :
    let s := { State.reset with params := { Params.fsk1 with base := 0x40000000 } }
    (s.hostRead 4 0x40000000).2 = some 0x46534B31 ∧ (s.hostWrite 4 0x40000044 7).ops.arg = 7 ∧
      s.hostRead 4 0x00000000 = (s, none) ∧ s.hostWrite 4 0x00000044 7 = s := by decide

/-- R102: HALT straight after a CMD write. Where the host moves first the end state is the one at HALT, with the command still in flight,
and so no good one, whatever the block does afterwards; where the block moves first it is a good one. -/
theorem test_meets_RunEndsAtTheHaltStep :
    (let s := { withProgram [.wr 4 0x040 0x001, .halt] with sched := [.host] }
     (runToHalt 1 s).isNone = true ∧
     (match runToHalt 3 s with | some t => t.status.busy && t.host.halted && t.sched == [] | none => false) = true) ∧
    (let s := withProgram [.wr 4 0x040 0x001, .halt]
     (match runToHalt 3 s with | some t => !t.status.busy && t.status.ok && t.faults == [] | none => false) = true) := by decide

end Sys2Proof.Tests
end

section
/-! The rounded quotient of 00_scope.md R10: what `roundHalfEven` answers, and that this is the nearest natural, ties to even. -/

namespace Sys2Proof.Machine

/-- The two answers of the rounding, by where the remainder stands to half the divisor. -/
theorem roundHalfEven_cases (a b : Nat) :
    (roundHalfEven a b = a / b + 1 ∧ (b < 2 * (a % b) ∨ 2 * (a % b) = b ∧ a / b % 2 = 1)) ∨
    (roundHalfEven a b = a / b ∧ (2 * (a % b) < b ∨ 2 * (a % b) = b ∧ a / b % 2 = 0)) := by
  unfold roundHalfEven
  dsimp only
  split
  · exact .inl ⟨rfl, ‹_›⟩
  · exact .inr ⟨rfl, by omega⟩

/-- Settles O42: with a = (a / b) * b + a % b, each clause compares the remainder with half of b, in both answers of the rounding. -/
theorem roundingIsToNearestTiesToEven : Obligations.RoundingIsToNearestTiesToEven := by
  intro a b hb
  have hdiv : a / b * b + a % b = a := Nat.div_add_mod' a b
  have hrem : a % b < b := Nat.mod_lt a hb
  have hexpand (n : Nat) : (2 * n + 1) * b = 2 * (n * b) + b ∧ 2 * n * b = 2 * (n * b) := ⟨by ring, by ring⟩
  rw [(hexpand _).1, (hexpand _).2]
  obtain ⟨hval, hside⟩ | ⟨hval, hside⟩ := roundHalfEven_cases a b
  · rw [hval, Nat.succ_mul (a / b)]
    omega
  · rw [hval]
    omega

end Sys2Proof.Machine
end

section
/-! The conversions of 00_scope.md R10 on the values that are not finite, and `rnd32` after `to64`. -/

namespace Sys2Proof.Machine

theorem unpack64_f32To64_nan {x : F32} (h : unpack32 x = .nan) : unpack64 (f32To64 x) = .nan := by
  unfold f32To64
  rw [h]
  decide

theorem unpack64_f32To64_inf {x : F32} {s : Bool} (h : unpack32 x = .inf s) : unpack64 (f32To64 x) = .inf s := by
  unfold f32To64
  rw [h]
  cases s <;> decide

/-- A binary32 infinity is its sign and the magnitude of infinity. -/
theorem signed_infMag_unpack32 {x : F32} {s : Bool} (h : unpack32 x = .inf s) :
    BitVec.ofNat 32 (binary32.signed s binary32.infMag) = x := by
  apply BitVec.eq_of_toNat_eq
  rw [toNat_ofNat_signed32 le_rfl]
  unfold unpack32 FpFormat.unpack at h
  dsimp only at h
  split at h
  · cases h
  · split at h
    · cases h
      rename_i hmag
      rw [← hmag]
      exact signed_mod_signBit32 x
    · cases h

/-- A common factor of the units and the denominator does not matter. -/
theorem FpFormat.round_mul (f : FpFormat) (s : Bool) (n : Nat) {d : Nat} (hd : 0 < d) : f.round s (n * d) d = f.round s n 1 := by
  rw [FpFormat.round, FpFormat.round, f.roundMag_mul n hd]

/-- `rnd32` of an infinity. -/
theorem rnd32_inf (nan : F32) {x : F64} {s : Bool} (h : unpack64 x = .inf s) :
    rnd32 nan x = BitVec.ofNat 32 (binary32.signed s binary32.infMag) := by
  rw [rnd32, h]

/-- `rnd32` of a whole number of binary32 units needs no rounding beyond that of the units. -/
theorem rnd32_fin_mul (nan : F32) {x : F64} {s : Bool} {u : Nat} (h : unpack64 x = .fin s (u * 2 ^ 925)) :
    rnd32 nan x = BitVec.ofNat 32 (binary32.round s u 1) := by
  rw [rnd32, h]
  dsimp only
  rw [binary64_unitExp, binary32_unitExp, binary32.round_mul s u (Nat.two_pow_pos _)]

/-- `rnd32` undoes `to64` of a value that is no NaN. -/
theorem rnd32_f32To64 (nan : F32) {x : F32} (h : isNaN32 x = false) : rnd32 nan (f32To64 x) = x := by
  cases hx : unpack32 x with
  | nan => simp [isNaN32, hx] at h
  | inf s => rw [rnd32_inf nan (unpack64_f32To64_inf hx), signed_infMag_unpack32 hx]
  | fin s u => rw [rnd32_fin_mul nan (unpack64_f32To64 hx), round_unpack32 x s u hx]

/-- Settles O43: naturals, the three classes of binary32 values, and the round trip, each by its own lemma. -/
theorem to64IsExactAndRnd32UndoesIt : Obligations.To64IsExactAndRnd32UndoesIt := by
  refine ⟨fun n hn => unpack64_natTo64 hn, fun x => ?_, fun nan x hx => rnd32_f32To64 nan hx⟩
  cases hx : unpack32 x with
  | nan => exact unpack64_f32To64_nan hx
  | inf s => exact unpack64_f32To64_inf hx
  | fin s u => exact unpack64_f32To64 hx

end Sys2Proof.Machine
end

section
/-! The invariant of the machine (10_state.md R23, R26; 20_memory.md R72): every completion of a command, every bus write and every line
of the host keeps it. -/

namespace Sys2Proof.Machine

variable {s t u : State}

/-- The invariant does not speak of IRQ_EN, the operands, the draw counter, the host and the schedule. -/
theorem State.Inv.frame (h : s.Inv) (e : Bool) (o : OperandRegs) (n : Nat) (a : HostAgent) (c : List Agent) :
    State.Inv { s with irqEn := e, ops := o, draws := n, host := a, sched := c } := { h with }

theorem State.Inv.takeTurn (h : s.Inv) : s.takeTurn.Inv := by
  rw [s.takeTurn_eq]
  exact h.frame _ _ _ _ _

theorem State.Inv.recordFaults (h : s.Inv) (fs : List ModelFault) : (s.recordFaults fs).Inv :=
  { h with faults := foldl_addFault_nodup fs h.faults }

theorem State.Inv.afterRead (h : s.Inv) (fs : List ModelFault) : (s.afterRead fs).Inv := by
  unfold State.afterRead
  split
  · exact h
  · exact (h.recordFaults fs).frame _ _ _ _ _

theorem State.Inv.fail (h : s.Inv) (c : ErrCode) : (s.fail c).Inv :=
  { h with
    status := ⟨nofun, fun hok => by simpa using hok⟩
    reports := fun _ => ⟨rfl, fun _ => rfl⟩
    before := ⟨nofun, h.before.2⟩ }

theorem State.Inv.complete (h : s.Inv) (r0 r1 r2 : Nat) (f : F64) : (s.complete r0 r1 r2 f).Inv :=
  { h with
    status := ⟨nofun, fun _ => rfl⟩
    reports := fun _ => ⟨rfl, nofun⟩
    before := ⟨nofun, h.before.2⟩ }

/-- A success keeps the invariant, whatever its effect. A loaded preset agrees with `beforeHolds` only because BUSY falls at the same
time. -/
theorem Effect.complete_inv (hu : Effect s u) (h : s.Inv) (r0 r1 r2 : Nat) (f : F64) : (u.complete r0 r1 r2 f).Inv := by
  have hc := h.complete r0 r1 r2 f
  cases hu with
  | none => exact hc
  | samples d xs hd => exact { hc with rams := ⟨Memory.wf_put d xs h.rams.1 hd, h.rams.2⟩ }
  | bytes d bs hd => exact { hc with rams := ⟨h.rams.1, Memory.wf_put d bs h.rams.2 hd⟩ }
  | preset m => exact { hc with preset := fun _ => rfl, before := ⟨nofun, h.before.2⟩ }

theorem Completion.inv (hc : Completion s t) (h : s.Inv) : t.Inv := by
  cases hc with
  | failed fs c _ => exact (h.afterRead fs).fail c
  | done fs u r0 r1 r2 f hu => exact hu.complete_inv (h.afterRead fs) r0 r1 r2 f

theorem State.Inv.reject (h : s.Inv) : s.reject.Inv := { h with }

theorem State.Inv.accept (h : s.Inv) (w : Word) : (s.accept w).Inv :=
  { h with
    status := ⟨fun _ => ⟨rfl, rfl, rfl⟩, fun _ => rfl⟩
    reports := nofun
    before := ⟨fun _ => rfl, fun _ hb => Option.some.inj hb ▸ h.preset⟩ }

theorem State.Inv.writeCfg (h : s.Inv) (hbusy : s.status.busy = false) (f : FskConfig → FskConfig) : (s.writeCfg f).Inv :=
  { h with
    preset := nofun
    before := by
      refine ⟨fun hb => absurd hb (by simp [hbusy]), fun b hb hm => ?_⟩
      obtain ⟨b₀, -, rfl⟩ := Option.map_eq_some_iff.1 hb
      cases hm }

theorem State.Inv.acknowledge (h : s.Inv) (v : Word) : (s.acknowledge v).Inv :=
  { h with
    status := by
      refine ⟨fun hb => ?_, h.status.2⟩
      obtain ⟨hdone, hok, hcode⟩ := h.status.1 hb
      exact ⟨by simp [hdone], hok, hcode⟩ }

theorem State.ramsWf.abort (h : s.ramsWf) : s.abort.ramsWf := by
  obtain ⟨a, n, b, k, e | e⟩ := s.abort_cases
  · rw [e]
    exact ⟨Memory.wf_erase a n h.1, Memory.wf_erase b k h.2⟩
  · rwa [e]

theorem State.Inv.softReset (h : s.Inv) : s.softReset.Inv where
  params := by simpa using h.params
  rams := h.rams.abort
  status := ⟨nofun, fun _ => rfl⟩
  reports := fun _ => ⟨rfl, fun _ => rfl⟩
  preset := fun _ => rfl
  before := ⟨nofun, nofun⟩
  faults := by simpa using h.faults

theorem WriteEffect.inv (hw : WriteEffect s t) (h : s.Inv) : t.Inv := by
  cases hw with
  | ignored => exact h
  | busError off => exact h.recordFaults _
  | dropped => exact h.reject
  | accepted w => exact h.accept w
  | config f hbusy => exact h.writeCfg hbusy f
  | operands o => exact h.frame _ _ _ _ _
  | acknowledged v => exact h.acknowledge v
  | irqEnable b => exact h.frame _ _ _ _ _
  | reset => exact h.softReset
  | bytes k bs _ hin => exact { h with rams := ⟨h.rams.1, Memory.wf_put k bs h.rams.2 (hin h.params)⟩ }
  | sample i v _ hin => exact { h with rams := ⟨Memory.wf_put i [v] h.rams.1 hin, h.rams.2⟩ }

/-- What a read leaves of what the host is shown keeps the invariant: while BUSY = 1 DONE is 0, so that no read ends the time of R72. -/
theorem State.Inv.readShows (h : s.Inv) {b : Option Before} (hb : s.readShows b) : State.Inv { s with before := b } := by
  rcases hb with rfl | ⟨rfl, hdone⟩
  · exact h
  · have hidle : s.status.busy = false := by
      rcases hdone with hdone | hdone
      · exact hdone
      · exact Bool.eq_false_iff.2 fun hbusy => by simp [(h.status.1 hbusy).1] at hdone
    exact { h with before := ⟨fun hbusy => absurd hbusy (by simp [hidle]), nofun⟩ }

theorem State.Inv.setVar (h : s.Inv) (var : Nat) (v : Option Word) : (s.setVar var v).Inv := by
  cases v with
  | none => exact h.frame _ _ _ _ _
  | some v => exact h.frame _ _ _ _ _

theorem State.Inv.goto (h : s.Inv) (line : Nat) : (s.goto line).Inv := h.frame _ _ _ _ _

theorem HostEffect.inv (he : HostEffect s t) (h : s.Inv) : t.Inv := by
  cases he with
  | idle => exact h
  | wrote u line hw => exact (hw.inv h).goto line
  | read fs n b hb var v line =>
    have hread := (h.recordFaults fs).readShows hb
    exact ((hread.frame _ _ n _ _).setVar var v).goto line
  | branched line => exact h.goto line
  | halted => exact h.frame _ _ _ _ _

/-- Settles O58: a step is a completion or a line of the host, from the state with the turn used up, and each keeps the invariant. -/
theorem everyStepKeepsTheInvariant : Obligations.EveryStepKeepsTheInvariant := by
  intro s t h hstep
  obtain ⟨-, -, hc⟩ | ⟨-, he⟩ := step_cases hstep
  · exact hc.inv h.takeTurn
  · exact he.inv h.takeTurn

end Sys2Proof.Machine
end

section
/-! Bus accesses at the offsets of the register map (10_state.md R21): which register an offset stands for, and what a write and a read
there are. -/

namespace Sys2Proof.Machine

/-- The bus offset of a register. -/
def HostReg.busOffset (r : HostReg) : Word := BitVec.ofNat 32 r.offset

theorem HostReg.atOffset_offset (r : HostReg) : HostReg.atOffset r.offset = some r := by cases r <;> rfl

theorem HostReg.offset_of_atOffset {off : Nat} {r : HostReg} (h : HostReg.atOffset off = some r) : r.offset = off := by
  simpa using List.find?_some h

theorem HostReg.offset_lt (r : HostReg) : r.offset < 0x100 := by cases r <;> decide

theorem HostReg.offset_mod (r : HostReg) : r.offset % 4 = 0 := by cases r <;> rfl

@[simp] theorem HostReg.busOffset_toNat (r : HostReg) : r.busOffset.toNat = r.offset :=
  Nat.mod_eq_of_lt (by have := r.offset_lt; omega)

theorem alignedTarget_reg_iff (p : Params) (off : Nat) (r : HostReg) : alignedTarget p off = .reg r ↔ off = r.offset := by
  constructor
  · intro h
    unfold alignedTarget at h
    by_cases hlt : off < 0x100
    · rw [if_pos hlt] at h
      cases hr : HostReg.atOffset off with
      | none => simp [hr] at h
      | some r' =>
        simp only [hr, Target.reg.injEq] at h
        rw [← h, HostReg.offset_of_atOffset hr]
    · rw [if_neg hlt] at h
      split at h
      · cases h
      · split at h <;> cases h
  · rintro rfl
    simp [alignedTarget, r.offset_lt, r.atOffset_offset]

/-- An access reaches a register just where it is 4 bytes wide and at the register's offset (R21, R63). -/
theorem busTarget_reg_iff (p : Params) (width : Nat) (off : Word) (r : HostReg) :
    busTarget p width off = .reg r ↔ width = 4 ∧ off = r.busOffset := by
  unfold busTarget
  constructor
  · intro h
    split at h
    · rename_i ha
      rw [alignedTarget_reg_iff] at h
      exact ⟨ha.1, BitVec.eq_of_toNat_eq (by simpa using h)⟩
    · cases h
  · rintro ⟨rfl, rfl⟩
    simp [r.offset_mod, alignedTarget_reg_iff]

theorem State.busWrite_reg (s : State) (r : HostReg) (v : Word) : s.busWrite 4 r.busOffset v = s.writeReg r v := by
  rw [State.busWrite, (busTarget_reg_iff _ _ _ r).2 ⟨rfl, rfl⟩]

@[simp] theorem State.writeReg_ctrl (s : State) (v : Word) : s.writeReg .ctrl v = s.writeCtrl v := by
  simp [State.writeReg, State.writeRegIdle]

@[simp] theorem State.writeReg_status (s : State) (v : Word) : s.writeReg .status v = s.acknowledge v := by
  simp [State.writeReg, State.writeRegIdle]

theorem State.writeReg_idle {s : State} (h : s.status.busy = false) (r : HostReg) (v : Word) :
    s.writeReg r v = s.writeRegIdle v r := by
  simp [State.writeReg, h]

theorem State.writeReg_busy {s : State} (h : s.status.busy = true) {r : HostReg} (hc : r ≠ .ctrl) (hs : r ≠ .status) (v : Word) :
    s.writeReg r v = s.reject := by
  simp [State.writeReg, h, hc, hs]

theorem State.busWrite_idle {s : State} (h : s.status.busy = false) (r : HostReg) (v : Word) :
    s.busWrite 4 r.busOffset v = s.writeRegIdle v r := by
  rw [s.busWrite_reg, s.writeReg_idle h]

/-- A read of a register that is no result and not STATUS gives what the host is shown, and has no side effect (R40, R69). -/
theorem State.busRead_shown (s : State) {r : HostReg} (hr : r.isResult = false) (hs : r ≠ .status) :
    s.busRead 4 r.busOffset = (s, some (s.shown.readReg r)) := by
  simp [State.busRead, (busTarget_reg_iff _ _ _ r).2 ⟨rfl, rfl⟩, hr, hs]

theorem State.busRead_status (s : State) : s.busRead 4 HostReg.status.busOffset = (s.statusRead, some s.status.word) := by
  simp [State.busRead, (busTarget_reg_iff _ _ _ HostReg.status).2 ⟨rfl, rfl⟩, HostReg.isResult, State.readReg]

/-- A read of a result register is a free draw while the results are veiled (R40, R72). -/
theorem State.busRead_result_veiled {s : State} (hv : s.veiled = true) {r : HostReg} (hr : r.isResult = true) :
    s.busRead 4 r.busOffset = s.freeDraw := by
  simp [State.busRead, (busTarget_reg_iff _ _ _ r).2 ⟨rfl, rfl⟩, hr, hv]

/-- A read of any register but STATUS gives its current value where nothing is veiled (R40). -/
theorem State.busRead_current {s : State} (hv : s.veiled = false) {r : HostReg} (hs : r ≠ .status) :
    s.busRead 4 r.busOffset = (s, some (s.readReg r)) := by
  have hb : s.before = none := by
    simp only [State.veiled, Bool.or_eq_false_iff, Option.isSome_eq_false_iff, Option.isNone_iff_eq_none] at hv
    exact hv.2
  simp [State.busRead, (busTarget_reg_iff _ _ _ r).2 ⟨rfl, rfl⟩, hs, hv, s.shown_none hb]

end Sys2Proof.Machine
end

section
/-! STATUS and CTRL: how they read and what a write to them does (10_state.md R23, R24; 60_exceptions.md R240). -/

namespace Sys2Proof.Machine

theorem State.busWrite_ctrl (s : State) (v : Word) : s.busWrite 4 0x004 v = s.writeCtrl v :=
  (s.busWrite_reg .ctrl v).trans (s.writeReg_ctrl v)

theorem State.busWrite_status (s : State) (v : Word) : s.busWrite 4 0x008 v = s.acknowledge v :=
  (s.busWrite_reg .status v).trans (s.writeReg_status v)

theorem State.writeCtrl_reset (s : State) {v : Word} (hv : v.getLsbD 0 = true) : s.writeCtrl v = s.softReset := if_pos hv

theorem State.writeCtrl_enable (s : State) {v : Word} (hv : v.getLsbD 0 = false) :
    s.writeCtrl v = { s with irqEn := v.getLsbD 1 } := if_neg (Bool.eq_false_iff.1 hv)

theorem ctrlWord_eq (e : Bool) : ctrlWord e = if e then 2 else 0 := by cases e <;> rfl

/-- Settles O54: the write is `State.writeCtrl`, by its two branches. -/
theorem ctrlWriteAndRead : Obligations.CtrlWriteAndRead := by
  refine ⟨rfl, fun s v => ?_⟩
  rw [s.busWrite_ctrl v]
  refine ⟨s.writeCtrl_enable, fun hv => ?_, ctrlWord_eq s.irqEn⟩
  rw [s.writeCtrl_reset hv]
  exact ⟨rfl, rfl⟩

/-- The flags of STATUS, in bits 3:0 (R23). -/
theorem Status.word_flags (st : Status) :
    st.word.getLsbD 0 = st.busy ∧ st.word.getLsbD 1 = st.done ∧ st.word.getLsbD 2 = st.ok ∧ st.word.getLsbD 3 = st.rej := by
  simp only [Status.word, BitVec.getLsbD_append]
  simp

/-- The byte fields of STATUS, LASTOP and ERRCODE, and its reserved bits, which read 0 (R23). -/
theorem Status.word_fields (st : Status) :
    st.word.extractLsb' 4 4 = 0 ∧ st.word.extractLsb' 16 8 = st.lastop ∧ st.word.extractLsb' 24 8 = 0 ∧
      st.word.extractLsb' 8 8 = st.errcode.code := by
  simp (disch := decide) only [Status.word, BitVec.extractLsb'_append_eq_of_le, BitVec.extractLsb'_append_eq_of_add_le]
  simp

/-- The acknowledge clears DONE and REJ where the written bit is 1 (R23, R247). -/
theorem Status.writeOneToClear_eq (st : Status) (v : Word) :
    st.writeOneToClear v =
      { st with done := if v.getLsbD 1 then false else st.done, rej := if v.getLsbD 3 then false else st.rej } := by
  unfold Status.writeOneToClear
  cases v.getLsbD 1 <;> cases v.getLsbD 3 <;> simp

/-- Settles O14: the fields of the word as read, and the acknowledge. -/
theorem statusReadAndWriteOneToClear : Obligations.StatusReadAndWriteOneToClear := by
  refine ⟨fun s => ?_, fun s v => ?_⟩
  · obtain ⟨hbusy, hdone, hok, hrej⟩ := s.status.word_flags
    obtain ⟨hlow, hlastop, hhigh, hcode⟩ := s.status.word_fields
    refine ⟨hbusy, hdone, hok, hrej, hlow, hlastop, hhigh, hcode.trans ?_⟩
    cases s.status.errcode <;> rfl
  · rw [s.busWrite_status v, State.acknowledge, Status.writeOneToClear_eq]

end Sys2Proof.Machine
end

section
/-! The registers the host can write: a configuration or operand register reads back what was written, and no other register but MODE
and SPB changes (10_state.md R25 to R37, R40). -/

namespace Sys2Proof.Machine

variable {r r' : HostReg}

/-- The configuration registers (R27 to R33). -/
def configRegs : List HostReg := [.sampleRate, .bitRate, .markFreq, .spaceFreq, .volume, .preambleBits, .postambleBits]

/-- The operand registers (R35, R36). -/
def operandRegs : List HostReg := [.arg, .srcAddr, .srcLen, .dstAddr, .count, .byteAddr, .byteLen]

/-- The configuration with one register written, the counts in 16 bits (R32, R33). -/
def FskConfig.set (c : FskConfig) (v : Word) : HostReg → FskConfig
  | .sampleRate => { c with sampleRate := v }
  | .bitRate => { c with bitRate := v }
  | .markFreq => { c with markFreq := v }
  | .spaceFreq => { c with spaceFreq := v }
  | .volume => { c with volume := v }
  | .preambleBits => { c with preambleBits := v.extractLsb' 0 16 }
  | .postambleBits => { c with postambleBits := v.extractLsb' 0 16 }
  | _ => c

/-- The operands with one register written. -/
def OperandRegs.set (o : OperandRegs) (v : Word) : HostReg → OperandRegs
  | .arg => { o with arg := v }
  | .srcAddr => { o with srcAddr := v }
  | .srcLen => { o with srcLen := v }
  | .dstAddr => { o with dstAddr := v }
  | .count => { o with count := v }
  | .byteAddr => { o with byteAddr := v }
  | .byteLen => { o with byteLen := v }
  | _ => o

theorem writeRegIdle_config (hr : r ∈ configRegs) (s : State) (v : Word) :
    s.writeRegIdle v r = s.writeCfg (fun c => c.set v r) := by
  simp only [configRegs, List.mem_cons, List.not_mem_nil, or_false] at hr
  obtain rfl | rfl | rfl | rfl | rfl | rfl | rfl := hr
  all_goals rfl

theorem writeRegIdle_operand (hr : r ∈ operandRegs) (s : State) (v : Word) :
    s.writeRegIdle v r = { s with ops := s.ops.set v r } := by
  simp only [operandRegs, List.mem_cons, List.not_mem_nil, or_false] at hr
  obtain rfl | rfl | rfl | rfl | rfl | rfl | rfl := hr
  all_goals rfl

/-- MODE with MODIFIED set: bit 2 is 1 and PRESET stays (R26). -/
theorem ModeReg.word_modified (m : Mode) (b : Bool) : ModeReg.word ⟨m, true⟩ = ModeReg.word ⟨m, b⟩ ||| 4 := by
  cases m <;> cases b <;> rfl

theorem FskConfig.spb_le (c : FskConfig) : c.spb ≤ c.sampleRate.toNat := by
  unfold FskConfig.spb
  split
  · exact Nat.div_le_self _ _
  · exact Nat.zero_le _

/-- Settles O53: MODE after a write to a configuration and to an operand register, and SPB, which fits its 32 bits. -/
theorem modifiedBitAndSpbFollowWrites : Obligations.ModifiedBitAndSpbFollowWrites := by
  refine ⟨fun s v hbusy => ?_, fun s v hbusy => ?_, fun s => ?_⟩
  · show ∀ off ∈ configRegs.map HostReg.busOffset, _
    refine List.forall_mem_map.2 fun r hr => ?_
    rw [State.busWrite_idle hbusy, writeRegIdle_config hr]
    exact ModeReg.word_modified _ _
  · show ∀ off ∈ operandRegs.map HostReg.busOffset, _
    refine List.forall_mem_map.2 fun r hr => ?_
    rw [State.busWrite_idle hbusy, writeRegIdle_operand hr]
    rfl
  · exact (BitVec.toNat_ofNat _ _).trans (Nat.mod_eq_of_lt (s.cfg.spb_le.trans_lt s.cfg.sampleRate.isLt))

/-- A write to a configuration register shows in what the host is shown in the time of R72 just as in the current registers (log 26). -/
theorem State.shown_writeCfg (s : State) (f : FskConfig → FskConfig) : (s.writeCfg f).shown = s.shown.writeCfg f := by
  cases hb : s.before with
  | none => rw [s.shown_none hb, State.shown_none (by simp [hb])]
  | some b =>
    rw [s.shown_some hb, State.shown_some (b := b.write f) (by simp [hb])]
    rfl

theorem State.shown_withOps (s : State) (o : OperandRegs) : State.shown { s with ops := o } = { s.shown with ops := o } := by
  unfold State.shown
  dsimp only
  split <;> rfl

theorem State.shown_writeRegIdle (s : State) (hr : r ∈ configRegs ++ operandRegs) (v : Word) :
    (s.writeRegIdle v r).shown = s.shown.writeRegIdle v r := by
  obtain hr | hr := List.mem_append.1 hr
  · rw [writeRegIdle_config hr, writeRegIdle_config hr, s.shown_writeCfg]
  · rw [writeRegIdle_operand hr, writeRegIdle_operand hr, s.shown_withOps, s.shown_ops]

/-- A 16-bit count as read: its 32-bit word with bits 31:16 zero (R32, R33). -/
theorem setWidth_eq_zero_append (b : BitVec 16) : b.setWidth 32 = 0#16 ++ b := by
  simpa using BitVec.setWidth_eq_append (x := b) (w := 32) (by decide)

theorem zero_append_extractLsb' (v : Word) : 0#16 ++ v.extractLsb' 0 16 = v &&& 0x0000FFFF#32 := by
  apply BitVec.eq_of_toNat_eq
  rw [BitVec.toNat_append, BitVec.toNat_and]
  simp [Nat.and_two_pow_sub_one_eq_mod v.toNat 16]

section fields
variable (c : FskConfig) (o : OperandRegs) (v : Word) (r : HostReg)

@[simp] theorem FskConfig.set_sampleRate : (c.set v r).sampleRate = if r = .sampleRate then v else c.sampleRate := by cases r <;> rfl
@[simp] theorem FskConfig.set_bitRate : (c.set v r).bitRate = if r = .bitRate then v else c.bitRate := by cases r <;> rfl
@[simp] theorem FskConfig.set_markFreq : (c.set v r).markFreq = if r = .markFreq then v else c.markFreq := by cases r <;> rfl
@[simp] theorem FskConfig.set_spaceFreq : (c.set v r).spaceFreq = if r = .spaceFreq then v else c.spaceFreq := by cases r <;> rfl
@[simp] theorem FskConfig.set_volume : (c.set v r).volume = if r = .volume then v else c.volume := by cases r <;> rfl
@[simp] theorem FskConfig.set_preambleBits :
    (c.set v r).preambleBits = if r = .preambleBits then v.extractLsb' 0 16 else c.preambleBits := by cases r <;> rfl
@[simp] theorem FskConfig.set_postambleBits :
    (c.set v r).postambleBits = if r = .postambleBits then v.extractLsb' 0 16 else c.postambleBits := by cases r <;> rfl
@[simp] theorem OperandRegs.set_arg : (o.set v r).arg = if r = .arg then v else o.arg := by cases r <;> rfl
@[simp] theorem OperandRegs.set_srcAddr : (o.set v r).srcAddr = if r = .srcAddr then v else o.srcAddr := by cases r <;> rfl
@[simp] theorem OperandRegs.set_srcLen : (o.set v r).srcLen = if r = .srcLen then v else o.srcLen := by cases r <;> rfl
@[simp] theorem OperandRegs.set_dstAddr : (o.set v r).dstAddr = if r = .dstAddr then v else o.dstAddr := by cases r <;> rfl
@[simp] theorem OperandRegs.set_count : (o.set v r).count = if r = .count then v else o.count := by cases r <;> rfl
@[simp] theorem OperandRegs.set_byteAddr : (o.set v r).byteAddr = if r = .byteAddr then v else o.byteAddr := by cases r <;> rfl
@[simp] theorem OperandRegs.set_byteLen : (o.set v r).byteLen = if r = .byteLen then v else o.byteLen := by cases r <;> rfl

end fields

/-- A register that can be written reads back what was written, a count its bits 15:0 (R27 to R36). -/
theorem readReg_writeRegIdle_same (hr : r ∈ configRegs ++ operandRegs) (s : State) (v : Word) :
    (s.writeRegIdle v r).readReg r = if r = .preambleBits ∨ r = .postambleBits then v &&& 0x0000FFFF#32 else v := by
  rw [← zero_append_extractLsb']
  simp only [configRegs, operandRegs, List.cons_append, List.nil_append, List.mem_cons, List.not_mem_nil, or_false] at hr
  obtain rfl | rfl | rfl | rfl | rfl | rfl | rfl | rfl | rfl | rfl | rfl | rfl | rfl | rfl := hr
  all_goals rfl

/-- A write to a register leaves every register but itself, MODE and SPB. -/
theorem readReg_writeRegIdle_other (hr : r ∈ configRegs ++ operandRegs) (hne : r' ≠ r) (hmode : r' ≠ .mode) (hspb : r' ≠ .spb)
    (s : State) (v : Word) : (s.writeRegIdle v r).readReg r' = s.readReg r' := by
  obtain hr | hr := List.mem_append.1 hr
  · rw [writeRegIdle_config hr]
    cases r' with
    | mode => exact absurd rfl hmode
    | spb => exact absurd rfl hspb
    | _ => simp [State.readReg, hne.symm]
  · rw [writeRegIdle_operand hr]
    cases r' with
    | _ => simp [State.readReg, hne.symm]

theorem rams_writeRegIdle (hr : r ∈ configRegs ++ operandRegs) (s : State) (v : Word) :
    (s.writeRegIdle v r).sram = s.sram ∧ (s.writeRegIdle v r).bram = s.bram := by
  obtain hr | hr := List.mem_append.1 hr
  · rw [writeRegIdle_config hr]
    exact ⟨rfl, rfl⟩
  · rw [writeRegIdle_operand hr]
    exact ⟨rfl, rfl⟩

/-- The registers a read of which gives what the host is shown in the time of R72: SPB, MODE and the configuration. -/
def shownRegs : List HostReg := [.spb, .mode] ++ configRegs

/-- The registers that read as they are in the time of R72 too: ID, CTRL, CMD and the operands. -/
def unveiledRegs : List HostReg := [.id, .ctrl, .cmd] ++ operandRegs

/-- The result registers (R37). -/
def resultRegs : List HostReg := [.result0, .result1, .result2, .fresultLo, .fresultHi]

theorem isResult_shownRegs : ∀ r ∈ shownRegs, r.isResult = false ∧ r ≠ .status := by decide

theorem isResult_unveiledRegs : ∀ r ∈ unveiledRegs, r.isResult = false ∧ r ≠ .status := by decide

theorem State.readReg_shown (s : State) (hr : r ∈ unveiledRegs) : s.shown.readReg r = s.readReg r := by
  simp only [unveiledRegs, operandRegs, List.cons_append, List.nil_append, List.mem_cons, List.not_mem_nil, or_false] at hr
  obtain rfl | rfl | rfl | rfl | rfl | rfl | rfl | rfl | rfl | rfl := hr
  all_goals simp [State.readReg]

/-- Settles O52: the lists of offsets are those of the registers, so that each clause is one fact about a register's read or write. -/
theorem registersReadBackWhatWasWritten : Obligations.RegistersReadBackWhatWasWritten := by
  refine ⟨fun s => ?_, fun s => ?_, fun s hbefore => ?_, fun s hbusy hbefore => ?_, fun s v hbusy => ?_, fun s v hbusy => ?_,
    fun s r v hbusy hr => ?_⟩
  · show ∀ p ∈ unveiledRegs.map (fun r => (r.busOffset, s.readReg r)), _
    refine List.forall_mem_map.2 fun r hr => ?_
    obtain ⟨hres, hst⟩ := isResult_unveiledRegs r hr
    rw [s.busRead_shown hres hst, s.readReg_shown hr]
  · exact congrArg Prod.snd s.busRead_status
  · simp only [setWidth_eq_zero_append]
    show ∀ p ∈ shownRegs.map (fun r => (r.busOffset, s.readReg r)), _
    refine List.forall_mem_map.2 fun r hr => ?_
    obtain ⟨hres, hst⟩ := isResult_shownRegs r hr
    rw [s.busRead_shown hres hst, s.shown_none hbefore]
  · show ∀ p ∈ resultRegs.map (fun r => (r.busOffset, s.readReg r)), _
    have hst : ∀ r ∈ resultRegs, r ≠ .status := by decide
    exact List.forall_mem_map.2 fun r hr => State.busRead_current (by simp [State.veiled, hbusy, hbefore]) (hst r hr)
  · show ∀ p ∈ configRegs.map (fun r => (r.busOffset, fun c : FskConfig => c.set v r)), _
    refine List.forall_mem_map.2 fun r hr => ?_
    rw [State.busWrite_idle hbusy, writeRegIdle_config hr]
    rfl
  · show ∀ p ∈ operandRegs.map (fun r => (r.busOffset, s.ops.set v r)), _
    refine List.forall_mem_map.2 fun r hr => ?_
    rw [State.busWrite_idle hbusy, writeRegIdle_operand hr]
  · have hwrite : s.busWrite 4 (BitVec.ofNat 32 r.offset) v = s.writeRegIdle v r := State.busWrite_idle hbusy r v
    have hmem : r ∈ configRegs ++ operandRegs := hr
    simp only [hwrite, s.shown_writeRegIdle hmem]
    refine ⟨readReg_writeRegIdle_same hmem s v, ?_, fun r' hne hmode hspb => ?_, rams_writeRegIdle hmem s v⟩
    · rw [readReg_writeRegIdle_same hmem, readReg_writeRegIdle_same hmem]
    · exact ⟨readReg_writeRegIdle_other hmem hne hmode hspb s v, readReg_writeRegIdle_other hmem hne hmode hspb s.shown v⟩

end Sys2Proof.Machine
end

section
/-! What the command and the host each see from the CMD write on (10_state.md R38, R41; 20_memory.md R72): what a bus access can do to the
inputs of a command in flight, and to what the host is shown. -/

namespace Sys2Proof.Machine

variable {s t : State}

/-- What a command in flight reads is the same in both states, and it is still in flight if it was. -/
structure State.SameInputs (s t : State) : Prop where
  busy    : t.status.busy = s.status.busy
  cmd     : t.cmd = s.cmd
  cfg     : t.cfg = s.cfg
  mode    : t.mode = s.mode
  ops     : t.ops = s.ops
  results : t.results = s.results
  sram    : t.sram = s.sram
  bram    : t.bram = s.bram

/-- While BUSY = 1 a write to the register block changes no input of the command, but for the soft reset (R39, R113). -/
theorem State.writeReg_busy_inputs (h : s.status.busy = true) (r : HostReg) (v : Word) :
    s.SameInputs (s.writeReg r v) ∨ (r = .ctrl ∧ v.getLsbD 0 = true ∧ s.writeReg r v = s.softReset) := by
  by_cases hctrl : r = .ctrl
  · subst hctrl
    rw [s.writeReg_ctrl]
    cases hv : v.getLsbD 0 with
    | true => exact .inr ⟨rfl, rfl, s.writeCtrl_reset hv⟩
    | false =>
      rw [s.writeCtrl_enable hv]
      exact .inl (by constructor <;> rfl)
  · by_cases hstatus : r = .status
    · subst hstatus
      rw [s.writeReg_status]
      exact .inl (by constructor <;> rfl)
    · rw [State.writeReg_busy h hctrl hstatus]
      exact .inl (by constructor <;> rfl)

/-- While BUSY = 1 a bus write changes no input of the command, but for the soft reset (R39, R67). -/
theorem State.busWrite_busy_inputs (h : s.status.busy = true) (width : Nat) (off v : Word) :
    s.SameInputs (s.busWrite width off v) ∨
      (width = 4 ∧ off = 0x004 ∧ v.getLsbD 0 = true ∧ s.busWrite width off v = s.softReset) := by
  cases ht : busTarget s.params width off with
  | busError =>
    rw [State.busWrite, ht]
    exact .inl (by constructor <;> rfl)
  | reg r =>
    obtain ⟨rfl, rfl⟩ := (busTarget_reg_iff _ _ _ _).1 ht
    rw [s.busWrite_reg]
    obtain hsame | ⟨rfl, hv, hreset⟩ := State.writeReg_busy_inputs h r v
    · exact .inl hsame
    · exact .inr ⟨rfl, rfl, hv, hreset⟩
  | byteWord k =>
    simp only [State.busWrite, ht, h, if_true]
    exact .inl (by constructor <;> rfl)
  | sampleWord i =>
    simp only [State.busWrite, ht, h, if_true]
    exact .inl (by constructor <;> rfl)

theorem State.busRead_inputs (s : State) (width : Nat) (off : Word) : s.SameInputs (s.busRead width off).1 := by
  obtain ⟨fs, n, b, -, e⟩ := busRead_frame s width off
  rw [e]
  constructor <;> rfl

theorem State.setVar_eq (s : State) (x : Nat) (v : Option Word) : ∃ a, s.setVar x v = { s with host := a } := by
  cases v <;> exact ⟨_, rfl⟩

/-- The host's turn makes one bus access, that of its line, or none; the rest of it moves the host alone. -/
theorem hostTurn_access (h : hostTurn s = .next t) :
    (∃ a, t = { s with host := a }) ∨
    (∃ width off v a, s.host.program[s.host.pos]? = some (.wr width off v) ∧ t = { s.busWrite width off v with host := a }) ∨
    (∃ width off x a, s.host.program[s.host.pos]? = some (.rd width off x) ∧ t = { (s.busRead width off).1 with host := a }) := by
  unfold hostTurn at h
  split at h
  · cases h
    exact .inl ⟨_, rfl⟩
  · split at h
    · rename_i line hline
      cases line with
      | wr width off v =>
        simp only [runHostStep, State.hostWrite_busAddress] at h
        cases h
        exact .inr (.inl ⟨width, off, v, _, hline, rfl⟩)
      | rd width off x =>
        simp only [runHostStep, State.hostRead_busAddress] at h
        cases h
        obtain ⟨a, ha⟩ := (s.busRead width off).1.setVar_eq x (s.busRead width off).2
        rw [ha]
        exact .inr (.inr ⟨width, off, x, _, hline, rfl⟩)
      | bnz x mask line =>
        simp only [runHostStep] at h
        split at h
        · cases h
          exact .inl ⟨_, rfl⟩
        · cases h
      | halt =>
        cases h
        exact .inl ⟨_, rfl⟩
    · cases h
      exact .inl ⟨_, rfl⟩

/-- What an accepted write to a register other than CTRL and STATUS does to what the host is shown: a CMD write sets it anew, and the
host is shown its own writes to the configuration (log 26). -/
theorem State.writeRegIdle_before {r : HostReg} (hctrl : r ≠ .ctrl) (s : State) (v : Word) :
    (s.writeRegIdle v r).before = s.before ∨
    (r = .cmd ∧ (s.writeRegIdle v r).before = some { cfg := s.cfg, mode := s.mode }) ∨
    (r ∈ configRegs ∧ (s.writeRegIdle v r).before.isSome = s.before.isSome) := by
  cases r with
  | ctrl => exact absurd rfl hctrl
  | cmd => exact .inr (.inl ⟨rfl, rfl⟩)
  | sampleRate | bitRate | markFreq | spaceFreq | volume | preambleBits | postambleBits =>
    exact .inr (.inr ⟨by decide, Option.isSome_map⟩)
  | _ => exact .inl rfl

/-- What a write to the register block does to what the host is shown. -/
theorem State.writeReg_before (s : State) (r : HostReg) (v : Word) :
    (s.writeReg r v).before = s.before ∨
    (r = .ctrl ∧ v.getLsbD 0 = true ∧ (s.writeReg r v).before = none) ∨
    (s.status.busy = false ∧
      ((r = .cmd ∧ (s.writeReg r v).before = some { cfg := s.cfg, mode := s.mode }) ∨
        (r ∈ configRegs ∧ (s.writeReg r v).before.isSome = s.before.isSome))) := by
  by_cases hctrl : r = .ctrl
  · subst hctrl
    rw [s.writeReg_ctrl]
    cases hv : v.getLsbD 0 with
    | true => exact .inr (.inl ⟨rfl, rfl, by rw [s.writeCtrl_reset hv, s.softReset_before]⟩)
    | false => exact .inl (by rw [s.writeCtrl_enable hv])
  · cases hbusy : s.status.busy with
    | true =>
      by_cases hstatus : r = .status
      · subst hstatus
        exact .inl (by rw [s.writeReg_status, s.acknowledge_before])
      · exact .inl (by rw [State.writeReg_busy hbusy hctrl hstatus, s.reject_before])
    | false =>
      rw [State.writeReg_idle hbusy]
      exact (State.writeRegIdle_before hctrl s v).imp_right fun h => .inr ⟨rfl, h⟩

/-- What a bus write does to what the host is shown. -/
theorem State.busWrite_before (s : State) (width : Nat) (off v : Word) :
    (s.busWrite width off v).before = s.before ∨
    ∃ r : HostReg, width = 4 ∧ off = r.busOffset ∧
      ((r = .ctrl ∧ v.getLsbD 0 = true ∧ (s.busWrite width off v).before = none) ∨
      (s.status.busy = false ∧
        ((r = .cmd ∧ (s.busWrite width off v).before = some { cfg := s.cfg, mode := s.mode }) ∨
          (r ∈ configRegs ∧ (s.busWrite width off v).before.isSome = s.before.isSome)))) := by
  cases ht : busTarget s.params width off with
  | busError => exact .inl (by simp [State.busWrite, ht])
  | reg r =>
    obtain ⟨rfl, rfl⟩ := (busTarget_reg_iff _ _ _ _).1 ht
    rw [s.busWrite_reg]
    exact (s.writeReg_before r v).imp_right fun h => ⟨r, rfl, rfl, h⟩
  | byteWord k => exact .inl (by simp only [State.busWrite, ht]; split <;> rfl)
  | sampleWord i => exact .inl (by simp only [State.busWrite, ht]; split <;> rfl)

/-- Only a read of STATUS that returns BUSY = 0 or DONE = 1 ends the time of R72. -/
theorem State.busRead_before (s : State) (width : Nat) (off : Word) :
    (s.busRead width off).1.before = s.before ∨
    (width = 4 ∧ off = 0x008 ∧ (s.busRead width off).1.before = none ∧ (s.status.busy = false ∨ s.status.done = true)) := by
  cases ht : busTarget s.params width off with
  | busError => exact .inl (by simp [State.busRead, ht])
  | reg r =>
    obtain ⟨rfl, rfl⟩ := (busTarget_reg_iff _ _ _ _).1 ht
    by_cases hstatus : r = .status
    · subst hstatus
      rw [s.busRead_status]
      obtain ⟨b, hb, e⟩ := s.statusRead_cases
      rw [e]
      exact hb.imp_right fun ⟨hnone, hdone⟩ => ⟨rfl, rfl, hnone, hdone⟩
    · refine .inl ?_
      simp only [State.busRead, ht, hstatus, if_false]
      split <;> rfl
  | byteWord k => exact .inl (by simp only [State.busRead, ht]; split <;> rfl)
  | sampleWord i => exact .inl (by simp only [State.busRead, ht]; split <;> rfl)

/-- An aligned access inside a RAM window reaches a word of a RAM (R60). -/
theorem busTarget_window {p : Params} {off : Word} (h4 : off.toNat % 4 = 0)
    (hw : (byteWindow ≤ off.toNat ∧ off.toNat < byteWindow + p.byteRamBytes) ∨
      (sampleWindow ≤ off.toNat ∧ off.toNat < sampleWindow + 4 * p.sampleRamWords)) :
    (∃ k, busTarget p 4 off = .byteWord k) ∨ ∃ i, busTarget p 4 off = .sampleWord i := by
  have hreg : ¬ off.toNat < 0x100 := by
    simp only [byteWindow, sampleWindow] at hw
    omega
  rw [busTarget, if_pos ⟨rfl, h4⟩, alignedTarget, if_neg hreg]
  by_cases hbyte : byteWindow ≤ off.toNat ∧ off.toNat < byteWindow + p.byteRamBytes
  · exact .inl ⟨_, if_pos hbyte⟩
  · rw [if_neg hbyte, if_pos (hw.resolve_left hbyte)]
    exact .inr ⟨_, rfl⟩

/-- A read of a RAM window is a free draw while the RAMs are veiled (R67, R72). -/
theorem State.busRead_window_veiled (hv : s.veiled = true) {off : Word}
    (ht : (∃ k, busTarget s.params 4 off = .byteWord k) ∨ ∃ i, busTarget s.params 4 off = .sampleWord i) :
    s.busRead 4 off = s.freeDraw := by
  obtain ⟨k, hk⟩ | ⟨i, hi⟩ := ht
  · simp [State.busRead, hk, hv]
  · simp [State.busRead, hi, hv]

/-- Performing a command does not change what the host is shown (R72). -/
theorem Completion.before_eq (h : Completion s t) : t.before = s.before := by
  cases h with
  | failed fs c hc => simp
  | done fs u r0 r1 r2 f hu => cases hu <;> simp

theorem hostTurn_of_step (hturn : s.turn = .host) (h : step s = .next t) : ∃ c, hostTurn { s with sched := c } = .next t := by
  rw [step, hturn, s.takeTurn_eq] at h
  exact ⟨_, h⟩

/-- On its turn the host changes no input of a command in flight, but by a soft reset (R41). -/
theorem hostTurn_busy_inputs (hbusy : s.status.busy = true) (h : hostTurn s = .next t) :
    s.SameInputs t ∨
      ∃ v : Word, s.host.program[s.host.pos]? = some (.wr 4 0x004 v) ∧ v.getLsbD 0 = true ∧ t.status.busy = false := by
  obtain ⟨a, rfl⟩ | ⟨width, off, v, a, hline, rfl⟩ | ⟨width, off, x, a, -, rfl⟩ := hostTurn_access h
  · exact .inl (by constructor <;> rfl)
  · obtain hsame | ⟨rfl, rfl, hv, hreset⟩ := State.busWrite_busy_inputs hbusy width off v
    · exact .inl { hsame with }
    · exact .inr ⟨v, hline, hv, by rw [hreset]; rfl⟩
  · exact .inl { s.busRead_inputs width off with }

/-- What the host's turn does to what the host is shown. -/
theorem hostTurn_before {b : Before} (hb : s.before = some b) (h : hostTurn s = .next t) :
    t.before = some b ∨
    (t.before = none ∧
      ((∃ x, s.host.program[s.host.pos]? = some (.rd 4 0x008 x) ∧ (s.status.busy = false ∨ s.status.done = true)) ∨
        (∃ v : Word, s.host.program[s.host.pos]? = some (.wr 4 0x004 v) ∧ v.getLsbD 0 = true))) ∨
    (s.status.busy = false ∧ ∃ (off v : Word), s.host.program[s.host.pos]? = some (.wr 4 off v) ∧
      ((off = 0x040 ∧ t.before = some { cfg := s.cfg, mode := s.mode }) ∨
        (off.toNat ∈ configRegs.map HostReg.offset ∧ t.before.isSome = true))) := by
  obtain ⟨a, rfl⟩ | ⟨width, off, v, a, hline, rfl⟩ | ⟨width, off, x, a, hline, rfl⟩ := hostTurn_access h
  · exact .inl hb
  · obtain hsame | ⟨r, rfl, rfl, ⟨rfl, hv, hnone⟩ | ⟨hidle, ⟨rfl, haccept⟩ | ⟨hr, hsome⟩⟩⟩ := s.busWrite_before width off v
    · exact .inl (hsame.trans hb)
    · exact .inr (.inl ⟨hnone, .inr ⟨v, hline, hv⟩⟩)
    · exact .inr (.inr ⟨hidle, _, v, hline, .inl ⟨rfl, haccept⟩⟩)
    · refine .inr (.inr ⟨hidle, _, v, hline, .inr ⟨?_, by simpa [hb] using hsome⟩⟩)
      rw [r.busOffset_toNat]
      exact List.mem_map_of_mem hr
  · obtain hsame | ⟨rfl, rfl, hnone, hdone⟩ := s.busRead_before width off
    · exact .inl (hsame.trans hb)
    · exact .inr (.inl ⟨hnone, .inl ⟨x, hline, hdone⟩⟩)

/-- Settles O8: the host's turn while BUSY = 1, the CMD write, the reads in the time of R72, and what each kind of step does to that
time. -/
theorem commandAndHostSeeTheStateBefore : Obligations.CommandAndHostSeeTheStateBefore := by
  refine ⟨fun s t hbusy hturn hstep => ?_, fun s w hbusy => ?_, fun s b hb => ⟨?_, fun off h4 hoff => ?_⟩,
    fun s t b hb hstep => ?_⟩
  · obtain ⟨c, hline⟩ := hostTurn_of_step (s.turn_host (.inr hturn)) hstep
    obtain hsame | hreset := hostTurn_busy_inputs (s := { s with sched := c }) hbusy hline
    · exact .inl ⟨hsame.busy.trans hbusy, hsame.cmd, hsame.cfg, hsame.mode, hsame.ops, hsame.results,
        fun x => by rw [hsame.sram], fun x => by rw [hsame.bram]⟩
    · exact .inr hreset
  · exact congrArg State.before (State.busWrite_idle hbusy .cmd w)
  · have hread : ∀ p ∈ shownRegs.map (fun r => (r.busOffset, s.shown.readReg r)), s.busRead 4 p.1 = (s, some p.2) :=
      List.forall_mem_map.2 fun r hr =>
        have ⟨hres, hst⟩ := isResult_shownRegs r hr
        s.busRead_shown hres hst
    rw [s.shown_some hb] at hread
    simp only [setWidth_eq_zero_append]
    exact hread
  · have hveiled : s.veiled = true := by simp [State.veiled, hb]
    obtain hres | hwindow := hoff
    · have hresult : ∀ r ∈ resultRegs, r.isResult = true := by decide
      obtain ⟨r, hr, hroff⟩ : ∃ r ∈ resultRegs, r.offset = off.toNat := List.mem_map.1 hres
      have hword : off = r.busOffset := BitVec.eq_of_toNat_eq (by rw [r.busOffset_toNat, hroff])
      rw [hword]
      exact State.busRead_result_veiled hveiled (hresult r hr)
    · exact State.busRead_window_veiled hveiled (busTarget_window h4 hwindow)
  · obtain ⟨-, -, hc⟩ | ⟨hturn, -⟩ := step_cases hstep
    · exact .inl (by rw [hc.before_eq, s.takeTurn_before, hb])
    · obtain ⟨c, hline⟩ := hostTurn_of_step hturn hstep
      exact hostTurn_before (s := { s with sched := c }) hb hline

end Sys2Proof.Machine
end

section
/-! The checks a command makes before it acts, the range checks of 20_memory.md R70 among them, and a command whose range leaves its RAM
(60_exceptions.md R244). -/

namespace Sys2Proof.Machine

variable {s : State} {a n : Nat}

/-- A check leads to P where both its failure and the rest of the command do. -/
theorem require_ensures {P : State → Prop} {c : Bool} {code : ErrCode} {rest : Unit → Result} (hfail : P (s.fail code))
    (hrest : ∃ t, rest () = .next t ∧ P t) : ∃ t, require c code s rest = .next t ∧ P t := by
  cases c
  · exact ⟨_, rfl, hfail⟩
  · exact hrest

theorem State.sampleRangeOk_iff (s : State) (a n : Nat) : s.sampleRangeOk a n = true ↔ a + n ≤ s.params.sampleRamWords :=
  decide_eq_true_iff

theorem State.byteRangeOk_iff (s : State) (a n : Nat) : s.byteRangeOk a n = true ↔ a + n ≤ s.params.byteRamBytes :=
  decide_eq_true_iff

theorem State.sampleRangeOk_false (h : s.params.sampleRamWords < a + n) : s.sampleRangeOk a n = false :=
  Bool.eq_false_iff.2 fun hok => h.not_ge ((s.sampleRangeOk_iff a n).1 hok)

theorem State.byteRangeOk_false (h : s.params.byteRamBytes < a + n) : s.byteRangeOk a n = false :=
  Bool.eq_false_iff.2 fun hok => h.not_ge ((s.byteRangeOk_iff a n).1 hok)

/-- A failure completion reports the failure and changes nothing else (R242). -/
theorem State.fail_report (s : State) {c : ErrCode} (hc : c ≠ .none) : s.reportsFailure (s.fail c) c ∧ s.onlyReport (s.fail c) := by
  refine ⟨⟨?_, rfl⟩, rfl⟩
  simp [Status.finish, hc]

/-- The configuration check passes and the check of the sample range does not. -/
theorem require_sampleRange_fails (hvalid : s.cfg.valid = true) (hout : s.params.sampleRamWords < a + n) (rest : Unit → Result) :
    (require s.cfg.valid .cfgInvalid s fun _ => require (s.sampleRangeOk a n) .sampleRange s rest) = .next (s.fail .sampleRange) := by
  rw [require_of hvalid, require_of_not (State.sampleRangeOk_false hout)]

/-- Settles O16: in each command the range check fails before anything is read or written. -/
theorem rangeOutsideTheRamFails : Obligations.RangeOutsideTheRamFails := by
  refine ⟨fun i s hi hvalid hout => ?_, fun s hvalid hout => ?_, fun b s hvalid hout => ?_, fun i s hi hout => ?_⟩
  · refine ⟨s.fail .sampleRange, ?_, s.fail_report nofun⟩
    simp only [List.mem_cons, List.not_mem_nil, or_false] at hi
    obtain rfl | rfl | rfl | rfl := hi
    all_goals exact require_sampleRange_fails hvalid hout _
  · exact ⟨_, require_sampleRange_fails hvalid hout _, s.fail_report nofun⟩
  · exact ⟨_, require_sampleRange_fails hvalid hout _, s.fail_report nofun⟩
  · refine ⟨s.fail .byteRange, ?_, s.fail_report nofun⟩
    simp only [List.mem_cons, List.not_mem_nil, or_false] at hi
    obtain rfl | rfl := hi
    · rw [exec, execCrc16]
      exact require_of_not (State.byteRangeOk_false hout) _ _ _
    · rw [exec, execCrcCheck]
      exact require_of_not (State.byteRangeOk_false hout) _ _ _

end Sys2Proof.Machine
end

section
/-! What an access reaches beyond the register block, and just when it reaches anything (20_memory.md R60, R63). -/

namespace Sys2Proof.Machine

variable {p : Params} {off : Word}

/-- An aligned access inside the byte RAM window reaches the word there (R64). -/
theorem busTarget_byteWindow (h4 : off.toNat % 4 = 0) (hlo : 0x00010000 ≤ off.toNat)
    (hhi : off.toNat < 0x00010000 + p.byteRamBytes) : busTarget p 4 off = .byteWord (off.toNat - 0x00010000) := by
  have hreg : ¬ off.toNat < 0x100 := by omega
  rw [busTarget, if_pos ⟨rfl, h4⟩, alignedTarget, if_neg hreg, byteWindow, if_pos ⟨hlo, hhi⟩]

/-- An aligned access inside the sample RAM window reaches the word there (R66): the byte RAM window ends below it. -/
theorem busTarget_sampleWindow (hp : p.wf) (h4 : off.toNat % 4 = 0) (hlo : 0x00100000 ≤ off.toNat)
    (hhi : off.toNat < 0x00100000 + 4 * p.sampleRamWords) :
    busTarget p 4 off = .sampleWord ((off.toNat - 0x00100000) / 4) := by
  obtain ⟨-, -, hbytes, -, -⟩ := hp
  have hreg : ¬ off.toNat < 0x100 := by omega
  have hbyte : ¬ (0x00010000 ≤ off.toNat ∧ off.toNat < 0x00010000 + p.byteRamBytes) := by omega
  rw [busTarget, if_pos ⟨rfl, h4⟩, alignedTarget, if_neg hreg, byteWindow, if_neg hbyte, sampleWindow, if_pos ⟨hlo, hhi⟩]

/-- The register map has a register at just the offsets it lists (R21). -/
theorem HostReg.atOffset_eq_none_iff (n : Nat) : HostReg.atOffset n = none ↔ n ∉ mappedRegisters := by
  have hmap : mappedRegisters = HostReg.all.map HostReg.offset := by decide
  simp [hmap, HostReg.atOffset]

theorem lt_of_mem_mappedRegisters {n : Nat} (h : n ∈ mappedRegisters) : n < 0x100 := by
  revert n
  decide

/-- An aligned access gets a bus error just where no region has the offset (R60, R65). -/
theorem alignedTarget_busError_iff (p : Params) (n : Nat) :
    alignedTarget p n = .busError ↔
      ¬ (n ∈ mappedRegisters ∨ (byteWindow ≤ n ∧ n < byteWindow + p.byteRamBytes) ∨
        (sampleWindow ≤ n ∧ n < sampleWindow + 4 * p.sampleRamWords)) := by
  unfold alignedTarget
  by_cases hreg : n < 0x100
  · have hbyte : ¬ byteWindow ≤ n := by simp only [byteWindow]; omega
    have hsample : ¬ sampleWindow ≤ n := by simp only [sampleWindow]; omega
    rw [if_pos hreg]
    simp only [hbyte, hsample, false_and, or_false, ← HostReg.atOffset_eq_none_iff]
    cases HostReg.atOffset n <;> simp
  · have hmem : n ∉ mappedRegisters := fun h => hreg (lt_of_mem_mappedRegisters h)
    rw [if_neg hreg]
    by_cases hbyte : byteWindow ≤ n ∧ n < byteWindow + p.byteRamBytes
    · simp [hbyte]
    · by_cases hsample : sampleWindow ≤ n ∧ n < sampleWindow + 4 * p.sampleRamWords
      · simp [hbyte, hsample]
      · simp [hbyte, hsample, hmem]

/-- An access gets a bus error just where it is not a mapped access (R63, R65). -/
theorem busTarget_busError_iff (p : Params) (width : Nat) (off : Word) :
    busTarget p width off = .busError ↔ ¬ mappedAccess p width off := by
  unfold busTarget mappedAccess
  by_cases ha : width = 4 ∧ off.toNat % 4 = 0
  · rw [if_pos ha, alignedTarget_busError_iff]
    simp [ha, byteWindow, sampleWindow]
  · rw [if_neg ha]
    exact iff_of_true rfl fun ⟨hwidth, halign, _⟩ => ha ⟨hwidth, halign⟩

end Sys2Proof.Machine
end

section
/-! Bus errors, and that an access the block answers records none (20_memory.md R65). -/

namespace Sys2Proof.Machine

variable {s : State} {width : Nat} {off : Word}

theorem State.recordFaults_nil (s : State) : s.recordFaults [] = s := rfl

theorem State.mem_recordFaults_faults (s : State) (fs : List ModelFault) (f : ModelFault) :
    f ∈ (s.recordFaults fs).faults ↔ f ∈ s.faults ∨ f ∈ fs := mem_foldl_addFault fs s.faults f

/-- A write that is no mapped access records its bus error and does nothing else. -/
theorem State.busWrite_unmapped (h : ¬ mappedAccess s.params width off) (v : Word) :
    s.busWrite width off v = s.recordFaults [.busError off.toNat] := by
  rw [State.busWrite, (busTarget_busError_iff _ _ _).2 h]

/-- A read that is no mapped access records its bus error, does nothing else and has no value. -/
theorem State.busRead_unmapped (h : ¬ mappedAccess s.params width off) :
    s.busRead width off = (s.recordFaults [.busError off.toNat], none) := by
  rw [State.busRead, (busTarget_busError_iff _ _ _).2 h]

theorem State.writeReg_faults (s : State) (r : HostReg) (v : Word) : (s.writeReg r v).faults = s.faults := by
  cases r with
  | ctrl =>
    rw [s.writeReg_ctrl, State.writeCtrl]
    split
    · exact s.softReset_faults
    · rfl
  | _ =>
    rw [State.writeReg]
    split <;> rfl

/-- A write the block answers records no fault. -/
theorem State.busWrite_mapped_faults (h : mappedAccess s.params width off) (v : Word) : (s.busWrite width off v).faults = s.faults := by
  unfold State.busWrite
  split
  · rename_i ht
    exact absurd h ((busTarget_busError_iff _ _ _).1 ht)
  · exact s.writeReg_faults _ v
  · split <;> rfl
  · split <;> rfl

/-- A read the block answers records reads of unwritten cells at most. -/
theorem State.busRead_mapped_faults (h : mappedAccess s.params width off) :
    (s.busRead width off).1.faults = s.faults ∨
    (∃ k, (s.busRead width off).1 = s.recordFaults (s.unwrittenBytes k 4)) ∨
    ∃ i, (s.busRead width off).1 = s.recordFaults (s.unwrittenSamples i 1) := by
  unfold State.busRead
  split
  · rename_i ht
    exact absurd h ((busTarget_busError_iff _ _ _).1 ht)
  · split
    · exact .inl rfl
    · dsimp only
      split
      · exact .inl s.statusRead_faults
      · exact .inl rfl
  · split
    · exact .inl rfl
    · exact .inr (.inl ⟨_, rfl⟩)
  · split
    · exact .inl rfl
    · exact .inr (.inr ⟨_, rfl⟩)

/-- Settles O45: an access is a bus error or it is mapped, by `busTarget_busError_iff`. -/
theorem unmappedAccessIsABusError : Obligations.UnmappedAccessIsABusError := by
  refine fun s width off v => ⟨fun h => ?_, fun h o => ⟨by rw [State.busWrite_mapped_faults h], ?_⟩⟩
  · rw [State.busWrite_unmapped h, State.busRead_unmapped h]
    have hfaults : ∀ f, f ∈ (s.recordFaults [.busError off.toNat]).faults ↔ f ∈ s.faults ∨ f = .busError off.toNat := fun f => by
      rw [s.mem_recordFaults_faults, List.mem_singleton]
    exact ⟨rfl, rfl, rfl, hfaults, hfaults⟩
  · obtain he | ⟨k, he⟩ | ⟨i, he⟩ := State.busRead_mapped_faults h
    · rw [he]
    · simp [he, State.mem_recordFaults_faults, State.mem_unwrittenBytes, -State.recordFaults_faults]
    · simp [he, State.mem_recordFaults_faults, State.mem_unwrittenSamples, -State.recordFaults_faults]

end Sys2Proof.Machine
end

section
/-! What a read can move (20_memory.md R69, R72). -/

namespace Sys2Proof.Machine

variable {s : State} {width : Nat} {off : Word}

/-- In the time of R67 and R72 a read the block answers has a value and records no fault. -/
theorem State.busRead_veiled (hv : s.veiled = true) (h : mappedAccess s.params width off) :
    (s.busRead width off).1.faults = s.faults ∧ (s.busRead width off).2.isSome = true := by
  unfold State.busRead
  rw [hv]
  split
  · rename_i ht
    exact absurd h ((busTarget_busError_iff _ _ _).1 ht)
  · split
    · exact ⟨rfl, rfl⟩
    · dsimp only
      split
      · exact ⟨s.statusRead_faults, rfl⟩
      · exact ⟨rfl, rfl⟩
  · exact ⟨rfl, rfl⟩
  · exact ⟨rfl, rfl⟩

/-- What a read leaves of what the host is shown: nothing at a STATUS read that returns BUSY = 0 or DONE = 1, else all of it (R72). -/
theorem State.busRead_before_eq (s : State) (width : Nat) (off : Word) : (s.busRead width off).1.before =
    if width = 4 ∧ off = 0x008 ∧ (s.status.busy = false ∨ s.status.done = true) then none else s.before := by
  split
  · rename_i h
    obtain ⟨rfl, rfl, hshows⟩ := h
    have hread : (s.busRead 4 0x008).1 = s.statusRead := congrArg Prod.fst s.busRead_status
    rw [hread, State.statusRead, if_pos (by simpa using hshows)]
  · rename_i h
    exact (s.busRead_before width off).resolve_right fun ⟨hwidth, hoff, _, hshows⟩ => h ⟨hwidth, hoff, hshows⟩

/-- Settles O46: the frame of a read, and what it does in the time of R72. -/
theorem readsHaveNoSideEffects : Obligations.ReadsHaveNoSideEffects := by
  intro s width off
  obtain ⟨fs, n, b, -, hread⟩ := busRead_frame s width off
  refine ⟨by rw [hread]; rfl, fun f hf => ?_, s.busRead_before_eq width off, fun hveil => State.busRead_veiled ?_⟩
  · rw [hread]
    exact (s.mem_recordFaults_faults fs f).2 (.inl hf)
  · simpa [State.veiled] using hveil

end Sys2Proof.Machine
end

section
/-! The RAM windows (20_memory.md R64, R66): a word written is the word read. -/

namespace Sys2Proof.Machine

variable {s : State} {off v : Word} {k i : Nat}

theorem State.veiled_eq_false (hbusy : s.status.busy = false) (hbefore : s.before = none) : s.veiled = false := by
  simp [State.veiled, hbusy, hbefore]

theorem State.busWrite_byteWord (ht : busTarget s.params 4 off = .byteWord k) (hbusy : s.status.busy = false) (v : Word) :
    s.busWrite 4 off v = s.writeBytes k (unpackBytes v) := by
  simp [State.busWrite, ht, hbusy]

theorem State.busWrite_sampleWord (ht : busTarget s.params 4 off = .sampleWord i) (hbusy : s.status.busy = false) (v : Word) :
    s.busWrite 4 off v = s.writeSamples i [v] := by
  simp [State.busWrite, ht, hbusy]

theorem State.busRead_byteWord (ht : busTarget s.params 4 off = .byteWord k) (hv : s.veiled = false) :
    s.busRead 4 off = (s.recordFaults (s.unwrittenBytes k 4), s.byteWordAt k) := by
  simp [State.busRead, ht, hv]

theorem State.busRead_sampleWord (ht : busTarget s.params 4 off = .sampleWord i) (hv : s.veiled = false) :
    s.busRead 4 off = (s.recordFaults (s.unwrittenSamples i 1), cellGet? s.sram i) := by
  simp [State.busRead, ht, hv]

/-- Byte j of a bus word is its bits 8j+7 to 8j (R64). -/
theorem getElem_unpackBytes (v : Word) (j : Nat) (hj : j < (unpackBytes v).length) : (unpackBytes v)[j] = v.extractLsb' (8 * j) 8 := by
  have hlt : j < 4 := hj
  interval_cases j <;> rfl

/-- A bus word is packed again from its bytes. -/
theorem packBytes_extractLsb' (v : Word) :
    packBytes (v.extractLsb' 0 8) (v.extractLsb' 8 8) (v.extractLsb' 16 8) (v.extractLsb' 24 8) = v := by
  rw [packBytes, BitVec.extractLsb'_append_extractLsb'_eq_extractLsb' (by rfl),
    BitVec.extractLsb'_append_extractLsb'_eq_extractLsb' (by rfl), BitVec.extractLsb'_append_extractLsb'_eq_extractLsb' (by rfl),
    BitVec.extractLsb'_eq_self]

/-- Where the byte RAM holds the bytes of a word, byte j of it is in the j-th cell (R64). -/
theorem State.holdsBytes_unpackBytes (h : s.holdsBytes k (unpackBytes v)) (j : Nat) (hj : j < 4) :
    cellGet? s.bram (k + j) = some (v.extractLsb' (8 * j) 8) :=
  (h j hj).trans (congrArg some (getElem_unpackBytes v j hj))

/-- A read of four written bytes gives the word that packs them. -/
theorem State.byteWordAt_of_holds (h : s.holdsBytes k (unpackBytes v)) : s.byteWordAt k = some v := by
  have hbyte := State.holdsBytes_unpackBytes h
  have hfirst : cellGet? s.bram k = some (v.extractLsb' 0 8) := hbyte 0 (by decide)
  simp [State.byteWordAt, hfirst, hbyte, packBytes_extractLsb']

theorem State.unwrittenBytes_of_holds {bs : List Byte} (h : s.holdsBytes k bs) : s.unwrittenBytes k bs.length = [] := by
  rw [State.unwrittenBytes, cellsGet_of_holds _ _ _ h, missingFrom_map_some, List.map_nil]

theorem State.unwrittenSamples_of_holds {xs : List F32} (h : s.holdsSamples i xs) : s.unwrittenSamples i xs.length = [] := by
  rw [State.unwrittenSamples, cellsGet_of_holds _ _ _ h, missingFrom_map_some, List.map_nil]

/-- A read of a written word of the byte RAM gives it and records no fault. -/
theorem State.busRead_of_holdsBytes (ht : busTarget s.params 4 off = .byteWord k) (hv : s.veiled = false)
    (h : s.holdsBytes k (unpackBytes v)) : s.busRead 4 off = (s, some v) := by
  have hwritten : s.unwrittenBytes k 4 = [] := State.unwrittenBytes_of_holds h
  rw [State.busRead_byteWord ht hv, hwritten, State.byteWordAt_of_holds h, State.recordFaults_nil]

/-- A read of a written word of the sample RAM gives it and records no fault. -/
theorem State.busRead_of_holdsSamples (ht : busTarget s.params 4 off = .sampleWord i) (hv : s.veiled = false)
    (h : s.holdsSamples i [v]) : s.busRead 4 off = (s, some v) := by
  have hwritten : s.unwrittenSamples i 1 = [] := State.unwrittenSamples_of_holds h
  have hcell : cellGet? s.sram i = some v := h 0 Nat.one_pos
  rw [State.busRead_sampleWord ht hv, hwritten, hcell, State.recordFaults_nil]

theorem State.writeBytes_holds (s : State) (k : Nat) (bs : List Byte) : (s.writeBytes k bs).holdsBytes k bs :=
  cellGet?_put_at s.bram k bs

theorem State.writeSamples_holds (s : State) (i : Nat) (xs : List F32) : (s.writeSamples i xs).holdsSamples i xs :=
  cellGet?_put_at s.sram i xs

/-- A write to a word of the byte RAM window sets its four bytes and nothing else, and reads back. -/
theorem State.busWrite_byteWord_spec (ht : busTarget s.params 4 off = .byteWord k) (hbusy : s.status.busy = false) (v : Word) :
    (s.before = none → (s.busWrite 4 off v).busRead 4 off = (s.busWrite 4 off v, some v)) ∧
    (∀ j, j < 4 → cellGet? (s.busWrite 4 off v).bram (k + j) = some (v.extractLsb' (8 * j) 8)) ∧
    s.busWrite 4 off v = { s with bram := (s.busWrite 4 off v).bram } ∧
    (∀ x, x < k ∨ k + 4 ≤ x → cellGet? (s.busWrite 4 off v).bram x = cellGet? s.bram x) := by
  have hholds := s.writeBytes_holds k (unpackBytes v)
  rw [State.busWrite_byteWord ht hbusy]
  refine ⟨fun hbefore => ?_, State.holdsBytes_unpackBytes hholds, rfl, fun x hx => cellGet?_put_outside _ _ _ _ hx⟩
  exact State.busRead_of_holdsBytes ht (State.veiled_eq_false hbusy hbefore) hholds

/-- A write to a word of the sample RAM window sets it and nothing else, and reads back. -/
theorem State.busWrite_sampleWord_spec (ht : busTarget s.params 4 off = .sampleWord i) (hbusy : s.status.busy = false) (v : Word) :
    (s.before = none → (s.busWrite 4 off v).busRead 4 off = (s.busWrite 4 off v, some v)) ∧
    cellGet? (s.busWrite 4 off v).sram i = some v ∧
    s.busWrite 4 off v = { s with sram := (s.busWrite 4 off v).sram } ∧
    (∀ x, x ≠ i → cellGet? (s.busWrite 4 off v).sram x = cellGet? s.sram x) := by
  have hholds := s.writeSamples_holds i [v]
  rw [State.busWrite_sampleWord ht hbusy]
  refine ⟨fun hbefore => ?_, hholds 0 Nat.one_pos, rfl, fun x hx => cellGet?_put_outside _ _ _ _ (Nat.lt_or_gt_of_ne hx)⟩
  exact State.busRead_of_holdsSamples ht (State.veiled_eq_false hbusy hbefore) hholds

/-- Settles O44: an access inside a window reaches one word of the RAM, and the write and the read are of that word. -/
theorem ramWindowReadsBackWhatWasWritten : Obligations.RamWindowReadsBackWhatWasWritten :=
  ⟨fun _ _ v hbusy _ h4 hlo hhi => State.busWrite_byteWord_spec (busTarget_byteWindow h4 hlo hhi) hbusy v,
    fun _ _ v hbusy hp h4 hlo hhi => State.busWrite_sampleWord_spec (busTarget_sampleWindow hp h4 hlo hhi) hbusy v⟩

end Sys2Proof.Machine
end

section
/-! Reads of cells that are not written (20_memory.md R68): what the host's reads and the commands' reads record. -/

namespace Sys2Proof.Machine

variable {s : State} {a n x : Nat}

/-- A word with an unwritten byte has no value. -/
theorem State.byteWordAt_eq_none {k j : Nat} (hj : j < 4) (h : cellGet? s.bram (k + j) = none) : s.byteWordAt k = none := by
  unfold State.byteWordAt
  split
  · interval_cases j <;> simp_all
  · rfl

theorem State.uninitRead_mem_afterSamples (hlo : a ≤ x) (hhi : x < a + n) (h : cellGet? s.sram x = none) :
    .uninitRead .sampleRam x ∈ (s.afterSamples a n).faults :=
  (s.mem_afterRead_faults _ _).2 (.inr ((s.mem_unwrittenSamples a n _).2 ⟨x, hlo, hhi, h, rfl⟩))

theorem State.uninitRead_mem_afterBytes (hlo : a ≤ x) (hhi : x < a + n) (h : cellGet? s.bram x = none) :
    .uninitRead .byteRam x ∈ (s.afterBytes a n).faults :=
  (s.mem_afterRead_faults _ _).2 (.inr ((s.mem_unwrittenBytes a n _).2 ⟨x, hlo, hhi, h, rfl⟩))

/-- The body of DECODE_FRAME completes, writes no sample and records no fault beyond the reads before it. -/
theorem decodeBody_frame (s : State) (xs : List F32) (st : Nat) :
    ∃ t, decodeBody s xs st = .next t ∧ t.sram = s.sram ∧ t.faults = s.faults ∧ t.status.busy = false := by
  unfold decodeBody
  dsimp only
  split
  · exact ⟨_, rfl, rfl, rfl, rfl⟩
  · exact require_ensures ⟨rfl, rfl, rfl⟩ ⟨_, rfl, rfl, rfl, rfl⟩

/-- A command that reads S and passes its checks ends with the faults of that read. -/
theorem exec_readsSamples {i : Instr} (hi : readsSamples i = true) (hvalid : s.cfg.valid = true)
    (hin : s.ops.srcAddr.toNat + s.ops.srcLen.toNat ≤ s.params.sampleRamWords) :
    ∃ t, exec i s = .next t ∧ t.faults = (s.afterSamples s.ops.srcAddr.toNat s.ops.srcLen.toNat).faults ∧ t.status.busy = false := by
  have hrange := (s.sampleRangeOk_iff _ _).2 hin
  cases i with
  | goertzel | decodeBit =>
    simp only [exec, execGoertzel, execDecodeBit, require_of hvalid, require_of hrange]
    exact ⟨_, rfl, rfl, rfl⟩
  | findPreamble =>
    rw [exec, execFindPreamble, require_of hvalid, require_of hrange]
    split
    · exact ⟨_, rfl, rfl, rfl⟩
    · exact ⟨_, rfl, rfl, rfl⟩
  | decodeFrame =>
    rw [exec, execDecodeFrame, require_of hvalid, require_of hrange]
    split
    · exact ⟨_, rfl, rfl, rfl⟩
    · obtain ⟨t, ht, -, hfaults, hbusy⟩ := decodeBody_frame (s.afterSamples s.ops.srcAddr.toNat s.ops.srcLen.toNat) _ _
      exact ⟨t, ht, hfaults, hbusy⟩
  | _ => cases hi

/-- CRC16 and CRC_CHECK, their range inside B, end with the faults of that read, whatever CRC_CHECK decides. -/
theorem exec_crc_reads {i : Instr} (hi : i ∈ [Instr.crc16, .crcCheck])
    (hin : s.ops.byteAddr.toNat + s.ops.byteLen.toNat ≤ s.params.byteRamBytes) :
    ∃ t, exec i s = .next t ∧ t.faults = (s.afterBytes s.ops.byteAddr.toNat s.ops.byteLen.toNat).faults ∧ t.status.busy = false := by
  have hrange := (s.byteRangeOk_iff _ _).2 hin
  simp only [List.mem_cons, List.not_mem_nil, or_false] at hi
  obtain rfl | rfl := hi
  · rw [exec, execCrc16, require_of hrange]
    exact ⟨_, rfl, rfl, rfl⟩
  · rw [exec, execCrcCheck, require_of hrange]
    exact require_ensures ⟨rfl, rfl⟩ ⟨_, rfl, rfl, rfl⟩

/-- ENCODE_FRAME that passes its checks ends with the faults of its read of the payload. -/
theorem exec_encodeFrame_reads (hvalid : s.cfg.valid = true) (hlen : s.ops.byteLen.toNat ≤ 65535)
    (hin : s.ops.byteAddr.toNat + s.ops.byteLen.toNat ≤ s.params.byteRamBytes)
    (hout : s.ops.dstAddr.toNat + s.cfg.nsamples s.ops.byteLen.toNat ≤ s.params.sampleRamWords) :
    ∃ t, exec .encodeFrame s = .next t ∧
      t.faults = (s.afterBytes s.ops.byteAddr.toNat s.ops.byteLen.toNat).faults ∧ t.status.busy = false := by
  rw [exec, execEncodeFrame, require_of hvalid, require_of (decide_eq_true hlen), require_of ((s.byteRangeOk_iff _ _).2 hin),
    require_of ((s.sampleRangeOk_iff _ _).2 hout)]
  exact ⟨_, rfl, rfl, rfl⟩

/-- Settles O47: the fault set after the read that a host access or a command makes. -/
theorem readsOfUnwrittenCellsAreRecorded : Obligations.ReadsOfUnwrittenCellsAreRecorded := by
  refine ⟨fun s off j hbusy hbefore _ h4 hlo hhi hj hcell => ?_, fun s off hbusy hbefore hp h4 hlo hhi hcell => ?_,
    fun i s x hi hvalid hin hlo hhi hcell => ?_, fun i s x hi hin hlo hhi hcell => ?_,
    fun s x hvalid hlen hin hout hlo hhi hcell => ?_⟩
  · rw [State.busRead_byteWord (busTarget_byteWindow h4 hlo hhi) (State.veiled_eq_false hbusy hbefore)]
    refine ⟨State.byteWordAt_eq_none hj hcell, (s.mem_recordFaults_faults _ _).2 (.inr ?_)⟩
    exact (s.mem_unwrittenBytes _ _ _).2 ⟨_, Nat.le_add_right _ _, Nat.add_lt_add_left hj _, hcell, rfl⟩
  · rw [State.busRead_sampleWord (busTarget_sampleWindow hp h4 hlo hhi) (State.veiled_eq_false hbusy hbefore)]
    refine ⟨hcell, (s.mem_recordFaults_faults _ _).2 (.inr ?_)⟩
    exact (s.mem_unwrittenSamples _ _ _).2 ⟨_, le_rfl, Nat.lt_succ_self _, hcell, rfl⟩
  · obtain ⟨t, ht, hfaults, hdone⟩ := exec_readsSamples hi hvalid hin
    exact ⟨t, ht, hfaults ▸ State.uninitRead_mem_afterSamples hlo hhi hcell, hdone⟩
  · obtain ⟨t, ht, hfaults, hdone⟩ := exec_crc_reads hi hin
    exact ⟨t, ht, hfaults ▸ State.uninitRead_mem_afterBytes hlo hhi hcell, hdone⟩
  · obtain ⟨t, ht, hfaults, hdone⟩ := exec_encodeFrame_reads hvalid hlen hin hout
    exact ⟨t, ht, hfaults ▸ State.uninitRead_mem_afterBytes hlo hhi hcell, hdone⟩

end Sys2Proof.Machine
end

section
/-! Which RAM a command reads and writes (20_memory.md R71): what it leaves as it was, and that a RAM it does not read has a part in
nothing but the cells it leaves. -/

namespace Sys2Proof.Machine

variable {α : Type} {i : Instr} {s : State}

/-- Performing `i` in `s` to end in `t` leaves S unless the command is one that writes S, and B likewise. -/
def KeepsRams (i : Instr) (s t : State) : Prop :=
  (writesSamples i = false → t.sram = s.sram) ∧ (writesBytes i = false → t.bram = s.bram)

theorem KeepsRams.of_eq {t : State} (hsram : t.sram = s.sram) (hbram : t.bram = s.bram) : KeepsRams i s t :=
  ⟨fun _ => hsram, fun _ => hbram⟩

theorem exec_keepsRams (i : Instr) (s : State) : ∃ t, exec i s = .next t ∧ KeepsRams i s t := by
  have hfail (c : ErrCode) : KeepsRams i s (s.fail c) := .of_eq rfl rfl
  cases i with
  | loadmode m =>
    rw [exec, execLoadMode]
    split
    · exact ⟨_, rfl, .of_eq rfl rfl⟩
    · exact ⟨_, rfl, hfail _⟩
  | genTone | encodeBit =>
    simp only [exec, execGenTone, execEncodeBit]
    exact require_ensures (hfail _) (require_ensures (hfail _) ⟨_, rfl, nofun, fun _ => rfl⟩)
  | crc16 =>
    rw [exec, execCrc16]
    exact require_ensures (hfail _) ⟨_, rfl, .of_eq (by simp) (by simp)⟩
  | crcCheck =>
    rw [exec, execCrcCheck]
    exact require_ensures (hfail _) (require_ensures (.of_eq (by simp) (by simp)) ⟨_, rfl, .of_eq (by simp) (by simp)⟩)
  | encodeFrame =>
    rw [exec, execEncodeFrame]
    exact require_ensures (hfail _) (require_ensures (hfail _) (require_ensures (hfail _) (require_ensures (hfail _)
      ⟨_, rfl, nofun, fun _ => by simp⟩)))
  | duration =>
    rw [exec, execDuration]
    exact require_ensures (hfail _) (require_ensures (hfail _) ⟨_, rfl, .of_eq rfl rfl⟩)
  | goertzel | decodeBit =>
    simp only [exec, execGoertzel, execDecodeBit]
    exact require_ensures (hfail _) (require_ensures (hfail _) ⟨_, rfl, .of_eq (by simp) (by simp)⟩)
  | findPreamble =>
    rw [exec, execFindPreamble]
    refine require_ensures (hfail _) (require_ensures (hfail _) ?_)
    split
    · exact ⟨_, rfl, .of_eq (by simp) (by simp)⟩
    · exact ⟨_, rfl, .of_eq (by simp) (by simp)⟩
  | decodeFrame =>
    rw [exec, execDecodeFrame]
    refine require_ensures (hfail _) (require_ensures (hfail _) ?_)
    split
    · exact ⟨_, rfl, .of_eq (by simp) (by simp)⟩
    · obtain ⟨t, ht, hsram, -⟩ := decodeBody_frame (s.afterSamples s.ops.srcAddr.toNat s.ops.srcLen.toNat) _ _
      exact ⟨t, ht, fun _ => hsram.trans (s.afterSamples_sram _ _), nofun⟩

/-- What a command can do to a RAM: leave it, or write a run of cells. -/
inductive RamWrite : (List (Nat × α) → List (Nat × α)) → Prop where
  | kept : RamWrite id
  | cells (a : Nat) (xs : List α) : RamWrite fun m => cellsPut m a xs

/-- From any two contents of the RAM a cell ends the same, or as it was in both. -/
theorem RamWrite.cell {w : List (Nat × α) → List (Nat × α)} (hw : RamWrite w) (m m' : List (Nat × α)) (x : Nat) :
    cellGet? (w m') x = cellGet? (w m) x ∨ (cellGet? (w m) x = cellGet? m x ∧ cellGet? (w m') x = cellGet? m' x) := by
  cases hw with
  | kept => exact .inr ⟨rfl, rfl⟩
  | cells a xs =>
    rw [cellGet?_put, cellGet?_put]
    split
    · exact .inl rfl
    · exact .inr ⟨rfl, rfl⟩

/-- The state with other contents of the sample RAM. -/
abbrev State.withSram (s : State) (m : List (Nat × F32)) : State := { s with sram := m }

/-- The state with other contents of the byte RAM. -/
abbrev State.withBram (s : State) (m : List Host.Cell) : State := { s with bram := m }

theorem State.sampleRangeOk_withSram (m : List (Nat × F32)) (a n : Nat) : (s.withSram m).sampleRangeOk a n = s.sampleRangeOk a n := rfl
theorem State.byteRangeOk_withSram (m : List (Nat × F32)) (a n : Nat) : (s.withSram m).byteRangeOk a n = s.byteRangeOk a n := rfl
theorem State.bytes_withSram (m : List (Nat × F32)) (a n : Nat) : (s.withSram m).bytes a n = s.bytes a n := rfl
theorem State.sampleRangeOk_withBram (m : List Host.Cell) (a n : Nat) : (s.withBram m).sampleRangeOk a n = s.sampleRangeOk a n := rfl
theorem State.byteRangeOk_withBram (m : List Host.Cell) (a n : Nat) : (s.withBram m).byteRangeOk a n = s.byteRangeOk a n := rfl
theorem State.samples_withBram (m : List Host.Cell) (a n : Nat) : (s.withBram m).samples a n = s.samples a n := rfl

theorem State.afterBytes_withSram (m : List (Nat × F32)) (a n : Nat) :
    (s.withSram m).afterBytes a n = (s.afterBytes a n).withSram m := by
  show (s.withSram m).afterRead (s.unwrittenBytes a n) = _
  unfold State.afterBytes State.afterRead
  split <;> rfl

theorem State.afterSamples_withBram (m : List Host.Cell) (a n : Nat) :
    (s.withBram m).afterSamples a n = (s.afterSamples a n).withBram m := by
  show (s.withBram m).afterRead (s.unwrittenSamples a n) = _
  unfold State.afterSamples State.afterRead
  split <;> rfl

/-- An outcome `g m` that depends on the contents `m` of a RAM, which `put` puts into a state, in nothing but that RAM, where a run of
cells may be written over. -/
def RamBlind (put : State → List (Nat × α) → State) (g : List (Nat × α) → Result) : Prop :=
  ∃ t w, RamWrite w ∧ ∀ m, g m = .next (put t (w m))

variable {put : State → List (Nat × α) → State}

theorem RamBlind.next (t : State) : RamBlind put fun m => .next (put t m) := ⟨t, id, .kept, fun _ => rfl⟩

/-- A check that does not depend on the RAM. -/
theorem RamBlind.require {c : Bool} {code : ErrCode} {rest : List (Nat × α) → Result} (hrest : RamBlind put rest)
    (hput : ∀ m, (put s m).fail code = put (s.fail code) m := by intro; rfl) :
    RamBlind put fun m => require c code (put s m) fun _ => rest m := by
  cases c
  · exact ⟨s.fail code, id, .kept, fun m => congrArg Host.Outcome.next (hput m)⟩
  · exact hrest

/-- A command that does not read S depends on it in nothing but the cells of S it leaves. -/
theorem exec_blind_sram (hi : readsSamples i = false) (s : State) : RamBlind State.withSram fun m => exec i (s.withSram m) := by
  cases i with
  | loadmode k =>
    simp only [exec, execLoadMode]
    split
    · exact .next ((s.loadPreset _).complete _ _ _ _)
    · exact .next (s.fail _)
  | genTone | encodeBit =>
    simp only [exec, execGenTone, execEncodeBit, State.sampleRangeOk_withSram]
    exact .require (.require ⟨s.complete _ _ _ _, _, .cells _ _, fun _ => rfl⟩)
  | crc16 =>
    simp only [exec, execCrc16, State.byteRangeOk_withSram, State.bytes_withSram, State.afterBytes_withSram]
    exact .require (.next ((s.afterBytes _ _).complete _ _ _ _))
  | crcCheck =>
    simp only [exec, execCrcCheck, State.byteRangeOk_withSram, State.bytes_withSram, State.afterBytes_withSram]
    exact .require (.require (.next ((s.afterBytes _ _).complete _ _ _ _)))
  | encodeFrame =>
    simp only [exec, execEncodeFrame, State.byteRangeOk_withSram, State.sampleRangeOk_withSram, State.bytes_withSram,
      State.afterBytes_withSram]
    exact .require (.require (c := s.ops.byteLen.toNat ≤ 65535) (.require (.require
      ⟨(s.afterBytes _ _).complete _ _ _ _, _, .cells _ _, fun _ => rfl⟩)))
  | duration =>
    simp only [exec, execDuration]
    exact .require (.require (c := s.ops.byteLen.toNat ≤ 65535) (.next (s.complete _ _ _ _)))
  | _ => cases hi

/-- The body of DECODE_FRAME depends on B in nothing but the bytes of B it leaves. -/
theorem decodeBody_blind_bram (s : State) (xs : List F32) (st : Nat) :
    RamBlind State.withBram fun m => decodeBody (s.withBram m) xs st := by
  simp only [decodeBody, State.byteRangeOk_withBram]
  split
  · exact .next (s.fail _)
  · exact .require ⟨s.complete _ _ _ _, _, .cells _ _, fun _ => rfl⟩

/-- A command that does not read B depends on it in nothing but the bytes of B it leaves. -/
theorem exec_blind_bram (hi : readsBytes i = false) (s : State) : RamBlind State.withBram fun m => exec i (s.withBram m) := by
  cases i with
  | loadmode k =>
    simp only [exec, execLoadMode]
    split
    · exact .next ((s.loadPreset _).complete _ _ _ _)
    · exact .next (s.fail _)
  | genTone | encodeBit =>
    simp only [exec, execGenTone, execEncodeBit, State.sampleRangeOk_withBram]
    exact .require (.require (.next ((s.writeSamples _ _).complete _ _ _ _)))
  | duration =>
    simp only [exec, execDuration]
    exact .require (.require (c := s.ops.byteLen.toNat ≤ 65535) (.next (s.complete _ _ _ _)))
  | goertzel | decodeBit =>
    simp only [exec, execGoertzel, execDecodeBit, State.sampleRangeOk_withBram, State.samples_withBram, State.afterSamples_withBram]
    exact .require (.require (.next ((s.afterSamples _ _).complete _ _ _ _)))
  | findPreamble =>
    simp only [exec, execFindPreamble, State.sampleRangeOk_withBram, State.samples_withBram, State.afterSamples_withBram]
    refine .require (.require ?_)
    split
    · exact .next ((s.afterSamples _ _).fail _)
    · exact .next ((s.afterSamples _ _).complete _ _ _ _)
  | decodeFrame =>
    simp only [exec, execDecodeFrame, State.sampleRangeOk_withBram, State.samples_withBram, State.afterSamples_withBram]
    refine .require (.require ?_)
    split
    · exact .next ((s.afterSamples _ _).fail _)
    · exact decodeBody_blind_bram (s.afterSamples _ _) _ _
  | _ => cases hi

/-- Settles O49: `KeepsRams` is the first clause, and a command blind to a RAM is run from the two contents of it. -/
theorem ramsEachCommandReadsAndWrites : Obligations.RamsEachCommandReadsAndWrites := by
  refine ⟨fun i s t ht => ?_, fun i s m hi => ?_, fun i s m hi => ?_⟩
  · obtain ⟨t', ht', hkeeps⟩ := exec_keepsRams i s
    cases ht.symm.trans ht'
    exact hkeeps
  · obtain ⟨t, w, hw, hrun⟩ := exec_blind_sram hi s
    exact ⟨t.withSram (w s.sram), t.withSram (w m), hrun s.sram, hrun m, rfl, rfl, rfl, rfl, hw.cell s.sram m⟩
  · obtain ⟨t, w, hw, hrun⟩ := exec_blind_bram hi s
    exact ⟨t.withBram (w s.bram), t.withBram (w m), hrun s.bram, hrun m, rfl, rfl, rfl, rfl, hw.cell s.bram m⟩

end Sys2Proof.Machine
end

section
/-! The command word (30_encoding.md R91 to R96): its three fields, what decodes, and the words the decoder refuses. -/

namespace Sys2Proof

variable {w : Word} {i j : Instr} {imm : BitVec 2}

theorem opField_toNat (w : Word) : (opField w).toNat = w.toNat % 256 := by
  simp [opField]

theorem immField_toNat (w : Word) : (immField w).toNat = w.toNat / 256 % 4 := by
  simp [immField, Nat.shiftRight_eq_div_pow]

theorem rsvField_toNat (w : Word) : (rsvField w).toNat = w.toNat / 1024 := by
  have hlt := w.isLt
  rw [rsvField, BitVec.extractLsb'_toNat, Nat.shiftRight_eq_div_pow]
  exact Nat.mod_eq_of_lt (by omega)

/-- A word is put together from its fields (R91). -/
theorem append_fields (w : Word) : rsvField w ++ immField w ++ opField w = w := by
  rw [rsvField, immField, opField, BitVec.extractLsb'_append_extractLsb'_eq_extractLsb' (by rfl),
    BitVec.extractLsb'_append_extractLsb'_eq_extractLsb' (by rfl), BitVec.extractLsb'_eq_self]

/-- IMM2 bit by bit (R91). -/
theorem immField_eq_bits (w : Word) : immField w = BitVec.ofBool (w.getLsbD 9) ++ BitVec.ofBool (w.getLsbD 8) := by
  apply BitVec.eq_of_getLsbD_eq
  intro k hk
  rw [immField, BitVec.getLsbD_append, BitVec.getLsbD_extractLsb']
  interval_cases k
  · simp
  · simp

theorem plainCommand_ok_iff : plainCommand imm i = .ok j ↔ imm = 0 ∧ i = j := by
  unfold plainCommand
  split_ifs with h <;> simp [h]

theorem plainCommand_error_iff : (∃ e, plainCommand imm i = .error e) ↔ imm ≠ 0 := by
  unfold plainCommand
  split_ifs with h <;> simp [h]

/-- The word of a well-formed command decodes to it (R91, R92, R94): the commands are finitely many. -/
theorem decode_encode (i : Instr) (h : WellFormed i = true) : decode (encode i) = .ok i := by
  cases i with
  | loadmode mode => revert mode; decide
  | encodeBit bit => revert bit; decide
  | _ => rfl

/-- A legal word has the fields of its command, which is well formed (R94). -/
theorem fields_of_decode (h : decode w = .ok i) :
    rsvField w = 0 ∧ immField w = immediate i ∧ opField w = opcode i ∧ WellFormed i = true := by
  unfold decode at h
  split at h
  · cases h
  · rename_i hrsv
    split at h
    case h_1 hcode =>
      split at h
      · cases h
      · rename_i hmode
        cases h
        exact ⟨not_not.1 hrsv, rfl, BitVec.eq_of_toNat_eq hcode, bne_iff_ne.2 hmode⟩
    case h_3 hcode =>
      split at h
      · cases h
      · rename_i hbit
        cases h
        refine ⟨not_not.1 hrsv, ?_, BitVec.eq_of_toNat_eq hcode, rfl⟩
        rw [immField_eq_bits, Bool.eq_false_iff.2 hbit]
        cases w.getLsbD 8 <;> rfl
    case h_12 => cases h
    all_goals
      rename_i hcode
      obtain ⟨himm, rfl⟩ := plainCommand_ok_iff.1 h
      exact ⟨not_not.1 hrsv, himm, BitVec.eq_of_toNat_eq hcode, rfl⟩

theorem encode_of_decode (h : decode w = .ok i) : encode i = w := by
  obtain ⟨hrsv, himm, hop, -⟩ := fields_of_decode h
  calc encode i = rsvField w ++ immField w ++ opField w := by rw [encode, hrsv, himm, hop]; rfl
    _ = w := append_fields w

/-- Settles O2: the finitely many commands one by one, and a legal word from its fields. -/
theorem decodeAndEncodeAreInverse : Obligations.DecodeAndEncodeAreInverse := by
  refine ⟨decode_encode, fun w i h => ?_⟩
  obtain ⟨-, -, -, hwf⟩ := fields_of_decode h
  exact ⟨encode_of_decode h, hwf⟩

/-- Settles O1: each word is that of its command. -/
theorem specWordsDecode : Obligations.SpecWordsDecode :=
  ⟨decode_encode (.loadmode 0) rfl, decode_encode (.loadmode 1) rfl, decode_encode (.loadmode 2) rfl, decode_encode .genTone rfl,
    decode_encode (.encodeBit false) rfl, decode_encode (.encodeBit true) rfl, decode_encode .crc16 rfl, decode_encode .crcCheck rfl,
    decode_encode .encodeFrame rfl, decode_encode .duration rfl, decode_encode .goertzel rfl, decode_encode .decodeBit rfl,
    decode_encode .findPreamble rfl, decode_encode .decodeFrame rfl⟩

/-- The decoder refuses a word just where its fields are on R96's list. -/
theorem decode_error_iff (w : Word) :
    (∃ e, decode w = .error e) ↔
      (opField w).toNat = 0 ∨ 0x0C ≤ (opField w).toNat ∨ rsvField w ≠ 0 ∨
        ((opField w).toNat = 0x01 ∧ immField w = 3) ∨ ((opField w).toNat = 0x03 ∧ w.getLsbD 9 = true) ∨
        ((opField w).toNat ≠ 0x01 ∧ (opField w).toNat ≠ 0x03 ∧ immField w ≠ 0) := by
  unfold decode
  by_cases hrsv : rsvField w = 0#22
  · rw [if_neg (not_not.2 hrsv)]
    split
    case h_1 hcode =>
      rw [hcode]
      split_ifs with hmode <;> simp [hrsv, hmode]
    case h_3 hcode =>
      rw [hcode]
      cases hbit : w.getLsbD 9 <;> simp [hrsv]
    case h_12 =>
      simp only [imp_false] at *
      have hcode : (opField w).toNat = 0 ∨ 0x0C ≤ (opField w).toNat := by omega
      exact iff_of_true ⟨_, rfl⟩ (hcode.imp_right .inl)
    all_goals
      rename_i hcode
      rw [plainCommand_error_iff, hcode]
      simp [hrsv]
  · rw [if_pos hrsv]
    exact iff_of_true ⟨_, rfl⟩ (.inr (.inr (.inl hrsv)))

/-- Settles O3: `decode_error_iff`, the fields as quotients and remainders of the word. -/
theorem illegalWordsAreTheListedOnes : Obligations.IllegalWordsAreTheListedOnes := by
  intro w
  have hbit : w.getLsbD 9 = true ↔ w.toNat / 512 % 2 = 1 := by
    rw [BitVec.getLsbD, Nat.testBit_eq_decide_div_mod_eq, decide_eq_true_iff]
  rw [decode_error_iff]
  simp only [ne_eq, ← BitVec.toNat_inj, opField_toNat, immField_toNat, rsvField_toNat, hbit]
  rfl

end Sys2Proof
end

section
/-! The block's turn on a word that decodes to no command (30_encoding.md R96). -/

namespace Sys2Proof.Machine

variable {s : State}

/-- While BUSY = 1 the block moves wherever the schedule does not name the host (R112). -/
theorem State.turn_block (hbusy : s.status.busy = true) (hturn : s.sched.head? ≠ some .host) : s.turn = .block := by
  rw [State.turn, if_pos hbusy]
  rcases hsched : s.sched with _ | ⟨_ | _, rest⟩
  · rfl
  · exact absurd (by rw [hsched]; rfl) hturn
  · rfl

/-- A step on the block's turn performs the word in flight, from the state with that turn used up. -/
theorem step_block (hbusy : s.status.busy = true) (hturn : s.sched.head? ≠ some .host) :
    step s = blockTurn { s with sched := s.sched.tail } := by
  rw [step, State.turn_block hbusy hturn, s.takeTurn_eq, if_pos hbusy]

theorem blockTurn_illegal (h : ∃ e, decode s.cmd = .error e) : blockTurn s = .next (s.fail .illegalCmd) := by
  obtain ⟨e, he⟩ := h
  rw [blockTurn, he, completeIllegal]

theorem State.busWrite_cmd (hbusy : s.status.busy = false) (w : Word) : s.busWrite 4 0x040 w = s.accept w :=
  State.busWrite_idle hbusy .cmd w

/-- Settles O4: the write is an acceptance, and the block's turn the failure completion. -/
theorem illegalWordIsAcceptedAndFails : Obligations.IllegalWordIsAcceptedAndFails := by
  intro s w sched hbusy hillegal hturn
  rw [State.busWrite_cmd hbusy]
  have hreport := State.fail_report { s.accept w with sched := sched.tail } (c := .illegalCmd) nofun
  refine ⟨rfl, rfl, _, ?_, hreport⟩
  rw [step_block rfl hturn]
  exact blockTurn_illegal hillegal

end Sys2Proof.Machine
end

section
/-! The operands a command reads (30_encoding.md R93, 10_state.md R35). -/

namespace Sys2Proof.Machine

variable {s : State} {o : OperandRegs}

/-- The state with another operand file. -/
abbrev State.withOps (s : State) (o : OperandRegs) : State := { s with ops := o }

theorem State.sampleRangeOk_withOps (a n : Nat) : (s.withOps o).sampleRangeOk a n = s.sampleRangeOk a n := rfl
theorem State.byteRangeOk_withOps (a n : Nat) : (s.withOps o).byteRangeOk a n = s.byteRangeOk a n := rfl
theorem State.samples_withOps (a n : Nat) : (s.withOps o).samples a n = s.samples a n := rfl
theorem State.bytes_withOps (a n : Nat) : (s.withOps o).bytes a n = s.bytes a n := rfl

theorem State.afterRead_withOps (fs : List ModelFault) : (s.withOps o).afterRead fs = (s.afterRead fs).withOps o := by
  unfold State.afterRead
  split <;> rfl

theorem State.afterSamples_withOps (a n : Nat) : (s.withOps o).afterSamples a n = (s.afterSamples a n).withOps o :=
  State.afterRead_withOps _

theorem State.afterBytes_withOps (a n : Nat) : (s.withOps o).afterBytes a n = (s.afterBytes a n).withOps o :=
  State.afterRead_withOps _

/-- The second outcome is the first with the operand file `o`. -/
def SameButOps (o : OperandRegs) (r r' : Result) : Prop := ∃ t : State, r = .next t ∧ r' = .next (t.withOps o)

theorem SameButOps.next (t : State) : SameButOps o (.next t) (.next (t.withOps o)) := ⟨t, rfl, rfl⟩

/-- A check that does not depend on the operand file, or on operands that agree. -/
theorem SameButOps.require {c : Bool} {code : ErrCode} {rest rest' : Unit → Result} (h : SameButOps o (rest ()) (rest' ())) :
    SameButOps o (require c code s rest) (require c code (s.withOps o) rest') := by
  cases c
  · exact .next (s.fail code)
  · exact h

theorem decodeBody_withOps (h : s.ops.byteAddr = o.byteAddr) (xs : List F32) (st : Nat) :
    SameButOps o (decodeBody s xs st) (decodeBody (s.withOps o) xs st) := by
  simp only [decodeBody, State.byteRangeOk_withOps, h]
  split
  · exact .next (s.fail _)
  · exact .require (.next ((s.writeBytes _ _).complete _ _ _ _))

/-- A command run from two operand files that agree on its operands. -/
theorem exec_withOps {i : Instr} (h : sameOperands s.ops o i) : SameButOps o (exec i s) (exec i (s.withOps o)) := by
  cases i with
  | loadmode m =>
    simp only [exec, execLoadMode]
    split
    · exact .next ((s.loadPreset _).complete _ _ _ _)
    · exact .next (s.fail _)
  | genTone =>
    obtain ⟨harg, hdst, hcount⟩ := h
    simp only [exec, execGenTone, State.sampleRangeOk_withOps, harg, hdst, hcount]
    exact .require (.require (.next ((s.writeSamples _ _).complete _ _ _ _)))
  | encodeBit b =>
    have hdst : s.ops.dstAddr = o.dstAddr := h
    simp only [exec, execEncodeBit, State.sampleRangeOk_withOps, hdst]
    exact .require (.require (.next ((s.writeSamples _ _).complete _ _ _ _)))
  | crc16 =>
    obtain ⟨haddr, hlen⟩ := h
    simp only [exec, execCrc16, State.byteRangeOk_withOps, State.bytes_withOps, State.afterBytes_withOps, haddr, hlen]
    exact .require (.next ((s.afterBytes _ _).complete _ _ _ _))
  | crcCheck =>
    obtain ⟨haddr, hlen, harg⟩ := h
    simp only [exec, execCrcCheck, State.byteRangeOk_withOps, State.bytes_withOps, State.afterBytes_withOps, haddr, hlen, harg]
    exact .require (.require (.next ((s.afterBytes _ _).complete _ _ _ _)))
  | encodeFrame =>
    obtain ⟨hdst, haddr, hlen⟩ := h
    simp only [exec, execEncodeFrame, State.byteRangeOk_withOps, State.sampleRangeOk_withOps, State.bytes_withOps,
      State.afterBytes_withOps, hdst, haddr, hlen]
    exact .require (.require (.require (.require (.next (((s.afterBytes _ _).writeSamples _ _).complete _ _ _ _)))))
  | duration =>
    have hlen : s.ops.byteLen = o.byteLen := h
    simp only [exec, execDuration, hlen]
    exact .require (.require (.next (s.complete _ _ _ _)))
  | goertzel =>
    obtain ⟨harg, hsrc, hlen⟩ := h
    simp only [exec, execGoertzel, State.sampleRangeOk_withOps, State.samples_withOps, State.afterSamples_withOps, harg, hsrc, hlen]
    exact .require (.require (.next ((s.afterSamples _ _).complete _ _ _ _)))
  | decodeBit =>
    obtain ⟨hsrc, hlen⟩ := h
    simp only [exec, execDecodeBit, State.sampleRangeOk_withOps, State.samples_withOps, State.afterSamples_withOps, hsrc, hlen]
    exact .require (.require (.next ((s.afterSamples _ _).complete _ _ _ _)))
  | findPreamble =>
    obtain ⟨hsrc, hlen⟩ := h
    simp only [exec, execFindPreamble, State.sampleRangeOk_withOps, State.samples_withOps, State.afterSamples_withOps, hsrc, hlen]
    refine .require (.require ?_)
    split
    · exact .next ((s.afterSamples _ _).fail _)
    · exact .next ((s.afterSamples _ _).complete _ _ _ _)
  | decodeFrame =>
    obtain ⟨hsrc, hlen, haddr⟩ := h
    simp only [exec, execDecodeFrame, State.sampleRangeOk_withOps, State.samples_withOps, State.afterSamples_withOps, hsrc, hlen]
    refine .require (.require ?_)
    split
    · exact .next ((s.afterSamples _ _).fail _)
    · exact decodeBody_withOps (by simpa using haddr) _ _

/-- Settles O50: command by command. -/
theorem commandsReadOnlyTheirOperands : Obligations.CommandsReadOnlyTheirOperands := fun _ _ _ h => exec_withOps h

end Sys2Proof.Machine
end

section
/-! The lines of a host program (30_encoding.md R100, R102) and bus addresses (20_memory.md R60). -/

namespace Sys2Proof.Machine

variable {s : State}

theorem hostTurn_halted (h : s.host.halted = true) : hostTurn s = .next s := if_pos h

theorem hostTurn_end (h : s.host.halted = false) (hline : s.host.program[s.host.pos]? = none) : hostTurn s = .next s := by
  rw [hostTurn, hline, h]
  rfl

theorem hostTurn_line {l : HostStep} (h : s.host.halted = false) (hline : s.host.program[s.host.pos]? = some l) :
    hostTurn s = runHostStep s l := by
  rw [hostTurn, hline, h]
  rfl

theorem runHostStep_bnz_some {x : Nat} {v : Word} (h : cellGet? s.host.vars x = some v) (mask : Word) (line : Nat) :
    runHostStep s (.bnz x mask line) = .next (s.goto (if v &&& mask = 0 then s.host.pos + 1 else line)) := by
  rw [runHostStep, h]
  rfl

theorem runHostStep_bnz_none {x : Nat} (h : cellGet? s.host.vars x = none) (mask : Word) (line : Nat) :
    runHostStep s (.bnz x mask line) = .fault (.hostNoValue x) := by
  rw [runHostStep, h]

/-- A bus address that is no offset from BASE stands for none (R60). -/
theorem offsetAt_eq_none {p : Params} {address : Nat} (h : ∀ off : Word, address ≠ p.base + off.toNat) :
    offsetAt p address = none := by
  refine if_neg fun ⟨hlo, hhi⟩ => h (BitVec.ofNat 32 (address - p.base)) ?_
  rw [BitVec.toNat_ofNat, Nat.mod_eq_of_lt (by omega)]
  omega

/-- A host read leaves the host's own state alone. -/
theorem State.hostRead_host (s : State) (width address : Nat) : (s.hostRead width address).1.host = s.host := by
  unfold State.hostRead
  split
  · obtain ⟨fs, n, b, -, hread⟩ := busRead_frame s width _
    rw [hread]
    rfl
  · rfl

/-- After a read into a variable it holds the value read, or none where the read had none (log 6). -/
theorem State.setVar_get_same (s : State) (x : Nat) (v : Option Word) : cellGet? (s.setVar x v).host.vars x = v := by
  cases v with
  | none => exact (cellGet?_erase _ _ _ _).trans (if_pos (by omega))
  | some v => exact cellGet?_put_at s.host.vars x [v] 0 Nat.zero_lt_one

/-- A read into a variable leaves every other variable. -/
theorem State.setVar_get_other (s : State) {x y : Nat} (h : y ≠ x) (v : Option Word) :
    cellGet? (s.setVar x v).host.vars y = cellGet? s.host.vars y := by
  cases v with
  | none => exact (cellGet?_erase _ _ _ _).trans (if_neg (by omega))
  | some v => exact cellGet?_put_outside _ _ _ _ (Nat.lt_or_gt_of_ne h)

/-- A read into a variable moves the host's variables alone. -/
theorem State.setVar_frame (s : State) (x : Nat) (v : Option Word) :
    ∃ vars, s.setVar x v = { s with host := { s.host with vars := vars } } := by
  cases v <;> exact ⟨_, rfl⟩

/-- RD makes its read, the variable takes the value read, and the host goes on with the next line. -/
theorem hostTurn_rd {width : Nat} {off : Word} {x : Nat} (hrun : s.host.halted = false)
    (hline : s.host.program[s.host.pos]? = some (.rd width off x)) :
    let r := s.hostRead width (busAddress s.params off)
    ∃ t, hostTurn s = .next t ∧ cellGet? t.host.vars x = r.2 ∧ (∀ y, y ≠ x → cellGet? t.host.vars y = cellGet? s.host.vars y) ∧
      t.host.pos = s.host.pos + 1 ∧ t.host.program = s.host.program ∧ t.host.halted = false ∧ t = { r.1 with host := t.host } := by
  intro r
  have hhost : r.1.host = s.host := s.hostRead_host _ _
  have hsame := r.1.setVar_get_same x r.2
  have hother {y : Nat} (hy : y ≠ x) := r.1.setVar_get_other hy r.2
  refine ⟨_, hostTurn_line hrun hline, hsame, fun y hy => (hother hy).trans (by rw [hhost]), rfl, ?_⟩
  obtain ⟨vars, hset⟩ := r.1.setVar_frame x r.2
  simp only [State.goto]
  rw [hset, hhost]
  exact ⟨rfl, hrun, rfl⟩

/-- Settles O59: a step on the host's turn is `hostTurn`, taken line by line; and an offset is the only one at its bus address. -/
theorem hostLinesDoWhatTheySay : Obligations.HostLinesDoWhatTheySay := by
  refine ⟨fun s hturn => ?_, fun s width off v => ⟨s.hostWrite_busAddress width off v, s.hostRead_busAddress width off⟩,
    fun s width address v h => ?_⟩
  · intro u
    rw [show step s = hostTurn u from step_host hturn]
    refine ⟨hostTurn_halted (s := u), fun hrun => ⟨hostTurn_end (s := u) hrun, fun width off v hline => ?_,
      fun width off x hline => ?_, fun x mask line v hline hx => ?_, fun x mask line hline hx => ?_, fun hline => ?_⟩⟩
    · exact hostTurn_line (s := u) hrun hline
    · exact hostTurn_rd (s := u) hrun hline
    · exact (hostTurn_line (s := u) hrun hline).trans (runHostStep_bnz_some (s := u) hx mask line)
    · exact (hostTurn_line (s := u) hrun hline).trans (runHostStep_bnz_none (s := u) hx mask line)
    · exact hostTurn_line (s := u) hrun hline
  · rw [State.hostWrite, State.hostRead, offsetAt_eq_none h]
    exact ⟨rfl, rfl⟩

end Sys2Proof.Machine
end

section
/-! The run of a host program and its end (30_encoding.md R102). -/

namespace Sys2Proof.Machine

variable {s t u : State}

/-- The step from s to t is the one at which the host executes HALT (R102). -/
def HaltStep (s t : State) : Prop :=
  s.host.halted = false ∧ s.host.program[s.host.pos]? = some .halt ∧ (s.status.busy = false ∨ s.sched.head? = some .host) ∧
    t = { s with host := { s.host with halted := true }, sched := if s.status.busy then s.sched.tail else s.sched }

theorem HaltStep.step_eq (h : HaltStep s t) : step s = .next t := by
  obtain ⟨hrun, hline, hturn, rfl⟩ := h
  rw [step_host hturn]
  exact hostTurn_line (s := { s with sched := if s.status.busy then s.sched.tail else s.sched }) hrun hline

theorem HaltStep.halted (h : HaltStep s t) : t.host.halted = true := by
  obtain ⟨-, -, -, rfl⟩ := h
  rfl

/-- A step halts the host just where it is the host's turn and HALT is its line. -/
theorem haltStep_iff (h : step s = .next t) : HaltStep s t ↔ s.host.halted = false ∧ t.host.halted = true := by
  refine ⟨fun hhalt => ⟨hhalt.1, hhalt.halted⟩, fun ⟨hrun, hhalted⟩ => ?_⟩
  by_cases hturn : s.status.busy = false ∨ s.sched.head? = some .host
  · rw [step_host hturn] at h
    obtain ⟨hline, ht⟩ := (hostTurn_halts h hrun).1 hhalted
    exact ⟨hrun, hline, hturn, ht⟩
  · obtain ⟨hbusy, hblock⟩ := not_or.1 hturn
    rw [step_block (Bool.eq_true_of_not_eq_false hbusy) hblock] at h
    obtain ⟨t', ht', hc⟩ := blockTurn_completion { s with sched := s.sched.tail }
    cases h.symm.trans ht'
    rw [hc.host_eq] at hhalted
    simp [hrun] at hhalted

theorem HaltStep.runToHalt_eq (h : HaltStep s t) (k : Nat) : runToHalt (k + 1) s = some t := by
  rw [runToHalt, h.step_eq]
  exact if_pos (by simp [h.1, h.halted])

theorem runToHalt_of_next (hstep : step s = .next u) (h : ¬ HaltStep s u) (k : Nat) : runToHalt (k + 1) s = runToHalt k u := by
  rw [runToHalt, hstep]
  exact if_neg (by simpa [haltStep_iff hstep] using h)

/-- A run of one step more ends at its first step, or goes on. -/
theorem runToHalt_succ (k : Nat) (s t : State) :
    runToHalt (k + 1) s = some t ↔ HaltStep s t ∨ ∃ u, step s = .next u ∧ ¬ HaltStep s u ∧ runToHalt k u = some t := by
  constructor
  · intro h
    cases hstep : step s with
    | next u =>
      by_cases hhalt : HaltStep s u
      · rw [hhalt.runToHalt_eq] at h
        cases h
        exact .inl hhalt
      · rw [runToHalt_of_next hstep hhalt] at h
        exact .inr ⟨u, rfl, hhalt, h⟩
    | fault r => simp [runToHalt, hstep] at h
    | refused r => simp [runToHalt, hstep] at h
  · rintro (hhalt | ⟨u, hstep, hgo, hrest⟩)
    · exact hhalt.runToHalt_eq k
    · rw [runToHalt_of_next hstep hgo, hrest]

/-- A host that has executed HALT stays so along a run. -/
theorem run_halted {j : Nat} : ∀ {s : State}, core.run j s = .next u → s.host.halted = true → u.host.halted = true := by
  induction j with
  | zero =>
    intro s hrun hs
    cases hrun
    exact hs
  | succ j ih =>
    intro s hrun hs
    obtain ⟨v, hstep, hrest⟩ := (core_run_succ core j s u).1 hrun
    exact ih hrest (step_halted hstep hs)

/-- The end of a run is the HALT step that some number of steps leads to. -/
theorem runToHalt_iff (k : Nat) (s t : State) :
    runToHalt k s = some t ↔ ∃ j u, j < k ∧ core.run j s = .next u ∧ HaltStep u t := by
  induction k generalizing s with
  | zero => simp [runToHalt]
  | succ k ih =>
    rw [runToHalt_succ]
    constructor
    · rintro (hhalt | ⟨v, hstep, -, hrest⟩)
      · exact ⟨0, s, k.succ_pos, rfl, hhalt⟩
      · obtain ⟨j, u, hj, hrun, hhalt⟩ := (ih v).1 hrest
        exact ⟨j + 1, u, Nat.succ_lt_succ hj, (core_run_succ core j s u).2 ⟨v, hstep, hrun⟩, hhalt⟩
    · rintro ⟨_ | j, u, hj, hrun, hhalt⟩
      · cases hrun
        exact .inl hhalt
      · obtain ⟨v, hstep, hrest⟩ := (core_run_succ core j s u).1 hrun
        refine .inr ⟨v, hstep, fun hv => ?_, (ih v).2 ⟨j, u, Nat.lt_of_succ_lt_succ hj, hrest, hhalt⟩⟩
        simpa [hhalt.1] using run_halted hrest hv.halted

theorem runToHalt_unique (k m : Nat) (ht : runToHalt k s = some t) (hu : runToHalt m s = some u) : t = u := by
  induction k generalizing s m with
  | zero => cases ht
  | succ k ih =>
    cases m with
    | zero => cases hu
    | succ m =>
      obtain hhalt | ⟨v, hv, hgo, hrest⟩ := (runToHalt_succ k s t).1 ht
      · obtain hhalt' | ⟨v', hv', hgo', -⟩ := (runToHalt_succ m s u).1 hu
        · exact Host.Outcome.next.inj (hhalt.step_eq.symm.trans hhalt'.step_eq)
        · cases hhalt.step_eq.symm.trans hv'
          exact absurd hhalt hgo'
      · obtain hhalt' | ⟨v', hv', -, hrest'⟩ := (runToHalt_succ m s u).1 hu
        · cases hv.symm.trans hhalt'.step_eq
          exact absurd hhalt' hgo
        · cases hv.symm.trans hv'
          exact ih m hrest hrest'

/-- Settles O60: the run's end is a `HaltStep`, and the first one. -/
theorem runEndsAtTheHaltStep : Obligations.RunEndsAtTheHaltStep :=
  ⟨runToHalt_iff, fun k m _ _ _ => runToHalt_unique k m⟩

end Sys2Proof.Machine
end

section
/-! Acceptance of a command and the writes of the time BUSY = 1 (40_control.md R111, R113; 10_state.md R39). -/

namespace Sys2Proof.Machine

variable {s : State} {off : Word}

/-- The registers that take no write (R39). -/
def readOnlyRegs : List HostReg := [.id, .spb, .mode] ++ resultRegs

theorem HostReg.eq_busOffset_of_mem {rs : List HostReg} (h : off.toNat ∈ rs.map HostReg.offset) : ∃ r ∈ rs, off = r.busOffset := by
  obtain ⟨r, hr, hoff⟩ := List.mem_map.1 h
  exact ⟨r, hr, BitVec.eq_of_toNat_eq (by rw [r.busOffset_toNat, hoff])⟩

theorem writeRegIdle_readOnly {r : HostReg} (hr : r ∈ readOnlyRegs) (s : State) (v : Word) : s.writeRegIdle v r = s := by
  simp only [readOnlyRegs, resultRegs, List.cons_append, List.nil_append, List.mem_cons, List.not_mem_nil, or_false] at hr
  obtain rfl | rfl | rfl | rfl | rfl | rfl | rfl | rfl := hr
  all_goals rfl

/-- While BUSY = 1 a write the block answers, to any place but CTRL and STATUS, is dropped (R39, R67, R113). -/
theorem State.busWrite_busy (hbusy : s.status.busy = true) (hmap : mappedAccess s.params 4 off)
    (hctrl : off ≠ HostReg.ctrl.busOffset) (hstatus : off ≠ HostReg.status.busOffset) (v : Word) : s.busWrite 4 off v = s.reject := by
  cases ht : busTarget s.params 4 off with
  | busError => exact absurd hmap ((busTarget_busError_iff _ _ _).1 ht)
  | reg r =>
    obtain ⟨-, rfl⟩ := (busTarget_reg_iff _ _ _ r).1 ht
    rw [s.busWrite_reg]
    exact State.writeReg_busy hbusy (fun h => hctrl (h ▸ rfl)) (fun h => hstatus (h ▸ rfl)) v
  | byteWord k =>
    rw [State.busWrite, ht]
    exact if_pos hbusy
  | sampleWord i =>
    rw [State.busWrite, ht]
    exact if_pos hbusy

/-- Settles O7: the write is a rejection, and while BUSY = 0 each offset of the list is that of a read-only register. -/
theorem writesWhileBusyAreDropped : Obligations.WritesWhileBusyAreDropped := by
  refine ⟨fun s off v hbusy hmap hctrl hstatus => State.busWrite_busy hbusy hmap hctrl hstatus v, fun s off v hbusy hoff => ?_⟩
  obtain ⟨r, hr, rfl⟩ : ∃ r ∈ readOnlyRegs, off = r.busOffset := HostReg.eq_busOffset_of_mem hoff
  rw [State.busWrite_idle hbusy, writeRegIdle_readOnly hr]

/-- Settles O6: the write is an acceptance, which clears DONE and so IRQ. -/
theorem acceptanceOfACommand : Obligations.AcceptanceOfACommand := by
  intro s w hbusy
  rw [State.busWrite_cmd hbusy]
  exact ⟨rfl, rfl⟩

end Sys2Proof.Machine
end

section
/-! How a command ends (40_control.md R112, R114; 60_exceptions.md R242, R243), and that one in flight ends after finitely many steps
(00_scope.md R6). -/

namespace Sys2Proof.Machine

variable {s t u : State} {k : Nat}

/-- The block's turn is `exec` of the word in flight where that decodes (R112). -/
theorem blockTurn_legal {i : Instr} (h : decode s.cmd = .ok i) : blockTurn s = exec i s := by
  rw [blockTurn, h]

/-- Settles O5: the block's turn on a word that decodes. -/
theorem stepPerformsDecodedCommand : Obligations.StepPerformsDecodedCommand := by
  intro s i hbusy hturn hdecode
  rw [step_block hbusy hturn]
  exact blockTurn_legal hdecode

/-- An effect leaves STATUS and CMD to the completion. -/
theorem Effect.status_cmd_eq (h : Effect s u) : u.status = s.status ∧ u.cmd = s.cmd := by
  cases h <;> exact ⟨rfl, rfl⟩

/-- A completion, success or failure, writes STATUS as `finish` says with the code it reports. -/
theorem Completion.status_eq (h : Completion s t) : t.status = s.status.finish t.status.errcode (opField s.cmd) := by
  cases h with
  | failed fs c hc => simp
  | done fs u r0 r1 r2 f hu =>
    obtain ⟨hstatus, hcmd⟩ := hu.status_cmd_eq
    simp [hstatus, hcmd]

theorem Completion.busy_eq_false (h : Completion s t) : t.status.busy = false := by
  rw [h.status_eq, Status.finish_busy]

/-- Only the outcome without an error has the code 0x00 (R240). -/
theorem ErrCode.code_eq_zero_iff (c : ErrCode) : c.code = 0#8 ↔ c = .none := by
  cases c <;> decide

/-- Settles O9: a completion leaves STATUS as `Status.finish` does. -/
theorem everyCommandCompletes : Obligations.EveryCommandCompletes := by
  intro i s
  obtain ⟨t, ht, hc⟩ := exec_completion i s
  refine ⟨t, ht, hc.busy_eq_false, ?_⟩
  rw [hc.status_eq]
  simp [ErrCode.code_eq_zero_iff]

theorem WriteEffect.sched_eq (h : WriteEffect s t) : t.sched = s.sched := by
  cases h with
  | reset => exact s.softReset_sched
  | _ => rfl

/-- No line of the host changes the schedule. -/
theorem HostEffect.sched_eq (h : HostEffect s t) : t.sched = s.sched := by
  cases h with
  | wrote u line hw => exact hw.sched_eq
  | read => simp
  | _ => rfl

theorem core_run_of_next {M : Host.Core} {s t : M.State} (h : M.step s = .next t) (k : Nat) : M.run (k + 1) s = M.run k t := by
  rw [Host.Core.run, h]

theorem core_run_of_fault {M : Host.Core} {s : M.State} {r : M.Fault} (h : M.step s = .fault r) (k : Nat) :
    M.run (k + 1) s = .fault r := by
  rw [Host.Core.run, h]

/-- After k steps no command is in flight, or the host's program stopped on a branch without a value (R6, log 6). -/
def EndsAfter (k : Nat) (s : State) : Prop :=
  (∃ t, core.run k s = .next t ∧ t.status.busy = false) ∨ ∃ v, core.run k s = .fault (.hostNoValue v)

theorem EndsAfter.zero (h : s.status.busy = false) : EndsAfter 0 s := .inl ⟨s, rfl, h⟩

theorem EndsAfter.succ (hstep : step s = .next t) (h : EndsAfter k t) : EndsAfter (k + 1) s := by
  have hrun : core.run (k + 1) s = core.run k t := core_run_of_next (M := core) hstep k
  unfold EndsAfter
  rw [hrun]
  exact h

theorem EndsAfter.of_fault {v : Nat} (hstep : step s = .fault (.hostNoValue v)) : EndsAfter 1 s :=
  .inr ⟨v, core_run_of_fault (M := core) hstep 0⟩

/-- On the block's turn the command in flight ends. -/
theorem endsAfter_one_of_block (hbusy : s.status.busy = true) (hturn : s.sched.head? ≠ some .host) : EndsAfter 1 s := by
  obtain ⟨t, ht, hc⟩ := blockTurn_completion { s with sched := s.sched.tail }
  exact .succ ((step_block hbusy hturn).trans ht) (.zero hc.busy_eq_false)

/-- Each turn of the host that the schedule names while BUSY = 1 is used up; when none is left the block moves. -/
theorem exists_endsAfter (hbusy : s.status.busy = true) : ∃ k, k ≤ s.sched.length + 1 ∧ EndsAfter k s := by
  induction hsched : s.sched generalizing s with
  | nil => exact ⟨1, Nat.le_add_left 1 _, endsAfter_one_of_block hbusy (by simp [hsched])⟩
  | cons a rest ih =>
    cases a with
    | block => exact ⟨1, Nat.le_add_left 1 _, endsAfter_one_of_block hbusy (by simp [hsched])⟩
    | host =>
      have hstep : step s = hostTurn { s with sched := rest } := by
        rw [step_host (.inr (by rw [hsched]; rfl)), if_pos hbusy, hsched, List.tail_cons]
      obtain ⟨t, ht⟩ | ⟨v, hv⟩ := hostTurn_total { s with sched := rest }
      · have hrest : t.sched = rest := (hostTurn_effect ht).sched_eq
        cases hidle : t.status.busy with
        | false => exact ⟨1, Nat.le_add_left 1 _, .succ (hstep.trans ht) (.zero hidle)⟩
        | true =>
          obtain ⟨k, hk, hends⟩ := ih hidle hrest
          exact ⟨k + 1, Nat.succ_le_succ hk, .succ (hstep.trans ht) hends⟩
      · exact ⟨1, Nat.le_add_left 1 _, .of_fault (hstep.trans hv)⟩

/-- Settles O10: by induction on the schedule. -/
theorem everyAcceptedCommandEnds : Obligations.EveryAcceptedCommandEnds := fun _ => exists_endsAfter

end Sys2Proof.Machine
end

section
/-! The configuration check (40_control.md R115): which volumes are valid, by their patterns, which commands fail on an invalid
configuration, and which do not see it (30_encoding.md R93). -/

namespace Sys2Proof.Machine

variable {s : State} {c : FskConfig}

/-- A greater magnitude pattern has more units: the next pattern has the next fraction, or fraction 0 and the next exponent. -/
theorem FpFormat.unitsOf_strictMono (f : FpFormat) : StrictMono f.unitsOf := by
  refine strictMono_nat_of_lt_succ fun n => ?_
  unfold FpFormat.unitsOf
  have hpos : 0 < 2 ^ (f.prec - 1) := Nat.two_pow_pos _
  generalize 2 ^ (f.prec - 1) = span at hpos ⊢
  have hfrac := Nat.mod_lt n hpos
  have hsplit := Nat.mod_add_div n span
  generalize n / span = e at hsplit ⊢
  generalize n % span = frac at hsplit hfrac ⊢
  obtain hnext | hcarry := Nat.lt_or_eq_of_le (Nat.succ_le_of_lt hfrac)
  · obtain ⟨hdiv, hmod⟩ := (Nat.div_mod_unique (a := n + 1) (d := e) (c := frac + 1) hpos).2 ⟨by omega, hnext⟩
    rw [hdiv, hmod]
    cases e with
    | zero => exact frac.lt_succ_self
    | succ e => exact Nat.mul_lt_mul_of_pos_right (by omega) (Nat.two_pow_pos e)
  · obtain ⟨hdiv, hmod⟩ := (Nat.div_mod_unique (a := n + 1) (d := e + 1) (c := 0) hpos).2 ⟨by rw [Nat.mul_succ]; omega, hpos⟩
    rw [hdiv, hmod]
    cases e with
    | zero => simpa using hfrac
    | succ e =>
      show (span + frac) * 2 ^ e < (span + 0) * 2 ^ (e + 1)
      rw [Nat.add_zero, Nat.pow_succ', ← Nat.mul_assoc]
      exact Nat.mul_lt_mul_of_pos_right (by omega) (Nat.two_pow_pos e)

/-- The finite patterns of a format. -/
theorem FpFormat.unpack_eq_fin_iff (f : FpFormat) (x : Nat) (neg : Bool) (u : Nat) :
    f.unpack x = .fin neg u ↔
      x % f.signBit < f.infMag ∧ decide (f.signBit ≤ x) = neg ∧ f.unitsOf (x % f.signBit) = u := by
  unfold FpFormat.unpack
  dsimp only
  obtain hlt | heq | hgt := Nat.lt_trichotomy (x % f.signBit) f.infMag
  · simp [hlt, hlt.ne, hlt.not_gt]
  · simp [heq]
  · simp [hgt, hgt.not_gt]

/-- The volume range in units: -0.0, or a value without a sign up to 1.0. -/
theorem volumeValid_iff_unpack (v : F32) :
    volumeValid v = true ↔ unpack32 v = .fin true 0 ∨ ∃ u, unpack32 v = .fin false u ∧ u ≤ binary32.unitsOf 0x3F800000 := by
  have hzero : unpack32 0x00000000 = .fin false 0 := by decide
  have hone : unpack32 0x3F800000 = .fin false (binary32.unitsOf 0x3F800000) := by decide
  rw [volumeValid, isNaN32, hzero, hone]
  cases unpack32 v with
  | nan => simp
  | inf neg => cases neg <;> simp [Fp.le]
  | fin neg u => cases neg <;> simp [Fp.le, fpInt]

theorem unpack32_neg_zero_iff (v : F32) : unpack32 v = .fin true 0 ↔ v = 0x80000000#32 := by
  constructor
  · intro h
    obtain ⟨-, hneg, hunits⟩ := (binary32.unpack_eq_fin_iff _ _ _).1 h
    have hmag : v.toNat % binary32.signBit = 0 := binary32.unitsOf_strictMono.injective hunits
    have hv := signed_mod_signBit32 v
    rw [hneg, hmag] at hv
    exact BitVec.eq_of_toNat_eq hv.symm
  · rintro rfl
    decide

/-- The patterns from +0.0 to 1.0 are those up to 0x3F800000, for the units grow with the pattern. -/
theorem unpack32_unit_range_iff (v : F32) :
    (∃ u, unpack32 v = .fin false u ∧ u ≤ binary32.unitsOf 0x3F800000) ↔ v.toNat ≤ 0x3F800000 := by
  have hsign : binary32.signBit = 0x80000000 := by decide
  have hinf : binary32.infMag = 0x7F800000 := by decide
  have hv := v.isLt
  simp only [unpack32, binary32.unpack_eq_fin_iff, hsign, hinf, decide_eq_false_iff_not]
  constructor
  · rintro ⟨u, ⟨-, hpos, rfl⟩, hle⟩
    rw [binary32.unitsOf_strictMono.le_iff_le] at hle
    omega
  · intro hle
    refine ⟨_, ⟨by omega, by omega, rfl⟩, binary32.unitsOf_strictMono.monotone (by omega)⟩

/-- A valid volume is a pattern up to that of 1.0, or -0.0 (R115). -/
theorem volumeValid_iff (v : F32) : volumeValid v = true ↔ v.toNat ≤ 0x3F800000 ∨ v = 0x80000000#32 := by
  rw [volumeValid_iff_unpack, unpack32_neg_zero_iff, unpack32_unit_range_iff, or_comm]

/-- VALID(cfg), clause by clause (R115). -/
theorem FskConfig.valid_iff (c : FskConfig) : c.valid = true ↔
    (1 ≤ c.sampleRate.toNat ∧ 1 ≤ c.bitRate.toNat ∧ c.markFreq ≠ c.spaceFreq ∧
      1 ≤ c.sampleRate.toNat / c.bitRate.toNat ∧ (c.volume.toNat ≤ 0x3F800000 ∨ c.volume = 0x80000000#32)) := by
  simp only [FskConfig.valid, Bool.and_eq_true, decide_eq_true_eq, bne_iff_ne, volumeValid_iff, and_assoc]
  refine and_congr_right fun _ => and_congr_right fun hrate => ?_
  rw [FskConfig.spb, if_pos hrate]

/-- A command that checks the configuration checks it before anything else. -/
theorem exec_cfgInvalid {i : Instr} (hi : checksConfig i = true) (h : s.cfg.valid = false) : exec i s = .next (s.fail .cfgInvalid) := by
  cases i with
  | loadmode | crc16 | crcCheck => cases hi
  | _ =>
    simp only [exec, execGenTone, execEncodeBit, execEncodeFrame, execDuration, execGoertzel, execDecodeBit, execFindPreamble,
      execDecodeFrame, h, require_false]

/-- The state with another configuration. -/
abbrev State.withCfg (s : State) (c : FskConfig) : State := { s with cfg := c }

theorem State.byteRangeOk_withCfg (a n : Nat) : (s.withCfg c).byteRangeOk a n = s.byteRangeOk a n := rfl
theorem State.bytes_withCfg (a n : Nat) : (s.withCfg c).bytes a n = s.bytes a n := rfl

theorem State.afterBytes_withCfg (a n : Nat) : (s.withCfg c).afterBytes a n = (s.afterBytes a n).withCfg c := by
  show (s.withCfg c).afterRead (s.unwrittenBytes a n) = _
  unfold State.afterBytes State.afterRead
  split <;> rfl

/-- CRC16 takes the same branch whatever the configuration, and leaves it (R151, 30_encoding.md R93). -/
theorem execCrc16_withCfg (s : State) (c : FskConfig) :
    ∃ t, execCrc16 s = .next t ∧ execCrc16 (s.withCfg c) = .next (t.withCfg c) := by
  simp only [execCrc16, State.byteRangeOk_withCfg, State.bytes_withCfg, State.afterBytes_withCfg]
  cases s.byteRangeOk s.ops.byteAddr.toNat s.ops.byteLen.toNat with
  | false => exact ⟨_, rfl, rfl⟩
  | true => exact ⟨_, rfl, rfl⟩

/-- So does CRC_CHECK (R152). -/
theorem execCrcCheck_withCfg (s : State) (c : FskConfig) :
    ∃ t, execCrcCheck s = .next t ∧ execCrcCheck (s.withCfg c) = .next (t.withCfg c) := by
  simp only [execCrcCheck, State.byteRangeOk_withCfg, State.bytes_withCfg, State.afterBytes_withCfg]
  cases s.byteRangeOk s.ops.byteAddr.toNat s.ops.byteLen.toNat with
  | false => exact ⟨_, rfl, rfl⟩
  | true =>
    cases crc (s.bytes s.ops.byteAddr.toNat s.ops.byteLen.toNat) == s.ops.arg.extractLsb' 0 16 with
    | false => exact ⟨_, rfl, rfl⟩
    | true => exact ⟨_, rfl, rfl⟩

/-- Settles O15: VALID by its clauses, the first check of a checked command, and the two CRC commands under another configuration. -/
theorem configurationIsCheckedFirst : Obligations.ConfigurationIsCheckedFirst := by
  refine ⟨FskConfig.valid_iff, fun i s hi hinvalid => ⟨_, exec_cfgInvalid hi hinvalid, s.fail_report nofun⟩, fun s c i hi => ?_⟩
  simp only [List.mem_cons, List.not_mem_nil, or_false] at hi
  obtain rfl | rfl := hi
  · exact execCrc16_withCfg s c
  · exact execCrcCheck_withCfg s c

end Sys2Proof.Machine
end

section
/-! LOADMODE (40_control.md R120, R121): the modes by their numbers, the presets, and the report of a success (R114). -/

namespace Sys2Proof.Machine

/-- A success reports its results, each 32 bits wide, and the binary64 value in two words (R114, R37). -/
theorem State.complete_reportsSuccess (s : State) (r0 r1 r2 : Nat) (f : F64) :
    s.reportsSuccess (s.complete r0 r1 r2 f) (BitVec.ofNat 32 r0) (BitVec.ofNat 32 r1) (BitVec.ofNat 32 r2) f :=
  ⟨rfl, rfl, rfl, rfl, (BitVec.extractLsb'_append_extractLsb'_eq_extractLsb' rfl).trans BitVec.extractLsb'_eq_self⟩

/-- Every number but 3 is that of a mode (R92). -/
theorem Mode.exists_number_eq {m : BitVec 2} (h : m ≠ 3) : ∃ p : Mode, p.number = m := by
  match m with
  | 0 => exact ⟨.audible, rfl⟩
  | 1 => exact ⟨.ultrasonic, rfl⟩
  | 2 => exact ⟨.minimal, rfl⟩
  | 3 => exact absurd rfl h

theorem Mode.ofNumber_number (p : Mode) : Mode.ofNumber p.number = some p := by cases p <;> rfl

/-- LOADMODE loads the preset of its mode and reports the number of the mode (R120). -/
theorem exec_loadmode (p : Mode) (s : State) :
    exec (.loadmode p.number) s = .next ((s.loadPreset p).complete p.number.toNat 0 0 zero64) := by
  rw [exec, execLoadMode, p.ofNumber_number]

/-- Every preset satisfies VALID (R121). -/
theorem Mode.config_valid (p : Mode) : p.config.valid = true := by
  rw [FskConfig.valid_iff]
  cases p <;> decide

/-- MODE reads the number of a preset just loaded (R26, R120). -/
theorem ModeReg.word_preset (p : Mode) : ModeReg.word ⟨p, false⟩ = p.number.setWidth 32 := by
  cases p <;> decide

theorem Mode.config_spb (p : Mode) : p.config.spb = if p.number = 1 then 80 else 480 := by
  cases p <;> decide

/-- Settles O17: the preset of each mode, and mode 3, which is none. -/
theorem loadModeLoadsThePreset : Obligations.LoadModeLoadsThePreset := by
  refine ⟨fun m s hm => ?_, fun s => ⟨_, rfl, s.fail_report nofun⟩⟩
  obtain ⟨p, rfl⟩ := Mode.exists_number_eq hm
  have hreport := (s.loadPreset p).complete_reportsSuccess p.number.toNat 0 0 zero64
  rw [BitVec.ofNat_toNat] at hreport
  refine ⟨_, exec_loadmode p s, hreport, rfl, ?_, ModeReg.word_preset p, ?_, p.config_valid⟩
  · cases p <;> rfl
  · show BitVec.ofNat 32 p.config.spb = _
    rw [p.config_spb]
    split <;> rfl

end Sys2Proof.Machine
end

section
/-! GEN_TONE and ENCODE_BIT (41_tone.md R132, R133): a command that writes samples and succeeds, and the samples of a tone. -/

namespace Sys2Proof.Machine

variable {s : State}

/-- A success after a write of samples changes the report and the written words, and nothing else. -/
theorem State.writeSamples_complete_frame (s : State) (d : Nat) (xs : List F32) (r0 r1 r2 : Nat) (f : F64) :
    s.onlyReportAndSamples ((s.writeSamples d xs).complete r0 r1 r2 f) d xs.length :=
  ⟨rfl, cellGet?_put_outside s.sram d xs⟩

/-- The end of a command that writes n samples of a tone from S[d] on and reports n and a second result. -/
def State.completeTone (s : State) (d sr f n r1 : Nat) : State := (s.writeSamples d (toneRun sr f n)).complete n r1 0 zero64

theorem State.completeTone_reportsSuccess (s : State) (d sr f n r1 : Nat) :
    s.reportsSuccess (s.completeTone d sr f n r1) (BitVec.ofNat 32 n) (BitVec.ofNat 32 r1) 0 0 :=
  (s.writeSamples d (toneRun sr f n)).complete_reportsSuccess n r1 0 zero64

theorem State.completeTone_get (s : State) (d sr f r1 : Nat) {n i : Nat} (hi : i < n) :
    cellGet? (s.completeTone d sr f n r1).sram (d + i) = some (tone sr f i) := by
  rw [State.completeTone, State.complete_sram, State.writeSamples_sram, cellGet?_put_at _ _ _ _ (by rwa [toneRun_length])]
  simp [toneRun]

theorem State.completeTone_frame (s : State) (d sr f n r1 : Nat) : s.onlyReportAndSamples (s.completeTone d sr f n r1) d n := by
  have h := s.writeSamples_complete_frame d (toneRun sr f n) n r1 0 zero64
  rwa [toneRun_length] at h

/-- GEN_TONE past its two checks (R132). -/
theorem exec_genTone (hvalid : s.cfg.valid = true) (hin : s.ops.dstAddr.toNat + s.ops.count.toNat ≤ s.params.sampleRamWords) :
    exec .genTone s =
      .next (s.completeTone s.ops.dstAddr.toNat s.cfg.sampleRate.toNat s.ops.arg.toNat s.ops.count.toNat 0) := by
  rw [exec, execGenTone, require_of hvalid, require_of ((s.sampleRangeOk_iff _ _).2 hin), State.completeTone]

/-- ENCODE_BIT past its two checks (R133). -/
theorem exec_encodeBit (b : Bool) (hvalid : s.cfg.valid = true) (hin : s.ops.dstAddr.toNat + s.cfg.spb ≤ s.params.sampleRamWords) :
    exec (.encodeBit b) s =
      .next (s.completeTone s.ops.dstAddr.toNat s.cfg.sampleRate.toNat (s.cfg.bitFreq b) s.cfg.spb b.toNat) := by
  rw [exec, execEncodeBit, require_of hvalid, require_of ((s.sampleRangeOk_iff _ _).2 hin), State.completeTone]

/-- Settles O18: both checks pass, and the tone is written and reported. -/
theorem genToneWritesTheTone : Obligations.GenToneWritesTheTone := by
  intro s hvalid hin
  refine ⟨_, exec_genTone hvalid hin, ?_, fun i hi => s.completeTone_get _ _ _ _ hi, s.completeTone_frame _ _ _ _ _⟩
  simpa using s.completeTone_reportsSuccess _ _ _ s.ops.count.toNat 0

/-- Settles O19: as GEN_TONE, with the tone of the bit and one window of samples. -/
theorem encodeBitWritesItsWindow : Obligations.EncodeBitWritesItsWindow := by
  intro b s hvalid hin
  have hbit : BitVec.ofNat 32 b.toNat = if b then 1 else 0 := by cases b <;> rfl
  refine ⟨_, exec_encodeBit b hvalid hin, ?_, fun i hi => s.completeTone_get _ _ _ _ hi, s.completeTone_frame _ _ _ _ _⟩
  exact hbit ▸ s.completeTone_reportsSuccess _ _ _ _ _

end Sys2Proof.Machine
end

section
/-! The phase of a tone at its ends (41_tone.md R130, R132): products and quotients of +0.0, and a product too small to overflow. -/

namespace Sys2Proof.Machine

/-- A quotient of units rounds up by at most one. -/
theorem roundHalfEven_le (a b : Nat) : roundHalfEven a b ≤ a / b + 1 := by
  obtain ⟨h, -⟩ | ⟨h, -⟩ := roundHalfEven_cases a b
  · exact h.le
  · rw [h]
    exact Nat.le_succ _

/-- Zero rounds to the pattern of zero. -/
theorem FpFormat.roundMag_zero (f : FpFormat) (hp : 1 ≤ f.prec) {d : Nat} (hd : 0 < d) : f.roundMag 0 d = 0 := by
  have hunits : f.unitsOf 0 = 0 := by simp [FpFormat.unitsOf]
  have hexact := f.roundMag_unitsOf hp (Nat.zero_le f.infMag)
  rw [hunits] at hexact
  have hscale := f.roundMag_mul 0 hd
  rwa [Nat.zero_mul, hexact] at hscale

/-- A quotient of fewer bits than the exponents reach rounds to a finite magnitude: with its low bits dropped it has `prec` bits, and
one is the most that rounding adds. -/
theorem FpFormat.roundMag_lt_infMag (f : FpFormat) (hp : 1 ≤ f.prec) {num den k : Nat} (hk : num / den < 2 ^ k)
    (hexp : k - f.prec + 2 < 2 ^ f.expw - 1) : f.roundMag num den < f.infMag := by
  unfold FpFormat.roundMag
  dsimp only
  generalize hdrop : (num / den).log2 + 1 - f.prec = drop
  have hdropk : drop ≤ k - f.prec := by
    obtain h0 | hpos := Nat.eq_zero_or_pos (num / den)
    · rw [h0] at hdrop
      simp at hdrop
      omega
    · have := (Nat.log2_lt hpos.ne').2 hk
      omega
  have hkept : num / (den * 2 ^ drop) < 2 ^ f.prec := by
    rw [← Nat.div_div_eq_div_mul, Nat.div_lt_iff_lt_mul (Nat.two_pow_pos _), ← Nat.pow_add]
    exact Nat.lt_log2_self.trans_le (Nat.pow_le_pow_right (by omega) (by omega))
  have hround := roundHalfEven_le num (den * 2 ^ drop)
  have hprec : 2 ^ f.prec = 2 * 2 ^ (f.prec - 1) := by
    rw [← Nat.pow_succ', Nat.succ_eq_add_one, Nat.sub_add_cancel hp]
  refine Nat.lt_of_le_of_lt (Nat.min_le_left _ _) ?_
  calc drop * 2 ^ (f.prec - 1) + roundHalfEven num (den * 2 ^ drop)
      ≤ drop * 2 ^ (f.prec - 1) + 2 * 2 ^ (f.prec - 1) := by omega
    _ = (drop + 2) * 2 ^ (f.prec - 1) := (Nat.add_mul _ _ _).symm
    _ < f.infMag := Nat.mul_lt_mul_of_pos_right (by omega) (Nat.two_pow_pos _)

/-- A rounded quotient that does not overflow is finite, with its sign. -/
theorem unpack64_round_fin (neg : Bool) {num den : Nat} (h : binary64.roundMag num den < binary64.infMag) :
    unpack64 (BitVec.ofNat 64 (binary64.round neg num den)) = .fin neg (binary64.unitsOf (binary64.roundMag num den)) := by
  rw [unpack64, FpFormat.round, toNat_ofNat_signed64 h.le, binary64.unpack_signed (by decide) neg h.le, if_neg h.ne]

theorem mul64_fin {x y : F64} {a b : Bool} {u v : Nat} (hx : unpack64 x = .fin a u) (hy : unpack64 y = .fin b v) :
    mul64 x y = BitVec.ofNat 64 (binary64.round (a != b) (u * v) (2 ^ 1074)) := by
  rw [mul64, hx, hy, FpFormat.mul, binary64_unitExp]

theorem div64_fin {x y : F64} {a b : Bool} {u v : Nat} (hx : unpack64 x = .fin a u) (hy : unpack64 y = .fin b v) (hv : v ≠ 0) :
    div64 x y = BitVec.ofNat 64 (binary64.round (a != b) (u * 2 ^ 1074) v) := by
  simp only [div64, hx, hy, FpFormat.div, if_neg hv, binary64_unitExp]

theorem unpack64_zero : unpack64 0 = .fin false 0 := by decide

theorem natTo64_zero : natTo64 0 = 0 := by
  rw [natTo64, Nat.zero_mul, binary64.roundMag_zero (by decide) Nat.one_pos]
  rfl

/-- TWO_PI64 in units: its 53 significant bits, shifted (R11). -/
theorem unpack64_twoPi64 : unpack64 twoPi64 = .fin false (0x1921FB54442D18 * 2 ^ 1024) := by decide +kernel

/-- A product of values without a sign, one of them zero, is +0.0. -/
theorem mul64_eq_zero {x y : F64} {u v : Nat} (hx : unpack64 x = .fin false u) (hy : unpack64 y = .fin false v) (h : u = 0 ∨ v = 0) :
    mul64 x y = 0 := by
  rw [mul64_fin hx hy, Nat.mul_eq_zero.2 h, FpFormat.round, binary64.roundMag_zero (by decide) (Nat.two_pow_pos _)]
  rfl

/-- +0.0 divided by a positive value is +0.0. -/
theorem div64_zero_left {y : F64} {v : Nat} (hy : unpack64 y = .fin false v) (hv : 0 < v) : div64 0 y = 0 := by
  rw [div64_fin unpack64_zero hy hv.ne', Nat.zero_mul, FpFormat.round, binary64.roundMag_zero (by decide) hv]
  rfl

theorem mul_two_pow_lt {m a : Nat} (h : m < 2 ^ a) (k : Nat) : m * 2 ^ k < 2 ^ (a + k) := by
  rw [Nat.pow_add]
  exact Nat.mul_lt_mul_of_pos_right h (Nat.two_pow_pos k)

/-- A product of two finite values is finite where their bits together do not reach the greatest exponent. -/
theorem exists_unpack64_mul {x y : F64} {a b : Bool} {u v j k : Nat} (hx : unpack64 x = .fin a u) (hy : unpack64 y = .fin b v)
    (hu : u < 2 ^ j) (hv : v < 2 ^ k) (hjk : j + k < 1074 + 2098) : ∃ w, unpack64 (mul64 x y) = .fin (a != b) w := by
  have hquot : u * v / 2 ^ 1074 < 2 ^ (j + k - 1074) := by
    rw [Nat.div_lt_iff_lt_mul (pow_pos two_pos _), ← Nat.pow_add]
    calc u * v < 2 ^ j * 2 ^ k := Nat.mul_lt_mul'' hu hv
      _ = 2 ^ (j + k) := (Nat.pow_add _ _ _).symm
      _ ≤ 2 ^ (j + k - 1074 + 1074) := Nat.pow_le_pow_right (by omega) (by omega)
  have hexp : j + k - 1074 - binary64.prec + 2 < 2 ^ binary64.expw - 1 := by
    show j + k - 1074 - 53 + 2 < 2047
    omega
  rw [mul64_fin hx hy]
  exact ⟨_, unpack64_round_fin _ (binary64.roundMag_lt_infMag (by decide) hquot hexp)⟩

/-- 2π·f is finite for every 32-bit frequency. -/
theorem exists_unpack64_twoPi_mul {f : Nat} (hf : f < 2 ^ 32) : ∃ u, unpack64 (mul64 twoPi64 (natTo64 f)) = .fin false u :=
  exists_unpack64_mul unpack64_twoPi64 (unpack64_natTo64 (by omega)) (mul_two_pow_lt (a := 53) (by decide) 1024)
    (mul_two_pow_lt hf 1074) (by decide)

/-- At sample 0, and at every sample of the tone of 0 hertz, the phase is +0.0 (R132). -/
theorem tonePhase_eq_zero {sr f i : Nat} (hsr : 0 < sr) (hsr' : sr < 2 ^ 53) (hf : f < 2 ^ 32) (hi : i < 2 ^ 53) (h : f = 0 ∨ i = 0) :
    tonePhase sr f i = 0 := by
  have hturns : mul64 (mul64 twoPi64 (natTo64 f)) (natTo64 i) = 0 := by
    obtain rfl | rfl := h
    · rw [natTo64_zero, mul64_eq_zero unpack64_twoPi64 unpack64_zero (.inr rfl)]
      exact mul64_eq_zero unpack64_zero (unpack64_natTo64 hi) (.inl rfl)
    · obtain ⟨u, hu⟩ := exists_unpack64_twoPi_mul hf
      rw [natTo64_zero]
      exact mul64_eq_zero hu unpack64_zero (.inr rfl)
  rw [tonePhase, hturns]
  exact div64_zero_left (unpack64_natTo64 hsr') (Nat.mul_pos hsr (pow_pos two_pos _))

/-- Settles O36: the formula is the definition of TONE, and the phase is +0.0 by `tonePhase_eq_zero`. -/
theorem toneFollowsTheFormula : Obligations.ToneFollowsTheFormula := by
  refine ⟨fun sr f i => rfl, fun sr f i hsr hsr' hf hi h => ?_⟩
  have hphase : tonePhase sr f i = 0 := tonePhase_eq_zero hsr (by omega) hf (by omega) h
  exact ⟨hphase, by rw [tone, hphase]⟩

end Sys2Proof.Machine
end

section
/-! SCALE (41_tone.md R131) by 1.0, by +0.0 and of a NaN: the product `*32` by the class of its operands. -/

namespace Sys2Proof.Machine

variable {x y : F32} {a b : Bool} {u v : Nat}

theorem mul32_nan_left (nan y : F32) (hx : unpack32 x = .nan) : mul32 nan x y = nan := by
  rw [mul32, hx]

theorem mul32_inf_fin (nan : F32) (hx : unpack32 x = .inf a) (hy : unpack32 y = .fin b v) (hv : v ≠ 0) :
    mul32 nan x y = BitVec.ofNat 32 (binary32.signed (a != b) binary32.infMag) := by
  simp only [mul32, hx, hy, FpFormat.mul, if_neg hv]

theorem mul32_fin (nan : F32) (hx : unpack32 x = .fin a u) (hy : unpack32 y = .fin b v) :
    mul32 nan x y = BitVec.ofNat 32 (binary32.round (a != b) (u * v) (2 ^ 149)) := by
  simp only [mul32, hx, hy, FpFormat.mul, binary32_unitExp]

theorem isNaN32_iff (x : F32) : isNaN32 x = true ↔ unpack32 x = .nan := beq_iff_eq

/-- A magnitude above that of infinity is a NaN. -/
theorem isNaN32_of_lt (h : 0x7F800000 < x.toNat % 2 ^ 31) : isNaN32 x = true := by
  rw [isNaN32_iff, unpack32, FpFormat.unpack]
  exact if_pos h

/-- A magnitude below that of infinity is finite, with the sign of the pattern. -/
theorem exists_unpack32_fin (h : x.toNat % 2 ^ 31 < 0x7F800000) : ∃ u, unpack32 x = .fin x.msb u := by
  refine ⟨_, (binary32.unpack_eq_fin_iff _ _ _).2 ⟨h, ?_, rfl⟩⟩
  rw [BitVec.msb_eq_decide]
  rfl

theorem unpack32_one : unpack32 0x3F800000 = .fin false (2 ^ 149) := by decide

theorem unpack32_zero : unpack32 0 = .fin false 0 := by decide

/-- The zero with the sign of a pattern is that pattern with all other bits cleared. -/
theorem signed_zero_eq_and (x : F32) : BitVec.ofNat 32 (binary32.signed x.msb 0) = x &&& 0x80000000#32 := by
  rw [show 0x80000000#32 = BitVec.twoPow 32 31 from rfl, BitVec.and_twoPow, show x.getLsbD 31 = x.msb from rfl]
  cases x.msb <;> rfl

/-- SCALE by 1.0 keeps what is no NaN: an infinity by its class, a finite value because its units are rounded exactly. -/
theorem scale_one (h : isNaN32 x = false) : scale x 0x3F800000 = x := by
  cases hx : unpack32 x with
  | nan => simp [isNaN32, hx] at h
  | inf a => rw [scale, mul32_inf_fin _ hx unpack32_one (by decide), Bool.bne_false, signed_infMag_unpack32 hx]
  | fin a u =>
    rw [scale, mul32_fin _ hx unpack32_one, Bool.bne_false, binary32.round_mul a u (Nat.two_pow_pos _), round_unpack32 x a u hx]

/-- SCALE by +0.0 leaves the sign of a finite sample. -/
theorem scale_zero (h : x.toNat % 2 ^ 31 < 0x7F800000) : scale x 0 = x &&& 0x80000000#32 := by
  obtain ⟨u, hx⟩ := exists_unpack32_fin h
  rw [scale, mul32_fin _ hx unpack32_zero, Bool.bne_false, Nat.mul_zero, FpFormat.round,
    binary32.roundMag_zero (by decide) (Nat.two_pow_pos _), signed_zero_eq_and]

/-- A free quiet NaN is a NaN, whatever its payload (93). -/
theorem isNaN32_quietNaN32 (payload : F32) : isNaN32 (quietNaN32 payload) = true := by
  apply isNaN32_of_lt
  rw [quietNaN32, BitVec.toNat_or, Nat.or_mod_two_pow]
  exact Nat.lt_of_lt_of_le (by decide) Nat.right_le_or

theorem quietNaN32_quietBit (payload : F32) : (quietNaN32 payload).getLsbD 22 = true := by
  simp [quietNaN32]

/-- Settles O37: the two ends of the range of volumes, and a NaN sample, which makes the NaN of SCALE. -/
theorem scaleAtTheEndsOfTheRange : Obligations.ScaleAtTheEndsOfTheRange := by
  refine ⟨fun x => scale_one, fun x => scale_zero, fun x v hx => ?_⟩
  rw [scale, mul32_nan_left _ _ ((isNaN32_iff x).1 hx)]
  exact ⟨isNaN32_quietNaN32 _, quietNaN32_quietBit _⟩

end Sys2Proof.Machine
end

section
/-! The CRC (42_crc.md R150, R153): its recurrence in naturals, and the CRC of a message with its own CRC. -/

namespace Sys2Proof.Machine

variable {c : BitVec 16}

theorem crcShift_of_lt (h : c.toNat < 2 ^ 15) : crcShift c = c <<< 1 := by
  have hbit : c.getLsbD 15 = false := by
    rw [show c.getLsbD 15 = c.msb from rfl, BitVec.msb_eq_false_iff_two_mul_lt]
    omega
  rw [crcShift, hbit, if_neg Bool.false_ne_true]

/-- Where n shifts push no bit out, the polynomial never enters. -/
theorem repeat_crcShift_of_lt (n : Nat) (h : c.toNat * 2 ^ n < 2 ^ 16) : Nat.repeat crcShift n c = c <<< n := by
  induction n with
  | zero => exact (BitVec.shiftLeft_zero c).symm
  | succ n ih =>
    rw [Nat.pow_succ, ← Nat.mul_assoc] at h
    have hhalf : c.toNat * 2 ^ n < 2 ^ 15 := by omega
    have hlt : (c <<< n).toNat < 2 ^ 15 := by
      rw [BitVec.toNat_shiftLeft, Nat.shiftLeft_eq]
      exact (Nat.mod_le _ _).trans_lt hhalf
    rw [Nat.repeat, ih (by omega), crcShift_of_lt hlt, ← BitVec.shiftLeft_add]

theorem xor_high_byte (c : BitVec 16) : c ^^^ ((c.extractLsb' 8 8).setWidth 16 <<< 8) = (c.extractLsb' 0 8).setWidth 16 := by
  ext i hi
  by_cases h : i < 8
  · simp [h, BitVec.getLsbD_eq_getElem hi]
  · have hlt : i - 8 < 8 := by omega
    have hindex : 8 + (i - 8) = i := by omega
    simp [h, hlt, hindex, BitVec.getLsbD_eq_getElem hi]

/-- A byte equal to the high half of the register clears it, and the low half moves up. -/
theorem crcByte_high_byte (c : BitVec 16) : crcByte c (c.extractLsb' 8 8) = (c.extractLsb' 0 8).setWidth 16 <<< 8 := by
  have hlow : ((c.extractLsb' 0 8).setWidth 16).toNat < 2 ^ 8 := by
    rw [BitVec.toNat_setWidth_of_le (by decide)]
    exact BitVec.isLt _
  rw [crcByte, xor_high_byte, repeat_crcShift_of_lt 8 (by omega)]

/-- A byte equal to the high half, the low half being 0, leaves 0. -/
theorem crcByte_shiftLeft_eight (b : Byte) : crcByte (b.setWidth 16 <<< 8) b = 0 := by
  rw [crcByte, BitVec.xor_self]
  decide

theorem crc_append (xs ys : List Byte) : crc (xs ++ ys) = ys.foldl crcByte (crc xs) := List.foldl_append

/-- `crcShift` in naturals (R150). -/
def crcShiftNat (c : Nat) : Nat := if 2 ^ 15 ≤ c then (2 * c % 2 ^ 16) ^^^ 0x1021 else 2 * c % 2 ^ 16

theorem toNat_crcShift (c : BitVec 16) : (crcShift c).toNat = crcShiftNat c.toNat := by
  have hbit : c.getLsbD 15 = decide (2 ^ 15 ≤ c.toNat) := c.msb_eq_decide
  have hshift : (c <<< 1).toNat = 2 * c.toNat % 2 ^ 16 := by rw [BitVec.toNat_shiftLeft, Nat.shiftLeft_eq, Nat.pow_one, Nat.mul_comm]
  simp only [crcShift, crcShiftNat, hbit, decide_eq_true_eq]
  split
  · rw [BitVec.toNat_xor, hshift]
    rfl
  · exact hshift

theorem toNat_repeat_crcShift (n : Nat) (c : BitVec 16) : (Nat.repeat crcShift n c).toNat = Nat.repeat crcShiftNat n c.toNat := by
  induction n with
  | zero => rfl
  | succ n ih => rw [Nat.repeat, toNat_crcShift, ih, Nat.repeat]

theorem toNat_crcByte (c : BitVec 16) (b : Byte) :
    (crcByte c b).toNat = Nat.repeat crcShiftNat 8 (c.toNat ^^^ (b.toNat * 2 ^ 8)) := by
  have hbyte : (b.setWidth 16 <<< 8).toNat = b.toNat * 2 ^ 8 := by
    have hb := b.isLt
    rw [BitVec.toNat_shiftLeft, BitVec.toNat_setWidth_of_le (by decide), Nat.shiftLeft_eq, Nat.mod_eq_of_lt (by omega)]
  rw [crcByte, toNat_repeat_crcShift, BitVec.toNat_xor, hbyte]

/-- Settles O22: one byte in naturals, and the two bytes of the CRC, the first of which clears the high half and the second the rest. -/
theorem crcFollowsTheRecurrence : Obligations.CrcFollowsTheRecurrence := by
  refine ⟨rfl, fun data b => ?_, fun data => ?_⟩
  · rw [crc_append]
    exact toNat_crcByte _ b
  · rw [crc_append, List.foldl_cons, crcByte_high_byte]
    exact crcByte_shiftLeft_eight _

end Sys2Proof.Machine
end

section
/-! CRC16 and CRC_CHECK over a written payload (42_crc.md R151, R152). -/

namespace Sys2Proof.Machine

variable {s : State} {bs : List Byte}

/-- A success with a CRC in RESULT0 reports it and changes nothing else (R151, R152). -/
theorem State.complete_crc_report (s : State) (c : BitVec 16) :
    s.reportsSuccess (s.complete c.toNat 0 0 zero64) (0#16 ++ c) 0 0 0 ∧ s.onlyReport (s.complete c.toNat 0 0 zero64) := by
  have hreport := s.complete_reportsSuccess c.toNat 0 0 zero64
  rw [BitVec.ofNat_toNat, setWidth_eq_zero_append] at hreport
  exact ⟨hreport, rfl⟩

section payload
variable (hlen : s.ops.byteLen.toNat = bs.length) (hholds : s.holdsBytes s.ops.byteAddr.toNat bs)
  (hin : s.ops.byteAddr.toNat + bs.length ≤ s.params.byteRamBytes)
include hlen hholds hin

/-- CRC16 past its range check (R151). -/
theorem exec_crc16_of_holds : exec .crc16 s = .next (s.complete (crc bs).toNat 0 0 zero64) := by
  rw [exec, execCrc16, hlen, require_of ((s.byteRangeOk_iff _ _).2 hin), State.bytes_of_holds hholds, State.afterBytes_of_holds hholds]

/-- CRC_CHECK past its range check (R152). -/
theorem exec_crcCheck_of_holds : exec .crcCheck s =
    require (crc bs == s.ops.arg.extractLsb' 0 16) .crcMismatch s fun _ => .next (s.complete (crc bs).toNat 0 0 zero64) := by
  rw [exec, execCrcCheck, hlen, require_of ((s.byteRangeOk_iff _ _).2 hin), State.bytes_of_holds hholds, State.afterBytes_of_holds hholds]

end payload

/-- Settles O20: the payload's CRC is the result of the completion. -/
theorem crc16GivesTheCrc : Obligations.Crc16GivesTheCrc := fun s bs hlen hholds hin =>
  ⟨_, exec_crc16_of_holds hlen hholds hin, s.complete_crc_report (crc bs)⟩

theorem eq_extractLsb'_zero_iff (c : BitVec 16) (v : Word) : c = v.extractLsb' 0 16 ↔ c.toNat = v.toNat % 2 ^ 16 := by
  rw [← BitVec.toNat_inj, BitVec.extractLsb'_toNat, Nat.shiftRight_zero]

/-- Settles O21: the two outcomes of the comparison with ARG[15:0]. -/
theorem crcCheckCompares : Obligations.CrcCheckCompares := by
  intro s bs hlen hholds hin
  rw [exec_crcCheck_of_holds hlen hholds hin]
  split
  next hcrc =>
    obtain ⟨hreport, hframe⟩ := s.complete_crc_report (crc bs)
    exact ⟨_, require_of (beq_iff_eq.2 ((eq_extractLsb'_zero_iff _ _).2 hcrc)) _ _ _, hframe, hreport⟩
  next hne =>
    obtain ⟨hreport, hframe⟩ := s.fail_report (c := .crcMismatch) nofun
    exact ⟨_, require_of_not (beq_eq_false_iff_ne.2 fun h => hne ((eq_extractLsb'_zero_iff _ _).1 h)) _ _ _, hframe, hreport⟩

end Sys2Proof.Machine
end

section
/-! The frame bits field by field (43_encoder.md R170, R171), and the samples of a frame window by window (R172). -/

namespace Sys2Proof.Machine

/-- A list put together from blocks of one length is read block by block. -/
theorem getElem?_flatMap_const {α β : Type} {f : α → List β} {k : Nat} (hf : ∀ a, (f a).length = k) {l : List α} {j i : Nat}
    {a : α} (ha : l[j]? = some a) (hi : i < k) : (l.flatMap f)[j * k + i]? = (f a)[i]? := by
  induction l generalizing j with
  | nil => cases ha
  | cons x l ih =>
    rw [List.flatMap_cons]
    cases j with
    | zero =>
      obtain rfl : x = a := by simpa using ha
      rw [Nat.zero_mul, Nat.zero_add, List.getElem?_append_left (by rwa [hf])]
    | succ j =>
      have hskip : (j + 1) * k + i - k = j * k + i := by rw [Nat.add_one_mul]; omega
      have hge : k ≤ (j + 1) * k + i := by rw [Nat.add_one_mul]; omega
      rw [List.getElem?_append_right (by rwa [hf]), hf, hskip, ih (by simpa using ha)]

/-- What stands after the first n elements is read from n on. -/
theorem getElem?_append_after {α : Type} {l l' : List α} {n i : Nat} (hn : l.length = n) : (l ++ l')[n + i]? = l'[i]? := by
  rw [← hn, List.getElem?_append_right (Nat.le_add_right _ _), Nat.add_sub_cancel_left]

theorem preamble_length (pre : Nat) : (preamble pre).length = pre := by simp [preamble]

theorem getElem?_preamble {pre k : Nat} (hk : k < pre) : (preamble pre)[k]? = some (k % 2 == 1) := by simp [preamble, hk]

theorem getElem?_bitsMsbFirst {w k : Nat} (hk : k < w) (v : Nat) : (bitsMsbFirst w v)[k]? = some (v.testBit (w - 1 - k)) := by
  simp [bitsMsbFirst, hk]

/-- The payload bits: each byte most significant bit first (R170). -/
abbrev payloadBits (data : List Byte) : List Bool := data.flatMap (fun b => bitsMsbFirst 8 b.toNat)

theorem payloadBits_length (data : List Byte) : (payloadBits data).length = 8 * data.length := by
  rw [flatMap_length_const _ 8 (fun _ => bitsMsbFirst_length 8 _), Nat.mul_comm]

/-- Bit k of byte j of the payload (R170). -/
theorem getElem?_payloadBits {data : List Byte} {j k : Nat} {b : Byte} (hb : data[j]? = some b) (hk : k < 8) :
    (payloadBits data)[8 * j + k]? = some (b.getLsbD (7 - k)) := by
  rw [Nat.mul_comm, getElem?_flatMap_const (fun _ => bitsMsbFirst_length 8 _) hb hk]
  exact getElem?_bitsMsbFirst hk _

/-- The frame bits, field after field (R170). -/
theorem frameBits_eq (pre post : Nat) (data : List Byte) : frameBits pre post data =
    preamble pre ++ (bitsMsbFirst 16 data.length ++ (payloadBits data ++
      (bitsMsbFirst 16 (crc data).toNat ++ List.replicate post true))) := by
  simp [frameBits, frameBody]

/-- Settles O30: each field is passed over by its length, and the field at the front is read by its own lemma. -/
theorem frameBitsLayout : Obligations.FrameBitsLayout := by
  intro pre post data
  have hpre := preamble_length pre
  have hlen := bitsMsbFirst_length 16 data.length
  have hdata := payloadBits_length data
  have hcrc := bitsMsbFirst_length 16 (crc data).toNat
  refine ⟨frameBits_length pre post data, fun k hk => ?_, fun k hk => ?_, fun j k b hb hk => ?_, fun k hk => ?_, fun k hk => ?_⟩
  all_goals rw [frameBits_eq]
  · rw [List.getElem?_append_left (by omega), getElem?_preamble hk]
  · rw [getElem?_append_after hpre, List.getElem?_append_left (by omega), getElem?_bitsMsbFirst hk]
  · have hj : j < data.length := (List.getElem?_eq_some_iff.1 hb).1
    rw [Nat.add_assoc, Nat.add_assoc, getElem?_append_after hpre, getElem?_append_after hlen,
      List.getElem?_append_left (by omega), getElem?_payloadBits hb hk]
  · rw [Nat.add_assoc, Nat.add_assoc, getElem?_append_after hpre, getElem?_append_after hlen, getElem?_append_after hdata,
      List.getElem?_append_left (by omega), getElem?_bitsMsbFirst hk]
    rfl
  · have hskip : pre + 32 + 8 * data.length + k = pre + (16 + (8 * data.length + (16 + k))) := by omega
    rw [hskip, getElem?_append_after hpre, getElem?_append_after hlen, getElem?_append_after hdata, getElem?_append_after hcrc,
      List.getElem?_replicate_of_lt hk]

/-- Sample i of a bit window (R172, R134). -/
theorem getElem?_bitWindow (c : FskConfig) (bit : Bool) {i : Nat} (hi : i < c.spb) :
    (bitWindow c bit)[i]? = some (scale (tone c.sampleRate.toNat (c.bitFreq bit) i) c.volume) := by
  simp [bitWindow, toneRun, hi]

/-- Sample i of the window of frame bit m (R172). -/
theorem getElem?_frameSamples {c : FskConfig} {data : List Byte} {m i : Nat} {b : Bool}
    (hb : (frameBits c.preambleBits.toNat c.postambleBits.toNat data)[m]? = some b) (hi : i < c.spb) :
    (frameSamples c data)[m * c.spb + i]? = some (scale (tone c.sampleRate.toNat (c.bitFreq b) i) c.volume) := by
  rw [frameSamples, getElem?_flatMap_const (bitWindow_length c) hb hi, getElem?_bitWindow c b hi]

end Sys2Proof.Machine
end

section
/-! ENCODE_FRAME and DURATION (43_encoder.md R172, R173): the state ENCODE_FRAME ends in, and the order of the checks. -/

namespace Sys2Proof.Machine

variable {s : State} {bs : List Byte}

/-- The end of ENCODE_FRAME over the payload bs (R172). -/
def State.completeFrame (s : State) (bs : List Byte) : State :=
  (s.writeSamples s.ops.dstAddr.toNat (frameSamples s.cfg bs)).complete (s.cfg.nsamples bs.length) (s.cfg.nbits bs.length)
    (crc bs).toNat zero64

/-- ENCODE_FRAME past its four checks (R172). -/
theorem exec_encodeFrame_of_holds (hvalid : s.cfg.valid = true) (hlen : s.ops.byteLen.toNat = bs.length) (hshort : bs.length ≤ 65535)
    (hholds : s.holdsBytes s.ops.byteAddr.toNat bs) (hin : s.ops.byteAddr.toNat + bs.length ≤ s.params.byteRamBytes)
    (hout : s.ops.dstAddr.toNat + s.cfg.nsamples bs.length ≤ s.params.sampleRamWords) :
    exec .encodeFrame s = .next (s.completeFrame bs) := by
  rw [exec, execEncodeFrame, hlen, require_of hvalid, require_of (decide_eq_true hshort), require_of ((s.byteRangeOk_iff _ _).2 hin),
    require_of ((s.sampleRangeOk_iff _ _).2 hout), State.bytes_of_holds hholds, State.afterBytes_of_holds hholds, State.completeFrame]

theorem State.completeFrame_reportsSuccess (s : State) (bs : List Byte) :
    s.reportsSuccess (s.completeFrame bs) (BitVec.ofNat 32 (s.cfg.nsamples bs.length)) (BitVec.ofNat 32 (s.cfg.nbits bs.length))
      (0#16 ++ crc bs) 0 := by
  rw [← setWidth_eq_zero_append, ← BitVec.ofNat_toNat]
  exact (s.writeSamples _ _).complete_reportsSuccess _ _ _ zero64

/-- Sample i of the window of frame bit m stands in the sample RAM (R172). -/
theorem State.completeFrame_get {m i : Nat} {b : Bool}
    (hb : (frameBits s.cfg.preambleBits.toNat s.cfg.postambleBits.toNat bs)[m]? = some b) (hi : i < s.cfg.spb) :
    cellGet? (s.completeFrame bs).sram (s.ops.dstAddr.toNat + m * s.cfg.spb + i) =
      some (scale (tone s.cfg.sampleRate.toNat (s.cfg.bitFreq b) i) s.cfg.volume) := by
  obtain ⟨hlt, hsample⟩ := List.getElem?_eq_some_iff.1 (getElem?_frameSamples hb hi)
  rw [Nat.add_assoc, State.completeFrame, State.complete_sram, State.writeSamples_sram, cellGet?_put_at _ _ _ _ hlt, hsample]

theorem State.completeFrame_frame (s : State) (bs : List Byte) :
    s.onlyReportAndSamples (s.completeFrame bs) s.ops.dstAddr.toNat (s.cfg.nsamples bs.length) := by
  rw [← frameSamples_length]
  exact s.writeSamples_complete_frame _ _ _ _ _ _

/-- Settles O23: past its checks the command writes the frame's samples, which are read window by window. -/
theorem encodeFrameRendersTheFrame : Obligations.EncodeFrameRendersTheFrame :=
  fun s bs hvalid hlen hshort hholds hin hout =>
    ⟨_, exec_encodeFrame_of_holds hvalid hlen hshort hholds hin hout, s.completeFrame_reportsSuccess bs,
      fun _ _ _ hb hi => State.completeFrame_get hb hi, s.completeFrame_frame bs⟩

/-- Settles O24: the first check that does not pass gives the code, and nothing is read or written before it. -/
theorem encodeFrameFailuresInOrder : Obligations.EncodeFrameFailuresInOrder := by
  intro s hvalid
  rw [exec, execEncodeFrame, require_of hvalid]
  refine ⟨fun hlong => ⟨_, ?_, s.fail_report nofun⟩, fun hshort hin => ⟨_, ?_, s.fail_report nofun⟩,
    fun hshort hin hout => ⟨_, ?_, s.fail_report nofun⟩⟩
  · rw [require_of_not (decide_eq_false hlong.not_ge)]
  · rw [require_of (decide_eq_true hshort), require_of_not (State.byteRangeOk_false hin)]
  · rw [require_of (decide_eq_true hshort), require_of ((s.byteRangeOk_iff _ _).2 hin), require_of_not (State.sampleRangeOk_false hout)]

/-- Settles O25: the length check decides between the report of the quotient and the failure. -/
theorem durationDividesBitsByRate : Obligations.DurationDividesBitsByRate := by
  intro s hvalid
  rw [exec, execDuration, require_of hvalid]
  refine ⟨fun hshort => ⟨_, require_of (decide_eq_true hshort) _ _ _, rfl, s.complete_reportsSuccess _ _ _ _⟩, fun hlong => ?_⟩
  obtain ⟨hreport, hframe⟩ := s.fail_report (c := .lengthTooLarge) nofun
  exact ⟨_, require_of_not (decide_eq_false hlong.not_ge) _ _ _, hframe, hreport⟩

end Sys2Proof.Machine
end

section
/-! GOERTZEL and DECODE_BIT over written samples (44_goertzel.md R191, R193): the two checks, the read and the report. -/

namespace Sys2Proof.Machine

variable {s : State} {xs : List F32}

/-- A command that reads samples goes on where its configuration is valid and its range lies in the sample RAM (R115, R70). -/
theorem require_sampleRange_passes {a n : Nat} (hvalid : s.cfg.valid = true) (hin : a + n ≤ s.params.sampleRamWords)
    (rest : Unit → Result) :
    (require s.cfg.valid .cfgInvalid s fun _ => require (s.sampleRangeOk a n) .sampleRange s rest) = rest () := by
  rw [require_of hvalid, require_of ((s.sampleRangeOk_iff a n).2 hin)]

section written
variable (hvalid : s.cfg.valid = true) (hlen : s.ops.srcLen.toNat = xs.length) (hholds : s.holdsSamples s.ops.srcAddr.toNat xs)
  (hin : s.ops.srcAddr.toNat + xs.length ≤ s.params.sampleRamWords)
include hvalid hlen hholds hin

/-- GOERTZEL past its checks (R191). -/
theorem exec_goertzel_of_holds :
    exec .goertzel s = .next (s.complete xs.length 0 0 (goertzel s.cfg.sampleRate.toNat xs s.ops.arg.toNat)) := by
  rw [exec, execGoertzel, hlen, require_sampleRange_passes hvalid hin, State.samples_of_holds hholds,
    State.afterSamples_of_holds hholds]

/-- DECODE_BIT past its checks (R193). -/
theorem exec_decodeBit_of_holds : exec .decodeBit s = .next (s.complete (decideBit s.cfg xs).toNat xs.length 0 zero64) := by
  rw [exec, execDecodeBit, hlen, require_sampleRange_passes hvalid hin, State.samples_of_holds hholds,
    State.afterSamples_of_holds hholds]

end written

/-- A count is its own 32-bit word (R8). -/
theorem ofNat_of_toNat_eq {w : Word} {n : Nat} (h : w.toNat = n) : BitVec.ofNat 32 n = w := by
  rw [← h, BitVec.ofNat_toNat, BitVec.setWidth_eq]

theorem ofNat_toNat_bool (b : Bool) : BitVec.ofNat 32 b.toNat = if b then 1 else 0 := by
  cases b <;> rfl

/-- Settles O26: past its checks the command completes with the magnitude and the count. -/
theorem goertzelGivesTheMagnitude : Obligations.GoertzelGivesTheMagnitude := by
  intro s xs hvalid hlen hholds hin
  have hreport := s.complete_reportsSuccess xs.length 0 0 (goertzel s.cfg.sampleRate.toNat xs s.ops.arg.toNat)
  rw [ofNat_of_toNat_eq hlen] at hreport
  exact ⟨_, exec_goertzel_of_holds hvalid hlen hholds hin, rfl, hreport⟩

/-- Settles O27: past its checks the command completes with the bit of DBIT, which is the comparison, and the count. -/
theorem decodeBitDecides : Obligations.DecodeBitDecides := by
  intro s xs hvalid hlen hholds hin
  have hreport := s.complete_reportsSuccess (decideBit s.cfg xs).toNat xs.length 0 zero64
  rw [ofNat_of_toNat_eq hlen, ofNat_toNat_bool] at hreport
  exact ⟨_, exec_decodeBit_of_holds hvalid hlen hholds hin, rfl, hreport⟩

end Sys2Proof.Machine
end

section
/-! The magnitude G (44_goertzel.md R190): its recurrence, the classes of its value, and the comparison of two magnitudes (R192). -/

namespace Sys2Proof.Machine

/-- The two states (s1, s2) of the recurrence after the samples xs (R190). -/
def goertzelState (coeff : F64) (xs : List F32) : F64 × F64 := xs.foldl (goertzelStep coeff) (zero64, zero64)

theorem goertzelState_nil (coeff : F64) : goertzelState coeff [] = (zero64, zero64) := rfl

theorem goertzelState_concat (coeff : F64) (xs : List F32) (x : F32) :
    goertzelState coeff (xs ++ [x]) = goertzelStep coeff (goertzelState coeff xs) x := List.foldl_concat ..

theorem goertzelWith_eq (coeff : F64) (xs : List F32) :
    goertzelWith coeff xs = goertzelMagnitude (goertzelPower coeff (goertzelState coeff xs).1 (goertzelState coeff xs).2) := rfl

/-- Settles O40: the two states are those of `goertzelState`. -/
theorem goertzelFollowsTheRecurrence : Obligations.GoertzelFollowsTheRecurrence := by
  refine ⟨fun coeff => ⟨fun xs => (goertzelState coeff xs).1, fun xs => (goertzelState coeff xs).2, rfl, rfl, fun xs x => ?_,
    goertzelWith_eq coeff⟩, fun sr f xs => rfl⟩
  simp only [goertzelState_concat]
  exact ⟨rfl, rfl⟩

theorem isNaN64_iff (x : F64) : isNaN64 x = true ↔ unpack64 x = .nan := beq_iff_eq

/-- A magnitude pattern up to that of infinity has sign 0 and is no NaN. -/
theorem ofNat_magnitude_class {m : Nat} (h : m ≤ binary64.infMag) :
    isNaN64 (BitVec.ofNat 64 m) = false ∧ (BitVec.ofNat 64 m).msb = false := by
  have hbits : (BitVec.ofNat 64 m).toNat = m := toNat_ofNat_signed64 h false
  have hinf : binary64.infMag = 0x7FF0000000000000 := by decide
  refine ⟨Bool.eq_false_iff.2 fun hnan => ?_, ?_⟩
  · have hclass := binary64.unpack_signed (by decide) false h
    rw [isNaN64_iff, unpack64, hbits] at hnan
    rw [FpFormat.signed, if_neg nofun, hnan] at hclass
    split at hclass <;> cases hclass
  · rw [BitVec.msb_eq_false_iff_two_mul_lt, hbits]
    omega

/-- What is neither a NaN nor at most 0.0 is +∞ or a positive number. -/
theorem unpack64_of_not_le {p : F64} (hnan : isNaN64 p = false) (hle : le64 p zero64 = false) :
    unpack64 p = .inf false ∨ ∃ u, 0 < u ∧ unpack64 p = .fin false u := by
  rw [le64, zero64, unpack64_zero] at hle
  rw [isNaN64] at hnan
  match hp : unpack64 p with
  | .nan => simp [hp] at hnan
  | .inf true => simp [hp, Fp.le] at hle
  | .inf false => exact .inl rfl
  | .fin true u => simp [hp, Fp.le, fpInt] at hle
  | .fin false u => exact .inr ⟨u, Nat.pos_of_ne_zero (by simpa [hp, Fp.le, fpInt] using hle), rfl⟩

/-- The square root of what is above 0.0 is a magnitude up to infinity. -/
theorem exists_sqrt64_eq {p : F64} (hnan : isNaN64 p = false) (hle : le64 p zero64 = false) :
    ∃ m ≤ binary64.infMag, sqrt64 p = BitVec.ofNat 64 m := by
  obtain hp | ⟨u, hu, hp⟩ := unpack64_of_not_le hnan hle
  · exact ⟨_, le_rfl, by rw [sqrt64, hp]; rfl⟩
  · rw [sqrt64, hp, FpFormat.sqrt, if_neg hu.ne', if_neg nofun]
    dsimp only
    rw [FpFormat.round_false]
    exact ⟨_, binary64.roundMag_le _ _, rfl⟩

/-- G is the canonical NaN64 or a magnitude up to infinity (R190). -/
theorem goertzelMagnitude_cases (p : F64) :
    goertzelMagnitude p = nan64 ∨ ∃ m ≤ binary64.infMag, goertzelMagnitude p = BitVec.ofNat 64 m := by
  rw [goertzelMagnitude]
  split
  next => exact .inl rfl
  next hnan =>
    split
    next => exact .inr ⟨0, Nat.zero_le _, rfl⟩
    next hle => exact .inr (exists_sqrt64_eq (Bool.eq_false_iff.2 hnan) (Bool.eq_false_iff.2 hle))

/-- Settles O38: neither a magnitude pattern nor the canonical NaN64 has a sign, and the former is no NaN. -/
theorem magnitudeIsCanonicalNaNOrNotNegative : Obligations.MagnitudeIsCanonicalNaNOrNotNegative := by
  intro coeff xs
  rw [goertzelWith_eq]
  obtain hnan | ⟨m, hm, hmag⟩ := goertzelMagnitude_cases (goertzelPower coeff (goertzelState coeff xs).1 (goertzelState coeff xs).2)
  · rw [hnan]
    exact ⟨fun _ => rfl, rfl⟩
  · obtain ⟨hnan, hsign⟩ := ofNat_magnitude_class hm
    rw [hmag]
    exact ⟨fun h => absurd (hnan.symm.trans h) Bool.false_ne_true, hsign⟩

theorem Fp.lt_irrefl (a : Fp) : a.lt a = false := by
  match a with
  | .nan => rfl
  | .inf s => exact Bool.and_not_self s
  | .fin s u => exact decide_eq_false (Int.lt_irrefl _)

theorem Fp.nan_lt (a : Fp) : Fp.nan.lt a = false := by cases a <;> rfl

theorem Fp.lt_nan (a : Fp) : a.lt .nan = false := by cases a <;> rfl

/-- Settles O41: nothing is greater than itself, and no comparison with a NaN holds. -/
theorem tieAndNaNDecideZero : Obligations.TieAndNaNDecideZero := by
  rintro c xs (htie | hmark | hspace)
  · rw [decideBit, htie, gt64, Fp.lt_irrefl]
  · rw [decideBit, gt64, (isNaN64_iff _).1 hmark, Fp.lt_nan]
  · rw [decideBit, gt64, (isNaN64_iff _).1 hspace, Fp.nan_lt]

end Sys2Proof.Machine
end

section
/-! Operations of 00_scope.md R10 that are exact: sums with a zero, products with +0.0, roots of squares; and values by their units. -/

namespace Sys2Proof.Machine

/-- The units of a finite pattern round to that pattern. -/
theorem FpFormat.round_of_unpack (f : FpFormat) (hp : 1 ≤ f.prec) {n u : Nat} {s : Bool} (hn : n < 2 * f.signBit)
    (h : f.unpack n = .fin s u) : f.round s u 1 = n := by
  obtain ⟨hfin, hsign, hunits⟩ := (f.unpack_eq_fin_iff n s u).1 h
  rw [← hunits, FpFormat.round, f.roundMag_unitsOf hp hfin.le, ← hsign, FpFormat.signed]
  obtain hlt | hge := Nat.lt_or_ge n f.signBit
  · rw [if_neg (by simpa using hlt), Nat.mod_eq_of_lt hlt]
  · rw [if_pos (by simpa using hge), Nat.mod_eq_sub_mod hge, Nat.mod_eq_of_lt (by omega)]
    omega

theorem round_unpack64 {x : F64} {s : Bool} {u : Nat} (h : unpack64 x = .fin s u) : BitVec.ofNat 64 (binary64.round s u 1) = x := by
  rw [binary64.round_of_unpack (by decide) x.isLt h, BitVec.ofNat_toNat, BitVec.setWidth_eq]

theorem fpInt_zero (s : Bool) : fpInt s 0 = 0 := by cases s <;> rfl

theorem natAbs_fpInt (s : Bool) (u : Nat) : (fpInt s u).natAbs = u := by
  cases s
  · exact Int.natAbs_natCast u
  · exact (Int.natAbs_neg _).trans (Int.natAbs_natCast u)

theorem fpInt_neg_iff (s : Bool) {u : Nat} (hu : 0 < u) : fpInt s u < 0 ↔ s = true := by
  cases s <;> simp [fpInt, hu]

/-- A zero of either sign added to a value that is not zero leaves its units to be rounded. -/
theorem FpFormat.add_zero (f : FpFormat) {s t : Bool} {u : Nat} (hu : 0 < u) : f.add (.fin s u) (.fin t 0) = f.round s u 1 := by
  have hne : fpInt s u ≠ 0 := fun h => by
    have habs := natAbs_fpInt s u
    rw [h] at habs
    exact hu.ne habs
  have hsign : decide (fpInt s u < 0) = s := (Bool.decide_congr (fpInt_neg_iff s hu)).trans Bool.decide_eq_true
  rw [FpFormat.add, fpInt_zero, Int.add_zero, if_neg hne, natAbs_fpInt, hsign]

section zero
variable {x y : F64} {s t : Bool} {u : Nat} (hx : unpack64 x = .fin s u) (hu : 0 < u) (hy : unpack64 y = .fin t 0)
include hx hu hy

theorem add64_zero_right : add64 x y = x := by
  rw [add64, hx, hy, binary64.add_zero hu, round_unpack64 hx]

theorem sub64_zero_right : sub64 x y = x := by
  rw [sub64, hx, hy, Fp.neg, binary64.add_zero hu, round_unpack64 hx]

end zero

/-- A finite value times +0.0 is a zero. -/
theorem unpack64_mul_zero {x : F64} {s : Bool} {u : Nat} (hx : unpack64 x = .fin s u) : unpack64 (mul64 x 0) = .fin s 0 := by
  rw [mul64_fin hx unpack64_zero, Nat.mul_zero, Bool.bne_false]
  cases s <;> decide +kernel

/-- The integer square root, from its invariant: the root of n is at least `acc` and below `acc + 2^k`. -/
theorem isqrtFrom_eq_sqrt (n : Nat) : ∀ k acc, acc * acc ≤ n → n < (acc + 2 ^ k) * (acc + 2 ^ k) → isqrtFrom n k acc = Nat.sqrt n
  | 0, acc, hlow, hhigh => Nat.eq_sqrt.2 ⟨hlow, hhigh⟩
  | k + 1, acc, hlow, hhigh => by
    rw [Nat.pow_succ', Nat.two_mul, ← Nat.add_assoc] at hhigh
    rw [isqrtFrom]
    split
    next hbit => exact isqrtFrom_eq_sqrt n k _ hbit hhigh
    next hbit => exact isqrtFrom_eq_sqrt n k _ hlow (Nat.lt_of_not_le hbit)

theorem isqrt_eq_sqrt (n : Nat) : isqrt n = Nat.sqrt n := by
  refine isqrtFrom_eq_sqrt n _ 0 (Nat.zero_le n) ?_
  rw [Nat.zero_add, ← Nat.pow_add]
  exact Nat.lt_log2_self.trans_le (Nat.pow_le_pow_right (by omega) (by omega))

/-- The root of a positive value whose units make a square is rounded from its exact units. -/
theorem sqrt64_of_sq {p : F64} {u r : Nat} (hp : unpack64 p = .fin false u) (hu : 0 < u) (hsq : u * 2 ^ 1074 = r * r) :
    sqrt64 p = BitVec.ofNat 64 (binary64.round false r 1) := by
  have hroot : isqrt (u * 2 ^ 1074) = r := by rw [isqrt_eq_sqrt, hsq, Nat.sqrt_eq]
  rw [sqrt64, hp, FpFormat.sqrt, if_neg hu.ne', if_neg nofun, binary64_unitExp]
  dsimp only
  rw [hroot, if_pos hsq.symm, Nat.add_zero, Nat.mul_comm, binary64.round_mul false r two_pos]

/-- A greater magnitude than 0 has units. -/
theorem FpFormat.unitsOf_pos (f : FpFormat) {mag : Nat} (h : 0 < mag) : 0 < f.unitsOf mag :=
  (Nat.zero_le _).trans_lt (f.unitsOf_strictMono h)

/-- The absolute value of a finite sample has its units (R191). -/
theorem unpack32_abs {x : F32} {s : Bool} {u : Nat} (hx : unpack32 x = .fin s u) : unpack32 (x &&& 0x7FFFFFFF#32) = .fin false u := by
  obtain ⟨hfin, -, hunits⟩ := (binary32.unpack_eq_fin_iff _ s u).1 hx
  have hsignBit : binary32.signBit = 2 ^ 31 := by decide
  have hbits : (x &&& 0x7FFFFFFF#32).toNat = x.toNat % 2 ^ 31 := by
    rw [BitVec.toNat_and, ← Nat.and_two_pow_sub_one_eq_mod]
    rfl
  rw [hsignBit] at hfin hunits
  rw [unpack32, binary32.unpack_eq_fin_iff, hbits, hsignBit, Nat.mod_mod]
  exact ⟨hfin, decide_eq_false (Nat.not_le.2 (Nat.mod_lt _ (by decide))), hunits⟩

theorem unitsOf_two64_lt : binary64.unitsOf 0x4000000000000000 < 2 ^ 1076 := by decide +kernel

/-- A binary64 value of magnitude at most 2.0 is finite, of at most 1076 bits in units. -/
theorem exists_unpack64_le_two {c : F64} (h : c.toNat % 2 ^ 63 ≤ 0x4000000000000000) :
    ∃ s u, unpack64 c = .fin s u ∧ u < 2 ^ 1076 :=
  ⟨_, _, (binary64.unpack_eq_fin_iff _ _ _).2 ⟨h.trans_lt (by decide), rfl, rfl⟩,
    (binary64.unitsOf_strictMono.monotone h).trans_lt unitsOf_two64_lt⟩

/-- A sample whose magnitude pattern is not that of zero has units. -/
theorem exists_unpack32_pos {x : F32} (hfin : x.toNat % 2 ^ 31 < 0x7F800000) (hne : x.toNat % 2 ^ 31 ≠ 0) :
    ∃ u, 0 < u ∧ unpack32 x = .fin x.msb u := by
  obtain ⟨u, hx⟩ := exists_unpack32_fin hfin
  obtain ⟨-, -, rfl⟩ := (binary32.unpack_eq_fin_iff _ _ _).1 hx
  exact ⟨_, binary32.unitsOf_pos (Nat.pos_of_ne_zero hne), hx⟩

/-- A binary32 value that is finite and not zero, in binary64 units: 24 bits, shifted. -/
theorem exists_binary64_units {x : F32} {s : Bool} {u : Nat} (hx : unpack32 x = .fin s u) (hu : 0 < u) :
    ∃ m k, 0 < m ∧ m < 2 ^ 24 ∧ 925 ≤ k ∧ k ≤ 1178 ∧ u * 2 ^ 925 = m * 2 ^ k := by
  obtain ⟨m, k, hm, hk, rfl⟩ := unpack32_fin hx
  exact ⟨m, k + 925, Nat.pos_of_mul_pos_right hu, hm, by omega, by omega, by rw [Nat.mul_assoc, ← Nat.pow_add]⟩

/-- The square of a shifted number, with e of its low bits apart. -/
theorem sq_mul_two_pow (m : Nat) {k e : Nat} (he : e ≤ 2 * k) : m * 2 ^ k * (m * 2 ^ k) = m * m * 2 ^ (2 * k - e) * 2 ^ e := by
  rw [Nat.mul_mul_mul_comm, Nat.mul_assoc (m * m), ← Nat.pow_add, ← Nat.pow_add, Nat.sub_add_cancel he, Nat.two_mul]

end Sys2Proof.Machine
end

section
/-! The magnitude of one sample (44_goertzel.md R191): the state is the sample, its power an exact square, and the root exact. -/

namespace Sys2Proof.Machine

/-- What is a positive number with a square of units has its exact root as magnitude (R190). -/
theorem goertzelMagnitude_of_sq {p : F64} {u r : Nat} (hp : unpack64 p = .fin false u) (hu : 0 < u) (hsq : u * 2 ^ 1074 = r * r) :
    goertzelMagnitude p = BitVec.ofNat 64 (binary64.round false r 1) := by
  have hnan : ¬ isNaN64 p = true := by simp [isNaN64, hp]
  have hle : ¬ le64 p zero64 = true := by
    rw [le64, hp, zero64, unpack64_zero]
    simpa [Fp.le, fpInt] using hu.ne'
  rw [goertzelMagnitude, if_neg hnan, if_neg hle, sqrt64_of_sq hp hu hsq]

section single
variable {c x : F64} {a s : Bool} {v m k : Nat} (hx : unpack64 x = .fin s (m * 2 ^ k)) (hm : m < 2 ^ 24)
  (hlow : 925 ≤ k) (hhigh : k ≤ 1178)
include hx hm hlow hhigh

/-- The square of a number of 24 bits is exact: its 48 bits fit in the 53 of binary64. -/
theorem unpack64_sq : unpack64 (mul64 x x) = .fin false (m * m * 2 ^ (2 * k - 1074)) := by
  have hbits : m * m < 2 ^ binary64.prec := calc
    m * m < 2 ^ 24 * 2 ^ 24 := Nat.mul_lt_mul'' hm hm
    _ < 2 ^ binary64.prec := by decide
  have hexp : 2 * k - 1074 + 2 ≤ 2 ^ binary64.expw - 1 := by
    show _ ≤ 2047
    omega
  rw [mul64_fin hx hx, bne_self_eq_false, sq_mul_two_pow m (e := 1074) (by omega), binary64.round_mul _ _ (Nat.two_pow_pos _)]
  exact unpack64_round false (binary64.holds_mul (by decide) hbits hexp)

/-- The power of the states (x, +0.0) is the square of x: the product with the coefficient is finite, so its multiple of +0.0 is a
zero (R190). -/
theorem goertzelPower_zero (hc : unpack64 c = .fin a v) (hv : v < 2 ^ 1076) (hpos : 0 < m) : goertzelPower c x zero64 = mul64 x x := by
  have hsq := unpack64_sq hx hm hlow hhigh
  have hsqpos : 0 < m * m * 2 ^ (2 * k - 1074) := Nat.mul_pos (Nat.mul_pos hpos hpos) (Nat.two_pow_pos _)
  obtain ⟨w, hw⟩ := exists_unpack64_mul hc hx hv (mul_two_pow_lt hm k) (by omega)
  rw [goertzelPower, zero64, add64_zero_right hsq hsqpos (unpack64_mul_zero unpack64_zero),
    sub64_zero_right hsq hsqpos (unpack64_mul_zero hw)]

end single

/-- The first sample that is not zero is the first state, exactly, for every finite coefficient (R190). -/
theorem goertzelState_singleton {c : F64} {x : F32} {a s : Bool} {v u : Nat} (hc : unpack64 c = .fin a v)
    (hx : unpack64 (f32To64 x) = .fin s u) (hu : 0 < u) : goertzelState c [x] = (f32To64 x, zero64) := by
  show goertzelStep c (zero64, zero64) x = _
  rw [goertzelStep, zero64, add64_zero_right hx hu (unpack64_mul_zero hc), sub64_zero_right hx hu unpack64_zero]

/-- Settles O39: the state after one sample is the sample, its power is the exact square, and the root of that is exact. -/
theorem singleSampleMagnitudeIsExact : Obligations.SingleSampleMagnitudeIsExact := by
  intro c x hc hfin hne
  obtain ⟨a, v, hc, hv⟩ := exists_unpack64_le_two hc
  obtain ⟨u, hu, hx⟩ := exists_unpack32_pos hfin hne
  have hsample := unpack64_f32To64 hx
  have habs := unpack64_f32To64 (unpack32_abs hx)
  obtain ⟨m, k, hpos, hm, hlow, hhigh, hunits⟩ := exists_binary64_units hx hu
  rw [hunits] at hsample habs
  have hunitsPos : 0 < m * 2 ^ k := Nat.mul_pos hpos (Nat.two_pow_pos k)
  have hsqPos : 0 < m * m * 2 ^ (2 * k - 1074) := Nat.mul_pos (Nat.mul_pos hpos hpos) (Nat.two_pow_pos _)
  rw [goertzelWith_eq, goertzelState_singleton hc hsample hunitsPos, goertzelPower_zero hsample hm hlow hhigh hc hv hpos,
    goertzelMagnitude_of_sq (unpack64_sq hsample hm hlow hhigh) hsqPos (sq_mul_two_pow m (by omega)).symm, round_unpack64 habs]

end Sys2Proof.Machine
end

section
/-! PARSE (45_decoder.md R214, R215): the fields of a list of bits, the three outcomes by its length, and the fields of the frame bits. -/

namespace Sys2Proof.Machine

variable {bits : List Bool} {p w post : Nat}

theorem bitsToNat_concat (bits : List Bool) (b : Bool) : bitsToNat (bits ++ [b]) = 2 * bitsToNat bits + b.toNat := List.foldl_concat ..

theorem bitsMsbFirst_succ (w v : Nat) : bitsMsbFirst (w + 1) v = bitsMsbFirst w (v / 2) ++ [v.testBit 0] := by
  rw [bitsMsbFirst, List.range_succ, List.map_append, bitsMsbFirst]
  congr 1
  · refine List.map_congr_left fun k hk => ?_
    have hindex : w + 1 - 1 - k = w - 1 - k + 1 := by have := List.mem_range.1 hk; omega
    rw [hindex, Nat.testBit_succ]
  · simp

/-- The bits of a number, most significant first, spell its low bits (R62). -/
theorem bitsToNat_bitsMsbFirst (w v : Nat) : bitsToNat (bitsMsbFirst w v) = v % 2 ^ w := by
  induction w generalizing v with
  | zero => rw [Nat.pow_zero, Nat.mod_one]; rfl
  | succ w ih =>
    have hbit : (v.testBit 0).toNat = v % 2 := by rw [Nat.toNat_testBit, Nat.pow_zero, Nat.div_one]
    rw [bitsMsbFirst_succ, bitsToNat_concat, ih, hbit, Nat.pow_succ', Nat.mod_mul, Nat.add_comm]

theorem fieldAt_append_right {l : List Bool} {n : Nat} (hn : l.length = n) (bits : List Bool) (p w : Nat) :
    fieldAt (l ++ bits) (n + p) w = fieldAt bits p w := by
  rw [fieldAt, ← hn, List.drop_length_add_append, fieldAt]

/-- A field at the front is read as the number it was written from. -/
theorem fieldAt_bitsMsbFirst_append {v : Nat} (hv : v < 2 ^ w) (bits : List Bool) : fieldAt (bitsMsbFirst w v ++ bits) 0 w = v := by
  rw [fieldAt, List.drop_zero, List.take_left' (bitsMsbFirst_length w v), bitsToNat_bitsMsbFirst, Nat.mod_eq_of_lt hv]

theorem fieldAt_succ (h : p + w < bits.length) : fieldAt bits p (w + 1) = 2 * fieldAt bits p w + bits[p + w].toNat := by
  have hlt : w < (bits.drop p).length := by rw [List.length_drop]; omega
  rw [fieldAt, ← List.take_concat_get' _ _ hlt, bitsToNat_concat, List.getElem_drop, fieldAt]

theorem msbValue_succ (bits : List Bool) (p w : Nat) :
    msbValue bits p (w + 1) = 2 * msbValue bits p w + (bits.getD (p + w) false).toNat := by
  have hweights : (List.range w).map (fun k => (bits.getD (p + k) false).toNat * 2 ^ (w + 1 - 1 - k)) =
      (List.range w).map (fun k => 2 * ((bits.getD (p + k) false).toNat * 2 ^ (w - 1 - k))) := by
    refine List.map_congr_left fun k hk => ?_
    have hexp : w + 1 - 1 - k = w - 1 - k + 1 := by have := List.mem_range.1 hk; omega
    rw [hexp, Nat.pow_succ', Nat.mul_left_comm]
  rw [msbValue, List.range_succ, List.map_append, List.sum_append, hweights, List.sum_map_mul_left, msbValue]
  simp

/-- A field that lies in the bits is the sum of R214. -/
theorem fieldAt_eq_msbValue (h : p + w ≤ bits.length) : fieldAt bits p w = msbValue bits p w := by
  induction w with
  | zero => rfl
  | succ w ih =>
    have hin : p + w < bits.length := h
    rw [fieldAt_succ hin, ih hin.le, msbValue_succ, List.getD_eq_getElem _ _ hin]

/-- The payload of L bytes that stands in the bits from position 16 on (R214). -/
def payloadField (bits : List Bool) (len : Nat) : List Byte :=
  (List.range len).map (fun j => BitVec.ofNat 8 (fieldAt bits (16 + 8 * j) 8))

theorem parseFrame_of_short (h : bits.length < 32) : parseFrame post bits = .error .tooFewBits := if_pos h

theorem parseFrame_of_truncated (h : 32 ≤ bits.length) (hlen : bits.length < 16 + 8 * fieldAt bits 0 16 + 16 + post) :
    parseFrame post bits = .error .truncated := by
  rw [parseFrame, if_neg h.not_gt, if_pos hlen]

theorem parseFrame_of_whole (h : 32 ≤ bits.length) (hlen : 16 + 8 * fieldAt bits 0 16 + 16 + post ≤ bits.length) :
    parseFrame post bits =
      if (crc (payloadField bits (fieldAt bits 0 16))).toNat = fieldAt bits (16 + 8 * fieldAt bits 0 16) 16
      then .ok (payloadField bits (fieldAt bits 0 16)) else .error .crcMismatch := by
  rw [parseFrame, if_neg h.not_gt, if_neg hlen.not_gt, ite_not, payloadField]

theorem payloadField_eq_msbValue {len : Nat} (h : 16 + 8 * len ≤ bits.length) :
    payloadField bits len = (List.range len).map (fun j => BitVec.ofNat 8 (msbValue bits (16 + 8 * j) 8)) := by
  refine List.map_congr_left fun j hj => ?_
  have hin : 16 + 8 * j + 8 ≤ bits.length := by have := List.mem_range.1 hj; omega
  rw [fieldAt_eq_msbValue hin]

/-- Settles O33: each step of PARSE by the lengths it asks for, every field it then reads lying in the bits. -/
theorem parseStepsInOrder : Obligations.ParseStepsInOrder := by
  intro post bits len
  have hlen (h : 32 ≤ bits.length) : fieldAt bits 0 16 = len := fieldAt_eq_msbValue (by omega)
  refine ⟨parseFrame_of_short, fun h htrunc => parseFrame_of_truncated h (by rwa [hlen h]), fun h hwhole => ?_⟩
  rw [parseFrame_of_whole h (by rwa [hlen h]), hlen h, payloadField_eq_msbValue (by omega), fieldAt_eq_msbValue (by omega)]

/-- The payload of a frame is read back byte by byte. -/
theorem payloadField_append {header : List Bool} (hheader : header.length = 16) (data : List Byte) (rest : List Bool) :
    payloadField (header ++ (payloadBits data ++ rest)) data.length = data := by
  simp only [payloadField, fieldAt_append_right hheader]
  induction data with
  | nil => rfl
  | cons b data ih =>
    have hnext (j : Nat) : fieldAt (payloadBits (b :: data) ++ rest) (8 * (j + 1)) 8 = fieldAt (payloadBits data ++ rest) (8 * j) 8 := by
      rw [payloadBits, List.flatMap_cons, List.append_assoc, Nat.mul_add_one, Nat.add_comm,
        fieldAt_append_right (bitsMsbFirst_length 8 b.toNat)]
    have hfirst : fieldAt (payloadBits (b :: data) ++ rest) (8 * 0) 8 = b.toNat := by
      rw [payloadBits, List.flatMap_cons, List.append_assoc]
      exact fieldAt_bitsMsbFirst_append b.isLt _
    rw [List.length_cons, List.range_succ_eq_map, List.map_cons, List.map_map, hfirst, BitVec.ofNat_toNat, BitVec.setWidth_eq]
    simp only [Function.comp_def, Nat.succ_eq_add_one, hnext, ih]

/-- The frame bits without the preamble, field after field (R170). -/
theorem drop_frameBits (pre post : Nat) (data : List Byte) : (frameBits pre post data).drop pre =
    bitsMsbFirst 16 data.length ++ (payloadBits data ++ (bitsMsbFirst 16 (crc data).toNat ++ List.replicate post true)) := by
  rw [frameBits_eq, List.drop_left' (preamble_length pre)]

/-- Settles O34: the length, the payload and the CRC are read back, and the frame is as long as its length says. -/
theorem parseInvertsFrameBits : Obligations.ParseInvertsFrameBits := by
  intro pre post data hshort
  have hbits : ((frameBits pre post data).drop pre).length = 16 + 8 * data.length + 16 + post := by
    rw [List.length_drop, frameBits_length]
    omega
  have hlength := bitsMsbFirst_length 16 data.length
  rw [drop_frameBits] at hbits ⊢
  have hlen := fieldAt_bitsMsbFirst_append (w := 16) (v := data.length) (by omega)
  rw [parseFrame_of_whole (by omega) (by rw [hlen, hbits]), hlen, payloadField_append hlength, fieldAt_append_right hlength,
    ← Nat.add_zero (8 * data.length), fieldAt_append_right (payloadBits_length data), fieldAt_bitsMsbFirst_append (crc data).isLt,
    if_pos rfl]

end Sys2Proof.Machine
end

section
/-! FIND and BITS (45_decoder.md R210, R211, R213): the correlator's match, the first of the grid, and the bits of the whole windows. -/

namespace Sys2Proof.Machine

variable {c : FskConfig} {xs : List F32}

theorem FskConfig.halfStep_pos (c : FskConfig) : 0 < c.halfStep := Nat.lt_of_lt_of_le Nat.one_pos (Nat.le_max_left ..)

theorem windowBits_eq (c : FskConfig) (xs : List F32) (p : Nat) : windowBits c xs p =
    [windowBit c xs p, windowBit c xs (p + c.spb), windowBit c xs (p + 2 * c.spb), windowBit c xs (p + 3 * c.spb)] := by
  simp [windowBits, List.range_succ]

theorem preambleAt_iff (c : FskConfig) (xs : List F32) (p : Nat) : preambleAt c xs p = true ↔ matchesAt c xs p := by
  rw [preambleAt, matchesAt, Bool.and_eq_true, decide_eq_true_eq, windowBits_eq, Bool.exists_bool]
  simp [or_comm]

/-- A position of the grid that matches is one of those FIND lists: its window lies in the samples. -/
theorem index_lt_of_matchesAt {k : Nat} (h : matchesAt c xs (k * c.halfStep)) : k < xs.length / c.halfStep + 1 := by
  obtain ⟨hin, -⟩ := h
  exact Nat.lt_succ_of_le ((Nat.le_div_iff_mul_le c.halfStep_pos).2 (by omega))

/-- FIND by the number of half steps before the match (R211). -/
theorem findPreamble_eq (c : FskConfig) (xs : List F32) : findPreamble c xs =
    ((List.range (xs.length / c.halfStep + 1)).find? (fun k => preambleAt c xs (k * c.halfStep))).map
      (fun k => (k * c.halfStep, k * c.halfStep + c.preambleBits.toNat * c.spb)) := by
  rw [findPreamble, List.find?_map, Option.map_map]
  rfl

theorem findPreamble_eq_none_iff : findPreamble c xs = none ↔ ∀ k, ¬ matchesAt c xs (k * c.halfStep) := by
  simp only [findPreamble_eq, Option.map_eq_none_iff, List.find?_range_eq_none, Bool.not_eq_true', ← Bool.not_eq_true, preambleAt_iff]
  exact ⟨fun h k hk => h k (index_lt_of_matchesAt hk) hk, fun h k _ => h k⟩

theorem findPreamble_eq_some_iff {m st : Nat} : findPreamble c xs = some (m, st) ↔
    ∃ k, m = k * c.halfStep ∧ matchesAt c xs m ∧ (∀ j < k, ¬ matchesAt c xs (j * c.halfStep)) ∧
      st = m + c.preambleBits.toNat * c.spb := by
  simp only [findPreamble_eq, Option.map_eq_some_iff, List.find?_range_eq_some, List.mem_range, Bool.not_eq_true', ← Bool.not_eq_true,
    preambleAt_iff, Prod.mk.injEq]
  constructor
  · rintro ⟨k, ⟨hmatch, -, hfirst⟩, rfl, rfl⟩
    exact ⟨k, rfl, hmatch, hfirst, rfl⟩
  · rintro ⟨k, rfl, hmatch, hfirst, rfl⟩
    exact ⟨k, ⟨hmatch, index_lt_of_matchesAt hmatch, hfirst⟩, rfl, rfl⟩

/-- Settles O31: the positions before k half steps are those of fewer half steps. -/
theorem findReturnsTheFirstMatch : Obligations.FindReturnsTheFirstMatch := by
  intro c xs
  refine ⟨fun m st => findPreamble_eq_some_iff.trans ?_, findPreamble_eq_none_iff⟩
  have hlt (j k : Nat) : j * max 1 (c.spb / 2) < k * max 1 (c.spb / 2) ↔ j < k := Nat.mul_lt_mul_right c.halfStep_pos
  constructor
  · rintro ⟨k, rfl, hmatch, hfirst, hst⟩
    exact ⟨⟨k, rfl⟩, hmatch, fun j hj => hfirst j ((hlt j k).1 hj), hst⟩
  · rintro ⟨⟨k, rfl⟩, hmatch, hfirst, hst⟩
    exact ⟨k, rfl, hmatch, fun j hj => hfirst j ((hlt j k).2 hj), hst⟩

/-- A bit k is there just where its window is whole (R213). -/
theorem index_lt_bodyBits_length_iff (hspb : 1 ≤ c.spb) {st k : Nat} :
    k < (bodyBits c xs st).length ↔ st + (k + 1) * c.spb ≤ xs.length := by
  have hpos : 0 < (k + 1) * c.spb := Nat.mul_pos k.succ_pos hspb
  rw [bodyBits, List.length_map, List.length_range, Nat.lt_iff_add_one_le, Nat.le_div_iff_mul_le hspb]
  omega

/-- Settles O32: the list ends with the last whole window. -/
theorem bodyBitsOfWholeWindows : Obligations.BodyBitsOfWholeWindows := by
  intro c xs st k hspb
  refine ⟨fun hwhole => ?_, fun hpart => ?_⟩
  · have hk := (index_lt_bodyBits_length_iff hspb).2 hwhole
    rw [List.getElem?_eq_getElem hk]
    simp only [bodyBits, List.getElem_map, List.getElem_range, windowBit]
  · exact List.getElem?_eq_none (Nat.not_lt.1 fun hk => hpart.not_ge ((index_lt_bodyBits_length_iff hspb).1 hk))

end Sys2Proof.Machine
end

section
/-! FIND_PREAMBLE and DECODE_FRAME over written samples (45_decoder.md R212, R216): the checks, the read, and each outcome. -/

namespace Sys2Proof.Machine

variable {s : State} {xs : List F32} {payload : List Byte} {st : Nat}

section written
variable (hvalid : s.cfg.valid = true) (hlen : s.ops.srcLen.toNat = xs.length) (hholds : s.holdsSamples s.ops.srcAddr.toNat xs)
  (hin : s.ops.srcAddr.toNat + xs.length ≤ s.params.sampleRamWords)
include hvalid hlen hholds hin

/-- FIND_PREAMBLE past its checks: FIND's answer decides (R212). -/
theorem exec_findPreamble_of_holds : exec .findPreamble s =
    (findPreamble s.cfg xs).elim (.next (s.fail .noPreamble)) fun found => .next (s.complete found.2 found.1 0 zero64) := by
  rw [exec, execFindPreamble, hlen, require_sampleRange_passes hvalid hin, State.samples_of_holds hholds,
    State.afterSamples_of_holds hholds]
  cases findPreamble s.cfg xs <;> rfl

/-- DECODE_FRAME past its checks: with a match the steps on the body follow (R216). -/
theorem exec_decodeFrame_of_holds : exec .decodeFrame s =
    (findPreamble s.cfg xs).elim (.next (s.fail .noPreamble)) fun found => decodeBody s xs found.2 := by
  rw [exec, execDecodeFrame, hlen, require_sampleRange_passes hvalid hin, State.samples_of_holds hholds,
    State.afterSamples_of_holds hholds]
  cases findPreamble s.cfg xs <;> rfl

end written

/-- Settles O28: the match, or the failure, is FIND's. -/
theorem findPreambleReportsTheMatch : Obligations.FindPreambleReportsTheMatch := by
  intro s xs hvalid hlen hholds hin
  rw [exec_findPreamble_of_holds hvalid hlen hholds hin]
  cases findPreamble s.cfg xs with
  | none =>
    obtain ⟨hreport, hframe⟩ := s.fail_report (c := .noPreamble) nofun
    exact ⟨_, rfl, hframe, hreport⟩
  | some found => exact ⟨_, rfl, rfl, s.complete_reportsSuccess found.2 found.1 0 zero64⟩

/-- The body of a frame that PARSE refuses (R216). -/
theorem decodeBody_of_error {c : ErrCode} (h : parseFrame s.cfg.postambleBits.toNat (bodyBits s.cfg xs st) = .error c) :
    decodeBody s xs st = .next (s.fail c) := by
  simp only [decodeBody, h]

/-- The body of a frame that PARSE accepts: the range check of the payload follows (R216). -/
theorem decodeBody_of_ok (h : parseFrame s.cfg.postambleBits.toNat (bodyBits s.cfg xs st) = .ok payload) :
    decodeBody s xs st = require (s.byteRangeOk s.ops.byteAddr.toNat payload.length) .byteRange s fun _ =>
      .next ((s.writeBytes s.ops.byteAddr.toNat payload).complete payload.length (bodyBits s.cfg xs st).length st zero64) := by
  simp only [decodeBody, h]

theorem State.writeBytes_complete_holds (s : State) (a : Nat) (bs : List Byte) (r0 r1 r2 : Nat) (f : F64) :
    ((s.writeBytes a bs).complete r0 r1 r2 f).holdsBytes a bs := cellGet?_put_at s.bram a bs

/-- A success after a write of bytes changes the report and the written bytes, and nothing else. -/
theorem State.writeBytes_complete_frame (s : State) (a : Nat) (bs : List Byte) (r0 r1 r2 : Nat) (f : F64) :
    s.onlyReportAndBytes ((s.writeBytes a bs).complete r0 r1 r2 f) a bs.length :=
  ⟨rfl, cellGet?_put_outside s.bram a bs⟩

/-- Settles O29: FIND's answer, PARSE's answer and the range check of the payload, in this order, decide the outcome. -/
theorem decodeFrameWritesThePayload : Obligations.DecodeFrameWritesThePayload := by
  intro s xs hvalid hlen hholds hin
  rw [exec_decodeFrame_of_holds hvalid hlen hholds hin]
  cases findPreamble s.cfg xs with
  | none => exact ⟨_, rfl, s.fail_report nofun⟩
  | some found =>
    obtain ⟨m, st⟩ := found
    dsimp only [Option.elim_some]
    cases hparse : parseFrame s.cfg.postambleBits.toNat (bodyBits s.cfg xs st) with
    | error c => exact ⟨_, decodeBody_of_error hparse, s.fail_report (parseFrame_error hparse)⟩
    | ok payload =>
      rw [decodeBody_of_ok hparse]
      dsimp only
      split
      next hfits =>
        exact ⟨_, require_of ((s.byteRangeOk_iff _ _).2 hfits) _ _ _,
          (s.writeBytes s.ops.byteAddr.toNat payload).complete_reportsSuccess _ _ _ zero64,
          s.writeBytes_complete_holds _ _ _ _ _ _, s.writeBytes_complete_frame _ _ _ _ _ _⟩
      next hout => exact ⟨_, require_of_not (State.byteRangeOk_false (Nat.not_le.1 hout)) _ _ _, s.fail_report nofun⟩

end Sys2Proof.Machine
end

section
/-! Silence (44_goertzel.md R190, R192): over samples that are all +0.0 the magnitude is +0.0, or a NaN where the coefficient is no finite
number, so every bit is 0. -/

namespace Sys2Proof.Machine

variable {x y coeff : F64}

theorem unpack64_zero64 : unpack64 zero64 = .fin false 0 := unpack64_zero

theorem f32To64_zero : f32To64 0 = zero64 := by decide +kernel

theorem unpack64_quietNaN : unpack64 (BitVec.ofNat 64 binary64.quietNaN) = .nan := by decide

theorem FpFormat.add_nan (f : FpFormat) (a : Fp) : f.add a .nan = f.quietNaN := by cases a <;> rfl

theorem FpFormat.mul_nan (f : FpFormat) (a : Fp) : f.mul a .nan = f.quietNaN := by cases a <;> rfl

section nan
variable (hx : unpack64 x = .nan)
include hx

theorem mul64_nan_left (y : F64) : unpack64 (mul64 x y) = .nan := by
  rw [mul64, hx]
  exact unpack64_quietNaN

theorem mul64_nan_right (y : F64) : unpack64 (mul64 y x) = .nan := by
  rw [mul64, hx, FpFormat.mul_nan, unpack64_quietNaN]

theorem add64_nan_right (y : F64) : unpack64 (add64 y x) = .nan := by
  rw [add64, hx, FpFormat.add_nan, unpack64_quietNaN]

theorem sub64_nan_left (y : F64) : unpack64 (sub64 x y) = .nan := by
  rw [sub64, hx]
  exact unpack64_quietNaN

theorem sub64_nan_right (y : F64) : unpack64 (sub64 y x) = .nan := by
  rw [sub64, hx, Fp.neg, FpFormat.add_nan, unpack64_quietNaN]

end nan

/-- +0.0 and a zero of either sign add to +0.0. -/
theorem add64_zero_left {s : Bool} (hy : unpack64 y = .fin s 0) : add64 zero64 y = zero64 := by
  rw [add64, unpack64_zero64, hy]
  cases s <;> rfl

theorem sub64_zero_left {s : Bool} (hy : unpack64 y = .fin s 0) : sub64 zero64 y = zero64 := by
  rw [sub64, unpack64_zero64, hy]
  cases s <;> rfl

/-- Whatever is multiplied by +0.0 becomes a zero or a NaN. -/
theorem unpack64_mul_zero_cases (x : F64) : unpack64 (mul64 x zero64) = .nan ∨ ∃ s, unpack64 (mul64 x zero64) = .fin s 0 := by
  match hx : unpack64 x with
  | .nan => exact .inl (mul64_nan_left hx _)
  | .inf s =>
    rw [mul64, hx, unpack64_zero64]
    exact .inl unpack64_quietNaN
  | .fin s u => exact .inr ⟨s, unpack64_mul_zero hx⟩

theorem goertzelState_replicate_succ (coeff : F64) (n : Nat) (x : F32) : goertzelState coeff (List.replicate (n + 1) x) =
    goertzelStep coeff (goertzelState coeff (List.replicate n x)) x := by
  rw [List.replicate_succ', goertzelState_concat]

/-- A finite coefficient keeps the states of silence at +0.0 (R190). -/
theorem goertzelState_silence {s : Bool} (hc : unpack64 (mul64 coeff zero64) = .fin s 0) (n : Nat) :
    goertzelState coeff (List.replicate n 0) = (zero64, zero64) := by
  induction n with
  | zero => rfl
  | succ n ih =>
    rw [goertzelState_replicate_succ, ih, goertzelStep, f32To64_zero, add64_zero_left hc, sub64_zero_left unpack64_zero64]

/-- A coefficient whose product with +0.0 is a NaN has a NaN as product with every first state of silence (R190). -/
theorem mul64_goertzelState_silence_nan (hc : unpack64 (mul64 coeff zero64) = .nan) (n : Nat) :
    unpack64 (mul64 coeff (goertzelState coeff (List.replicate n 0)).1) = .nan := by
  induction n with
  | zero => exact hc
  | succ n ih =>
    rw [goertzelState_replicate_succ]
    exact mul64_nan_right (sub64_nan_left (add64_nan_right ih _) _) _

theorem goertzelPower_silence {s : Bool} (hc : unpack64 (mul64 coeff zero64) = .fin s 0) : goertzelPower coeff zero64 zero64 = zero64 := by
  have hsquare : mul64 zero64 zero64 = zero64 := mul64_eq_zero unpack64_zero64 unpack64_zero64 (.inl rfl)
  have hproduct : unpack64 (mul64 (mul64 coeff zero64) zero64) = .fin s 0 := unpack64_mul_zero hc
  rw [goertzelPower, hsquare, add64_zero_left unpack64_zero64, sub64_zero_left hproduct]

theorem goertzelMagnitude_nan (h : unpack64 x = .nan) : isNaN64 (goertzelMagnitude x) = true := by
  rw [goertzelMagnitude, if_pos ((isNaN64_iff _).2 h)]
  decide

/-- The magnitude of silence is +0.0 or a NaN (R190). -/
theorem goertzelWith_silence (coeff : F64) (n : Nat) :
    goertzelWith coeff (List.replicate n 0) = zero64 ∨ isNaN64 (goertzelWith coeff (List.replicate n 0)) = true := by
  rw [goertzelWith_eq]
  obtain hc | ⟨s, hc⟩ := unpack64_mul_zero_cases coeff
  · exact .inr (goertzelMagnitude_nan (sub64_nan_right (mul64_nan_left (mul64_goertzelState_silence_nan hc n) _) _))
  · rw [goertzelState_silence hc, goertzelPower_silence hc]
    exact .inl (by decide)

/-- The bit of silence is 0, by a tie or by a NaN (R192). -/
theorem decideBit_silence (c : FskConfig) (n : Nat) : decideBit c (List.replicate n 0) = false := by
  refine tieAndNaNDecideZero c _ ?_
  obtain hmark | hmark := goertzelWith_silence (goertzelCoeff c.sampleRate.toNat c.markFreq.toNat) n
  · obtain hspace | hspace := goertzelWith_silence (goertzelCoeff c.sampleRate.toNat c.spaceFreq.toNat) n
    · exact .inl (hmark.trans hspace.symm)
    · exact .inr (.inr hspace)
  · exact .inr (.inl hmark)

theorem windowBit_silence (c : FskConfig) (n p : Nat) : windowBit c (List.replicate n 0) p = false := by
  rw [windowBit, List.drop_replicate, List.take_replicate, decideBit_silence]

/-- Silence has no alternating bits (R211). -/
theorem findPreamble_silence (c : FskConfig) (n : Nat) : findPreamble c (List.replicate n 0) = none := by
  refine findPreamble_eq_none_iff.2 fun k hmatch => ?_
  obtain ⟨-, b, hfirst, hsecond, -⟩ := hmatch
  rw [windowBit_silence] at hfirst hsecond
  subst hfirst
  cases hsecond

/-- Settles O35: FIND answers nothing on silence, so both commands fail. -/
theorem silenceHasNoPreamble : Obligations.SilenceHasNoPreamble := by
  intro i s hi hvalid hin hholds
  have hlen := List.length_replicate (n := s.ops.srcLen.toNat) (a := (0 : F32))
  refine ⟨s.fail .noPreamble, ?_, s.fail_report nofun⟩
  simp only [List.mem_cons, List.not_mem_nil, or_false] at hi
  obtain rfl | rfl := hi
  · rw [exec_findPreamble_of_holds hvalid hlen.symm hholds (by rwa [hlen]), findPreamble_silence, Option.elim_none]
  · rw [exec_decodeFrame_of_holds hvalid hlen.symm hholds (by rwa [hlen]), findPreamble_silence, Option.elim_none]

end Sys2Proof.Machine
end

section
/-! How a command fails (60_exceptions.md R241, R242): the cells it may have read by then, the codes it can report, and the frame. -/

namespace Sys2Proof.Machine

variable {i : Instr} {s t : State} {fs : List ModelFault} {c : ErrCode}

/-- The faults a command has recorded when it fails: none where it has not come to its read, else those of the read of its whole input
(20_memory.md R68, log 4). -/
inductive InputFaults (i : Instr) (s : State) : List ModelFault → Prop where
  | unread : InputFaults i s []
  | samples (h : readsSamples i = true) : InputFaults i s (s.unwrittenSamples s.ops.srcAddr.toNat s.ops.srcLen.toNat)
  | bytes (h : readsBytes i = true) : InputFaults i s (s.unwrittenBytes s.ops.byteAddr.toNat s.ops.byteLen.toNat)

/-- If `t` reports a failure of `i` performed in `s`, it is the failure completion with a code of the command's, after its read at most. -/
def FailsAsListed (i : Instr) (s t : State) : Prop :=
  t.status.ok = false → ∃ fs c, InputFaults i s fs ∧ c ∈ commandCodes i ∧ t = (s.afterRead fs).fail c

theorem FailsAsListed.read (hfs : InputFaults i s fs) (hc : c ∈ commandCodes i) : FailsAsListed i s ((s.afterRead fs).fail c) :=
  fun _ => ⟨fs, c, hfs, hc, rfl⟩

theorem FailsAsListed.unread (hc : c ∈ commandCodes i) : FailsAsListed i s (s.fail c) := .read .unread hc

theorem FailsAsListed.complete (u : State) (r0 r1 r2 : Nat) (f : F64) : FailsAsListed i s (u.complete r0 r1 r2 f) := nofun

/-- PARSE gives the three codes of its steps (45_decoder.md R214). -/
theorem parseFrame_error_mem {post : Nat} {bits : List Bool} (h : parseFrame post bits = .error c) :
    c ∈ [ErrCode.tooFewBits, .truncated, .crcMismatch] := by
  obtain hshort | hlong := Nat.lt_or_ge bits.length 32
  · rw [parseFrame_of_short hshort] at h
    cases h
    decide
  · obtain htrunc | hwhole := Nat.lt_or_ge bits.length (16 + 8 * fieldAt bits 0 16 + 16 + post)
    · rw [parseFrame_of_truncated hlong htrunc] at h
      cases h
      decide
    · rw [parseFrame_of_whole hlong hwhole] at h
      split at h <;> cases h
      decide

/-- The body of DECODE_FRAME, after the read of the samples, fails with a code of PARSE or with BYTE_RANGE (R216). -/
theorem decodeBody_failsAsListed (hfs : InputFaults .decodeFrame s fs) (xs : List F32) (st : Nat) :
    ∃ t, decodeBody (s.afterRead fs) xs st = .next t ∧ FailsAsListed .decodeFrame s t := by
  cases hparse : parseFrame (s.afterRead fs).cfg.postambleBits.toNat (bodyBits (s.afterRead fs).cfg xs st) with
  | error c =>
    have hcodes : [ErrCode.tooFewBits, .truncated, .crcMismatch] ⊆ commandCodes .decodeFrame := by decide
    exact ⟨_, decodeBody_of_error hparse, .read hfs (hcodes (parseFrame_error_mem hparse))⟩
  | ok payload =>
    rw [decodeBody_of_ok hparse]
    exact require_ensures (.read hfs (by decide)) ⟨_, rfl, .complete _ _ _ _ _⟩

/-- Every failure of a command is of the kind `FailsAsListed` says: each check by its code, and whether the read stands before it. -/
theorem exec_failsAsListed (i : Instr) (s : State) : ∃ t, exec i s = .next t ∧ FailsAsListed i s t := by
  cases i with
  | loadmode m =>
    rw [exec, execLoadMode]
    split
    · exact ⟨_, rfl, .complete _ _ _ _ _⟩
    · exact ⟨_, rfl, .unread (List.mem_singleton_self _)⟩
  | genTone =>
    rw [exec, execGenTone]
    exact require_ensures (.unread (by decide)) (require_ensures (.unread (by decide)) ⟨_, rfl, .complete _ _ _ _ _⟩)
  | encodeBit b =>
    rw [exec, execEncodeBit]
    exact require_ensures (.unread (by simp [commandCodes])) (require_ensures (.unread (by simp [commandCodes]))
      ⟨_, rfl, .complete _ _ _ _ _⟩)
  | crc16 =>
    rw [exec, execCrc16]
    exact require_ensures (.unread (by decide)) ⟨_, rfl, .complete _ _ _ _ _⟩
  | crcCheck =>
    rw [exec, execCrcCheck]
    exact require_ensures (.unread (by decide)) (require_ensures (.read (.bytes rfl) (by decide)) ⟨_, rfl, .complete _ _ _ _ _⟩)
  | encodeFrame =>
    rw [exec, execEncodeFrame]
    exact require_ensures (.unread (by decide)) (require_ensures (.unread (by decide)) (require_ensures (.unread (by decide))
      (require_ensures (.unread (by decide)) ⟨_, rfl, .complete _ _ _ _ _⟩)))
  | duration =>
    rw [exec, execDuration]
    exact require_ensures (.unread (by decide)) (require_ensures (.unread (by decide)) ⟨_, rfl, .complete _ _ _ _ _⟩)
  | goertzel | decodeBit =>
    simp only [exec, execGoertzel, execDecodeBit]
    exact require_ensures (.unread (by decide)) (require_ensures (.unread (by decide)) ⟨_, rfl, .complete _ _ _ _ _⟩)
  | findPreamble =>
    rw [exec, execFindPreamble]
    refine require_ensures (.unread (by decide)) (require_ensures (.unread (by decide)) ?_)
    split
    · exact ⟨_, rfl, .read (.samples rfl) (by decide)⟩
    · exact ⟨_, rfl, .complete _ _ _ _ _⟩
  | decodeFrame =>
    rw [exec, execDecodeFrame]
    refine require_ensures (.unread (by decide)) (require_ensures (.unread (by decide)) ?_)
    split
    · exact ⟨_, rfl, .read (.samples rfl) (by decide)⟩
    · exact decodeBody_failsAsListed (.samples rfl) _ _

theorem exists_fail_of_exec (h : exec i s = .next t) (hok : t.status.ok = false) :
    ∃ fs c, InputFaults i s fs ∧ c ∈ commandCodes i ∧ t = (s.afterRead fs).fail c := by
  obtain ⟨u, hu, hfails⟩ := exec_failsAsListed i s
  cases h.symm.trans hu
  exact hfails hok

/-- Settles O13: the codes of the failures of `exec`, and the block's turn on an illegal word. -/
theorem codesOfEachCommand : Obligations.CodesOfEachCommand := by
  refine ⟨fun i s t ht hok => ?_, fun s t hbusy hturn hillegal hstep => ?_⟩
  · obtain ⟨fs, c, -, hc, rfl⟩ := exists_fail_of_exec ht hok
    exact hc
  · rw [step_block hbusy hturn, blockTurn_illegal (s := { s with sched := s.sched.tail }) hillegal] at hstep
    cases hstep
    exact ⟨rfl, rfl⟩

theorem ne_none_of_mem_commandCodes (hc : c ∈ commandCodes i) : c ≠ .none := by
  rintro rfl
  cases i <;> simp [commandCodes] at hc

/-- Each fault of a command's input is the read of an unwritten cell of it. -/
theorem InputFaults.mem (h : InputFaults i s fs) {f : ModelFault} (hf : f ∈ fs) :
    (∃ x, f = .uninitRead .sampleRam x ∧ readsSamples i = true ∧ s.ops.srcAddr.toNat ≤ x ∧
      x < s.ops.srcAddr.toNat + s.ops.srcLen.toNat ∧ cellGet? s.sram x = none) ∨
    (∃ x, f = .uninitRead .byteRam x ∧ readsBytes i = true ∧ s.ops.byteAddr.toNat ≤ x ∧
      x < s.ops.byteAddr.toNat + s.ops.byteLen.toNat ∧ cellGet? s.bram x = none) := by
  cases h with
  | unread => cases hf
  | samples hi =>
    obtain ⟨x, hlo, hhi, hcell, rfl⟩ := (s.mem_unwrittenSamples _ _ f).1 hf
    exact .inl ⟨x, rfl, hi, hlo, hhi, hcell⟩
  | bytes hi =>
    obtain ⟨x, hlo, hhi, hcell, rfl⟩ := (s.mem_unwrittenBytes _ _ f).1 hf
    exact .inr ⟨x, rfl, hi, hlo, hhi, hcell⟩

/-- A command whose input is all written records no fault. -/
theorem InputFaults.eq_nil (h : InputFaults i s fs)
    (hsamples : readsSamples i = true → ∀ x, s.ops.srcAddr.toNat ≤ x → x < s.ops.srcAddr.toNat + s.ops.srcLen.toNat →
      cellGet? s.sram x ≠ none)
    (hbytes : readsBytes i = true → ∀ x, s.ops.byteAddr.toNat ≤ x → x < s.ops.byteAddr.toNat + s.ops.byteLen.toNat →
      cellGet? s.bram x ≠ none) : fs = [] := by
  refine List.eq_nil_iff_forall_not_mem.2 fun f hf => ?_
  obtain ⟨x, -, hi, hlo, hhi, hcell⟩ | ⟨x, -, hi, hlo, hhi, hcell⟩ := h.mem hf
  · exact hsamples hi x hlo hhi hcell
  · exact hbytes hi x hlo hhi hcell

/-- A failure after a read moves the report, the fault set and the draw counter, and nothing else (R242). -/
theorem State.afterRead_fail_frame (s : State) (fs : List ModelFault) (c : ErrCode) :
    let t := (s.afterRead fs).fail c
    t = { s with status := t.status, results := t.results, faults := t.faults, draws := t.draws } := by
  unfold State.afterRead
  split <;> rfl

theorem State.afterRead_fail_reportsFailure (s : State) (fs : List ModelFault) (hc : c ≠ .none) :
    s.reportsFailure ((s.afterRead fs).fail c) c := by
  obtain ⟨hreport, -⟩ := (s.afterRead fs).fail_report hc
  simpa only [State.reportsFailure, State.afterRead_status, State.afterRead_cmd] using hreport

/-- Settles O12: the failure completion after a read of the command's input, or after none. -/
theorem failedCommandIsPrecise : Obligations.FailedCommandIsPrecise := by
  intro i s t ht hok
  obtain ⟨fs, c, hfs, hcode, rfl⟩ := exists_fail_of_exec ht hok
  have hc := ne_none_of_mem_commandCodes hcode
  have hfaults (f : ModelFault) : f ∈ ((s.afterRead fs).fail c).faults ↔ f ∈ s.faults ∨ f ∈ fs := s.mem_afterRead_faults fs f
  refine ⟨s.afterRead_fail_reportsFailure fs hc, hc, s.afterRead_fail_frame fs c, fun f hf => (hfaults f).2 (.inl hf),
    fun f hf => ((hfaults f).1 hf).imp_right hfs.mem, fun hsamples hbytes => ?_⟩
  rw [hfs.eq_nil hsamples hbytes]
  exact ⟨rfl, rfl⟩

end Sys2Proof.Machine
end

section
/-! The fault set never shrinks (60_exceptions.md R246): every completion of a command, every bus write and every line of the host keeps
what it holds. -/

namespace Sys2Proof.Machine

variable {s t u : State}

theorem Effect.faults_eq (h : Effect s u) : u.faults = s.faults := by
  cases h <;> rfl

theorem State.faults_subset_afterRead (s : State) (fs : List ModelFault) : s.faults ⊆ (s.afterRead fs).faults :=
  fun _ hf => (s.mem_afterRead_faults fs _).2 (.inl hf)

theorem State.faults_subset_recordFaults (s : State) (fs : List ModelFault) : s.faults ⊆ (s.recordFaults fs).faults :=
  fun _ hf => (s.mem_recordFaults_faults fs _).2 (.inl hf)

theorem Completion.faults_subset (h : Completion s t) : s.faults ⊆ t.faults := by
  cases h with
  | failed fs c hc => exact s.faults_subset_afterRead fs
  | done fs u r0 r1 r2 f hu =>
    rw [State.complete_faults, hu.faults_eq]
    exact s.faults_subset_afterRead fs

theorem WriteEffect.faults_subset (h : WriteEffect s t) : s.faults ⊆ t.faults := by
  cases h with
  | busError off => exact s.faults_subset_recordFaults _
  | reset => exact fun f hf => s.softReset_faults.symm ▸ hf
  | _ => exact List.Subset.refl _

theorem HostEffect.faults_subset (h : HostEffect s t) : s.faults ⊆ t.faults := by
  cases h with
  | wrote u line hw => exact hw.faults_subset
  | read fs n b hb var v line =>
    rw [State.goto_faults, State.setVar_faults]
    exact s.faults_subset_recordFaults fs
  | _ => exact List.Subset.refl _

/-- Settles O48: a step is a completion or a line of the host, from the state with the turn used up, and neither removes a fault. -/
theorem noStepRemovesAFault : Obligations.NoStepRemovesAFault := by
  intro s t f hstep hf
  rw [← s.takeTurn_faults] at hf
  obtain ⟨-, -, hc⟩ | ⟨-, he⟩ := step_cases hstep
  · exact hc.faults_subset hf
  · exact he.faults_subset hf

end Sys2Proof.Machine
end

section
/-! What starts a command (60_exceptions.md R248, R260; 40_control.md R111). -/

namespace Sys2Proof.Machine

variable {s t : State}

/-- An accepted write to any register but CMD starts no command. -/
theorem State.writeRegIdle_busy_eq_false (hidle : s.status.busy = false) {r : HostReg} (hcmd : r ≠ .cmd) (v : Word) :
    (s.writeRegIdle v r).status.busy = false := by
  cases r with
  | cmd => exact absurd rfl hcmd
  | ctrl =>
    rw [State.writeRegIdle, State.writeCtrl]
    split
    · rfl
    · exact hidle
  | _ => exact hidle

/-- A bus write that starts a command is an access of 4 bytes to CMD. -/
theorem State.busWrite_starts (hidle : s.status.busy = false) {width : Nat} {off v : Word}
    (h : (s.busWrite width off v).status.busy = true) : width = 4 ∧ off = 0x040 := by
  cases ht : busTarget s.params width off with
  | reg r =>
    obtain ⟨rfl, rfl⟩ := (busTarget_reg_iff _ _ _ r).1 ht
    by_cases hcmd : r = .cmd
    · exact ⟨rfl, by rw [hcmd]; rfl⟩
    · rw [State.busWrite_idle hidle, State.writeRegIdle_busy_eq_false hidle hcmd] at h
      cases h
  | busError | byteWord | sampleWord => simp [State.busWrite, ht, hidle] at h

/-- The line of the host that starts a command is a write to CMD of the word then in flight. -/
theorem hostTurn_starts (hidle : s.status.busy = false) (h : hostTurn s = .next t) (hbusy : t.status.busy = true) :
    s.host.halted = false ∧ s.host.program[s.host.pos]? = some (.wr 4 0x040 t.cmd) := by
  constructor
  · refine Bool.eq_false_iff.2 fun hhalted => ?_
    rw [hostTurn_halted hhalted] at h
    cases h
    exact absurd hbusy (Bool.eq_false_iff.1 hidle)
  · obtain ⟨a, rfl⟩ | ⟨width, off, v, a, hline, rfl⟩ | ⟨width, off, x, a, -, rfl⟩ := hostTurn_access h
    · exact absurd hbusy (Bool.eq_false_iff.1 hidle)
    · obtain ⟨rfl, rfl⟩ := State.busWrite_starts hidle hbusy
      rw [State.busWrite_cmd hidle]
      exact hline
    · exact absurd ((s.busRead_inputs width off).busy.symm.trans hbusy) (Bool.eq_false_iff.1 hidle)

/-- Settles O11: with no command in flight a step is the host's line. -/
theorem onlyACmdWriteStartsACommand : Obligations.OnlyACmdWriteStartsACommand := by
  intro s t hstep hidle hbusy
  obtain ⟨c, hline⟩ := hostTurn_of_step (State.turn_idle hidle) hstep
  exact hostTurn_starts (s := { s with sched := c }) hidle hline hbusy

end Sys2Proof.Machine
end

section
/-! The interrupt output (60_exceptions.md R250): what raises and lowers it. -/

namespace Sys2Proof.Machine

variable {s t : State}

theorem Completion.irqEn_eq (h : Completion s t) : t.irqEn = s.irqEn := by
  cases h with
  | failed fs c hc => simp
  | done fs u r0 r1 r2 f hu => cases hu <;> simp

/-- A completion, success or failure, sets DONE, and so raises IRQ where it is enabled. -/
theorem Completion.irq_eq (h : Completion s t) : t.irq = s.irqEn := by
  rw [State.irq, h.status_eq, h.irqEn_eq, Status.finish_done, Bool.true_and]

theorem State.acknowledge_irq {v : Word} (hv : v.getLsbD 1 = true) (s : State) : (s.acknowledge v).irq = false := by
  simp [State.irq, hv]

/-- While BUSY = 1 no write but one to CTRL or STATUS moves IRQ: it is dropped or a bus error. -/
theorem State.busWrite_busy_irq (hbusy : s.status.busy = true) {off : Word} (hctrl : off ≠ 0x004) (hstatus : off ≠ 0x008) (v : Word) :
    (s.busWrite 4 off v).irq = s.irq := by
  by_cases hmap : mappedAccess s.params 4 off
  · rw [State.busWrite_busy hbusy hmap hctrl hstatus]
    rfl
  · rw [State.busWrite_unmapped hmap]
    rfl

/-- Settles O56: each event by what it leaves of DONE and IRQ_EN. -/
theorem interruptFollowsDone : Obligations.InterruptFollowsDone := by
  refine ⟨fun s => rfl, fun i s t ht => ?_, fun s w hidle => ?_, fun s v hv => ?_, fun s v hv => ?_, fun s v hreset hen => ?_,
    fun s off v hbusy hctrl hstatus => State.busWrite_busy_irq hbusy hctrl hstatus v, fun s width off v hmap => ?_⟩
  · obtain ⟨u, hu, hc⟩ := exec_completion i s
    cases ht.symm.trans hu
    exact hc.irq_eq
  · rw [State.busWrite_cmd hidle]
    rfl
  · rw [s.busWrite_status, State.acknowledge_irq hv]
  · rw [s.busWrite_ctrl, s.writeCtrl_reset hv]
    rfl
  · rw [s.busWrite_ctrl, s.writeCtrl_enable hreset]
    exact ⟨by rw [State.irq, hen, Bool.and_false], rfl⟩
  · rw [State.busWrite_unmapped hmap, State.busRead_unmapped hmap]
    exact ⟨rfl, rfl⟩

end Sys2Proof.Machine
end


section
/-! The two resets (70_reset_and_hazards.md R270, R271): what the registers read after them, and which cells the abort of a command in
flight takes off the RAMs. -/

namespace Sys2Proof.Machine

variable {s : State} {i : Instr}

/-- Every register takes its power-on value (R271). -/
theorem State.readReg_softReset (s : State) (r : HostReg) : s.softReset.readReg r = State.reset.readReg r := by
  cases r with
  | _ => rfl

/-- A word that decodes to no command could have written nothing (R96, R271). -/
theorem State.abort_illegal {e : Illegal} (hcmd : decode s.cmd = .error e) : s.abort = s := by
  unfold State.abort
  rw [hcmd]
  cases s.status.busy <;> rfl

/-- A command in flight loses the cells it could have written (R271). -/
theorem State.abort_inFlight (hbusy : s.status.busy = true) (hcmd : decode s.cmd = .ok i) :
    s.abort = { s with
      sram := cellsErase s.sram (couldWriteSamples s i).1 (couldWriteSamples s i).2,
      bram := cellsErase s.bram (couldWriteBytes s i).1 (couldWriteBytes s i).2 } := by
  unfold State.abort
  rw [hbusy, hcmd]

/-- The bytes DECODE_FRAME could have written end where B does, if not before; no other command writes bytes (R271). -/
theorem inCouldWriteBytes_iff (s : State) (i : Instr) (x : Nat) :
    ((couldWriteBytes s i).1 ≤ x ∧ x < (couldWriteBytes s i).1 + (couldWriteBytes s i).2) ↔
      i = .decodeFrame ∧ s.ops.byteAddr.toNat ≤ x ∧ x < min (s.ops.byteAddr.toNat + 65535) s.params.byteRamBytes := by
  cases i with
  | decodeFrame =>
    simp only [couldWriteBytes, true_and]
    omega
  | _ => simp [couldWriteBytes]

/-- Settles O55: the write is the soft reset, whose abort takes off just the cells the command in flight could have written. -/
theorem softResetEffects : Obligations.SoftResetEffects := by
  intro s v hv
  rw [s.busWrite_ctrl, s.writeCtrl_reset hv]
  refine ⟨s.readReg_softReset, rfl, s.softReset_faults, fun hnone => ?_, fun i hbusy hcmd => ⟨fun x => ?_, fun x => ?_⟩⟩
  · have habort : s.abort = s := by
      obtain hidle | ⟨e, hcmd⟩ := hnone
      · exact State.abort_idle hidle
      · exact State.abort_illegal hcmd
    rw [s.softReset_sram, s.softReset_bram, habort]
    exact ⟨rfl, rfl⟩
  · rw [s.softReset_sram, State.abort_inFlight hbusy hcmd, cellGet?_erase]
    refine if_congr ?_ rfl rfl
    cases i with
    | genTone | encodeBit _ | encodeFrame => exact Iff.rfl
    | _ =>
      simp only [couldWriteSamples]
      omega
  · rw [s.softReset_bram, State.abort_inFlight hbusy hcmd, cellGet?_erase]
    exact if_congr (inCouldWriteBytes_iff s i x) rfl rfl

/-- Settles O51: no command stands between the host and the registers, so it is shown the reset values. -/
theorem powerOnState : Obligations.PowerOnState := by
  unfold Obligations.PowerOnState
  rw [State.shown_none (s := State.reset) rfl]
  exact ⟨by decide, by decide, by decide, by decide, rfl, rfl, rfl, cellGet?_nil, cellGet?_nil⟩

/-- Settles O57: the sizes are legal, the configuration is the AUDIBLE preset, and nothing is reported, written or recorded. -/
theorem invariantHoldsAtReset : Obligations.InvariantHoldsAtReset where
  params := by decide
  rams := ⟨Memory.wf_nil _, Memory.wf_nil _⟩
  status := ⟨nofun, fun _ => rfl⟩
  reports := fun _ => ⟨rfl, fun _ => rfl⟩
  preset := fun _ => rfl
  before := ⟨nofun, nofun⟩
  faults := List.nodup_nil

end Sys2Proof.Machine
end
